-- ==== Sys2Proof/Word.lean ====
section
/-! DEFINITION. The word type of the hart, the byte, the register index and the three bus widths
(spec 00_scope.md R4, R8; 10_state.md R20; 20_memory.md R77). -/

namespace Sys2Proof

/-- A byte: 8 bits (R4). -/
abbrev Byte := BitVec 8

/-- A register, the pc and an address: 32 bits (R4). Its unsigned reading `u(v)` is `toNat`, its
two's-complement reading `s(v)` is `toInt` (R8). -/
abbrev Word := BitVec 32

/-- A register index: the 5-bit number an instruction field holds (R20, R141). -/
abbrev RegIdx := BitVec 5

/-- The bus widths: "Widths are exactly 1, 2, or 4" bytes (R77). No other width can be expressed. -/
inductive Width where
  | byte
  | half
  | word
  deriving DecidableEq, Repr

end Sys2Proof
end

