-- ==== Sys2Proof/Machine/Bits.lean ====
section
/-! DEFINITION. The bit-field, extension and width helpers (spec 00_scope.md R7, R9; 20_memory.md R77, R78). -/

namespace Sys2Proof

/-- The number of bytes of a bus width (R77). -/
def Width.bytes : Width → Nat
  | .byte => 1
  | .half => 2
  | .word => 4

/-- `mask(w) = 2^(8w) - 1` as a word (R78). -/
def Width.mask : Width → Word
  | .byte => 0x000000FF#32
  | .half => 0x0000FFFF#32
  | .word => 0xFFFFFFFF#32

/-- `v[8n-1:0]`, zero-extended to a word: what a width-`n` access carries of `v` (R78, R79). -/
def Width.trunc (n : Width) (v : Word) : Word := v &&& n.mask

/-- The field `v` put at bit `lo` of an otherwise zero word (R7). -/
def place {n : Nat} (v : BitVec n) (lo : Nat) : Word := v.setWidth 32 <<< lo

/-- `sext_n(v)`: bits `[n-1:0]` of `v`, bit `n-1` copied into bits `[31:n]` (R9). -/
def sext (n : Nat) (v : Word) : Word := (v.setWidth n).signExtend 32

/-- `zext_n(v)`: bits `[n-1:0]` of `v`, zeros above (R9). -/
def zext (n : Nat) (v : Word) : Word := (v.setWidth n).setWidth 32

/-- Byte `i` of a word, byte 0 the least significant (R83: `v[8i+7 : 8i]`). -/
def byteOf (v : Word) (i : Nat) : Byte := v.extractLsb' (8 * i) 8

end Sys2Proof
end

