-- ==== Sys2Proof/Syntax.lean ====
section
/-! DEFINITION. The typed instruction (spec 30_encoding.md R163): one constructor per row of
spec/opcode_table.json, with the register indices of its format and its immediate as the 32-bit word
the decoder delivers (already sign-extended, low zero bits in place: R155, R60). -/

namespace Sys2Proof

/-- The 37 instructions (00_scope.md R3). -/
inductive Instr where
  -- U format: rd, imm
  | lui   (rd : RegIdx) (imm : Word)
  | auipc (rd : RegIdx) (imm : Word)
  -- J format: rd, imm
  | jal   (rd : RegIdx) (imm : Word)
  -- I format: rd, rs1, imm
  | jalr  (rd rs1 : RegIdx) (imm : Word)
  -- B format: rs1, rs2, imm
  | beq   (rs1 rs2 : RegIdx) (imm : Word)
  | bne   (rs1 rs2 : RegIdx) (imm : Word)
  | blt   (rs1 rs2 : RegIdx) (imm : Word)
  | bge   (rs1 rs2 : RegIdx) (imm : Word)
  | bltu  (rs1 rs2 : RegIdx) (imm : Word)
  | bgeu  (rs1 rs2 : RegIdx) (imm : Word)
  -- I format, loads: rd, rs1, imm
  | lb    (rd rs1 : RegIdx) (imm : Word)
  | lh    (rd rs1 : RegIdx) (imm : Word)
  | lw    (rd rs1 : RegIdx) (imm : Word)
  | lbu   (rd rs1 : RegIdx) (imm : Word)
  | lhu   (rd rs1 : RegIdx) (imm : Word)
  -- S format: rs1 (base), rs2 (data), imm
  | sb    (rs1 rs2 : RegIdx) (imm : Word)
  | sh    (rs1 rs2 : RegIdx) (imm : Word)
  | sw    (rs1 rs2 : RegIdx) (imm : Word)
  -- I format, arithmetic: rd, rs1, imm
  | addi  (rd rs1 : RegIdx) (imm : Word)
  | slti  (rd rs1 : RegIdx) (imm : Word)
  | sltiu (rd rs1 : RegIdx) (imm : Word)
  | xori  (rd rs1 : RegIdx) (imm : Word)
  | ori   (rd rs1 : RegIdx) (imm : Word)
  | andi  (rd rs1 : RegIdx) (imm : Word)
  -- I-shift format: rd, rs1, shamt (5 bits, unsigned)
  | slli  (rd rs1 : RegIdx) (shamt : BitVec 5)
  | srli  (rd rs1 : RegIdx) (shamt : BitVec 5)
  | srai  (rd rs1 : RegIdx) (shamt : BitVec 5)
  -- R format: rd, rs1, rs2
  | add   (rd rs1 rs2 : RegIdx)
  | sub   (rd rs1 rs2 : RegIdx)
  | sll   (rd rs1 rs2 : RegIdx)
  | slt   (rd rs1 rs2 : RegIdx)
  | sltu  (rd rs1 rs2 : RegIdx)
  | xor   (rd rs1 rs2 : RegIdx)
  | srl   (rd rs1 rs2 : RegIdx)
  | sra   (rd rs1 rs2 : RegIdx)
  | or    (rd rs1 rs2 : RegIdx)
  | and   (rd rs1 rs2 : RegIdx)
  deriving DecidableEq, Repr

/-- The instruction formats (R142 to R148). -/
inductive Format where
  | r
  | i
  | iShift
  | s
  | b
  | u
  | j
  deriving DecidableEq, Repr

end Sys2Proof
end

