-- ==== Sys2Proof/WellFormed.lean ====
section
/-! DEFINITION. Which typed instructions an encoding exists for: the immediate lies in the range its
format can hold (spec 30_encoding.md R149 to R153). Register indices and shift amounts are 5-bit by
type and need no check. -/

namespace Sys2Proof

/-- R149, R150: a 12-bit signed immediate, -2048..2047. -/
def immFits12 (imm : Word) : Bool :=
  decide (-2048 ≤ imm.toInt) && decide (imm.toInt ≤ 2047)

/-- R151: a 13-bit signed immediate with low bit 0, even values -4096..4094. -/
def immFitsB (imm : Word) : Bool :=
  decide (-4096 ≤ imm.toInt) && decide (imm.toInt ≤ 4094) && decide (imm.toNat % 2 = 0)

/-- R153: a 21-bit signed immediate with low bit 0, even values -1048576..1048574. -/
def immFitsJ (imm : Word) : Bool :=
  decide (-1048576 ≤ imm.toInt) && decide (imm.toInt ≤ 1048574) && decide (imm.toNat % 2 = 0)

/-- R152: the low 12 bits of a U immediate are zero. -/
def immFitsU (imm : Word) : Bool :=
  decide (imm.toNat % 4096 = 0)

/-- An instruction some 32-bit word encodes (R155). -/
def Instr.wellFormed : Instr → Bool
  | .lui _ imm => immFitsU imm
  | .auipc _ imm => immFitsU imm
  | .jal _ imm => immFitsJ imm
  | .jalr _ _ imm => immFits12 imm
  | .beq _ _ imm => immFitsB imm
  | .bne _ _ imm => immFitsB imm
  | .blt _ _ imm => immFitsB imm
  | .bge _ _ imm => immFitsB imm
  | .bltu _ _ imm => immFitsB imm
  | .bgeu _ _ imm => immFitsB imm
  | .lb _ _ imm => immFits12 imm
  | .lh _ _ imm => immFits12 imm
  | .lw _ _ imm => immFits12 imm
  | .lbu _ _ imm => immFits12 imm
  | .lhu _ _ imm => immFits12 imm
  | .sb _ _ imm => immFits12 imm
  | .sh _ _ imm => immFits12 imm
  | .sw _ _ imm => immFits12 imm
  | .addi _ _ imm => immFits12 imm
  | .slti _ _ imm => immFits12 imm
  | .sltiu _ _ imm => immFits12 imm
  | .xori _ _ imm => immFits12 imm
  | .ori _ _ imm => immFits12 imm
  | .andi _ _ imm => immFits12 imm
  | .slli _ _ _ => true
  | .srli _ _ _ => true
  | .srai _ _ _ => true
  | .add _ _ _ => true
  | .sub _ _ _ => true
  | .sll _ _ _ => true
  | .slt _ _ _ => true
  | .sltu _ _ _ => true
  | .xor _ _ _ => true
  | .srl _ _ _ => true
  | .sra _ _ _ => true
  | .or _ _ _ => true
  | .and _ _ _ => true

end Sys2Proof
end

