-- ==== Sys2Proof/Decode.lean ====
section
/-! DEFINITION. The decoder and, after it, the encoder (spec 30_encoding.md). The opcode, funct3 and
funct7 numbers are those of R157 and R158 (spec/opcode_table.json). -/

namespace Sys2Proof

/-! ### Fields (R141) and immediates (R149 to R154) -/

def opcodeOf (w : Word) : BitVec 7 := w.extractLsb' 0 7
def rdOf (w : Word) : RegIdx := w.extractLsb' 7 5
def funct3Of (w : Word) : BitVec 3 := w.extractLsb' 12 3
def rs1Of (w : Word) : RegIdx := w.extractLsb' 15 5
def rs2Of (w : Word) : RegIdx := w.extractLsb' 20 5
def funct7Of (w : Word) : BitVec 7 := w.extractLsb' 25 7

/-- R154: `shamt = inst[24:20]`. -/
def shamtOf (w : Word) : BitVec 5 := w.extractLsb' 20 5

/-- R149: `imm_I = sext_12(inst[31:20])`. -/
def immI (w : Word) : Word := sext 12 (place (w.extractLsb' 20 12) 0)

/-- R150: `imm_S = sext_12({inst[31:25], inst[11:7]})`. -/
def immS (w : Word) : Word :=
  sext 12 (place (w.extractLsb' 25 7) 5 ||| place (w.extractLsb' 7 5) 0)

/-- R151: `imm_B = sext_13({inst[31], inst[7], inst[30:25], inst[11:8], 1'b0})`. -/
def immB (w : Word) : Word :=
  sext 13 (place (w.extractLsb' 31 1) 12 ||| place (w.extractLsb' 7 1) 11
    ||| place (w.extractLsb' 25 6) 5 ||| place (w.extractLsb' 8 4) 1)

/-- R152: `imm_U = {inst[31:12], 12'b0}`. -/
def immU (w : Word) : Word := place (w.extractLsb' 12 20) 12

/-- R153: `imm_J = sext_21({inst[31], inst[19:12], inst[20], inst[30:21], 1'b0})`. -/
def immJ (w : Word) : Word :=
  sext 21 (place (w.extractLsb' 31 1) 20 ||| place (w.extractLsb' 12 8) 12
    ||| place (w.extractLsb' 20 1) 11 ||| place (w.extractLsb' 21 10) 1)

/-! ### The decoder (R156 to R162) -/

/-- Why a word is illegal. The hardware reports only that it is, with the raw word (R156). -/
inductive IllegalReason where
  /-- R159: `inst[6:0]` is none of the nine opcodes. -/
  | unknownOpcode
  /-- R160: a known opcode, but its funct3 selects no case. -/
  | unknownFunct3
  /-- R161: an immediate shift whose upper seven bits are not its funct7. -/
  | shiftFunct7
  /-- R162: a register-register word whose funct7 selects no case. -/
  | opFunct7
  deriving DecidableEq, Repr

/-- BRANCH, opcode `1100011` (R158, R160). -/
def decodeBranch (w : Word) : Except IllegalReason Instr :=
  match funct3Of w with
  | 0b000#3 => .ok (.beq (rs1Of w) (rs2Of w) (immB w))
  | 0b001#3 => .ok (.bne (rs1Of w) (rs2Of w) (immB w))
  | 0b100#3 => .ok (.blt (rs1Of w) (rs2Of w) (immB w))
  | 0b101#3 => .ok (.bge (rs1Of w) (rs2Of w) (immB w))
  | 0b110#3 => .ok (.bltu (rs1Of w) (rs2Of w) (immB w))
  | 0b111#3 => .ok (.bgeu (rs1Of w) (rs2Of w) (immB w))
  | _ => .error .unknownFunct3

/-- LOAD, opcode `0000011` (R158, R160). -/
def decodeLoad (w : Word) : Except IllegalReason Instr :=
  match funct3Of w with
  | 0b000#3 => .ok (.lb (rdOf w) (rs1Of w) (immI w))
  | 0b001#3 => .ok (.lh (rdOf w) (rs1Of w) (immI w))
  | 0b010#3 => .ok (.lw (rdOf w) (rs1Of w) (immI w))
  | 0b100#3 => .ok (.lbu (rdOf w) (rs1Of w) (immI w))
  | 0b101#3 => .ok (.lhu (rdOf w) (rs1Of w) (immI w))
  | _ => .error .unknownFunct3

/-- STORE, opcode `0100011` (R158, R160). -/
def decodeStore (w : Word) : Except IllegalReason Instr :=
  match funct3Of w with
  | 0b000#3 => .ok (.sb (rs1Of w) (rs2Of w) (immS w))
  | 0b001#3 => .ok (.sh (rs1Of w) (rs2Of w) (immS w))
  | 0b010#3 => .ok (.sw (rs1Of w) (rs2Of w) (immS w))
  | _ => .error .unknownFunct3

/-- JALR, opcode `1100111` (R158, R160). -/
def decodeJalr (w : Word) : Except IllegalReason Instr :=
  match funct3Of w with
  | 0b000#3 => .ok (.jalr (rdOf w) (rs1Of w) (immI w))
  | _ => .error .unknownFunct3

/-- OP-IMM, opcode `0010011` (R158, R161). -/
def decodeOpImm (w : Word) : Except IllegalReason Instr :=
  match funct3Of w with
  | 0b000#3 => .ok (.addi (rdOf w) (rs1Of w) (immI w))
  | 0b010#3 => .ok (.slti (rdOf w) (rs1Of w) (immI w))
  | 0b011#3 => .ok (.sltiu (rdOf w) (rs1Of w) (immI w))
  | 0b100#3 => .ok (.xori (rdOf w) (rs1Of w) (immI w))
  | 0b110#3 => .ok (.ori (rdOf w) (rs1Of w) (immI w))
  | 0b111#3 => .ok (.andi (rdOf w) (rs1Of w) (immI w))
  | 0b001#3 =>
    if funct7Of w = 0b0000000#7 then .ok (.slli (rdOf w) (rs1Of w) (shamtOf w))
    else .error .shiftFunct7
  | _ => -- funct3 101
    if funct7Of w = 0b0000000#7 then .ok (.srli (rdOf w) (rs1Of w) (shamtOf w))
    else if funct7Of w = 0b0100000#7 then .ok (.srai (rdOf w) (rs1Of w) (shamtOf w))
    else .error .shiftFunct7

/-- OP, opcode `0110011` (R158, R162). -/
def decodeOp (w : Word) : Except IllegalReason Instr :=
  if funct7Of w = 0b0000000#7 then
    match funct3Of w with
    | 0b000#3 => .ok (.add (rdOf w) (rs1Of w) (rs2Of w))
    | 0b001#3 => .ok (.sll (rdOf w) (rs1Of w) (rs2Of w))
    | 0b010#3 => .ok (.slt (rdOf w) (rs1Of w) (rs2Of w))
    | 0b011#3 => .ok (.sltu (rdOf w) (rs1Of w) (rs2Of w))
    | 0b100#3 => .ok (.xor (rdOf w) (rs1Of w) (rs2Of w))
    | 0b101#3 => .ok (.srl (rdOf w) (rs1Of w) (rs2Of w))
    | 0b110#3 => .ok (.or (rdOf w) (rs1Of w) (rs2Of w))
    | _ => .ok (.and (rdOf w) (rs1Of w) (rs2Of w)) -- funct3 111
  else if funct7Of w = 0b0100000#7 then
    match funct3Of w with
    | 0b000#3 => .ok (.sub (rdOf w) (rs1Of w) (rs2Of w))
    | 0b101#3 => .ok (.sra (rdOf w) (rs1Of w) (rs2Of w))
    | _ => .error .opFunct7
  else .error .opFunct7

/-- R156: a total, pure function of the word; every word gets exactly one of the two answers. -/
def decode (w : Word) : Except IllegalReason Instr :=
  match opcodeOf w with
  | 0b0110111#7 => .ok (.lui (rdOf w) (immU w))
  | 0b0010111#7 => .ok (.auipc (rdOf w) (immU w))
  | 0b1101111#7 => .ok (.jal (rdOf w) (immJ w))
  | 0b1100111#7 => decodeJalr w
  | 0b1100011#7 => decodeBranch w
  | 0b0000011#7 => decodeLoad w
  | 0b0100011#7 => decodeStore w
  | 0b0010011#7 => decodeOpImm w
  | 0b0110011#7 => decodeOp w
  | _ => .error .unknownOpcode

/-! ### Bytes (20_memory.md R87) -/

/-- The word whose four bytes, lowest address first, are these (R87). -/
def wordOfBytes (b0 b1 b2 b3 : Byte) : Word :=
  place b3 24 ||| place b2 16 ||| place b1 8 ||| place b0 0

/-- The four bytes of a word, lowest address first (R87). -/
def bytesOfWord (w : Word) : List Byte := [byteOf w 0, byteOf w 1, byteOf w 2, byteOf w 3]

/-- Why a byte list does not begin with an instruction. -/
inductive DecodeError where
  /-- Fewer than the four bytes every instruction has (R140). -/
  | truncated
  /-- R156: illegal, with the raw word. -/
  | illegal (raw : Word) (why : IllegalReason)
  deriving DecidableEq, Repr

/-- The instruction at the head of a byte list, with the rest of the list: total on any bytes. -/
def decodeBytes : List Byte → Except DecodeError (Instr × List Byte)
  | b0 :: b1 :: b2 :: b3 :: rest =>
    match decode (wordOfBytes b0 b1 b2 b3) with
    | .ok i => .ok (i, rest)
    | .error why => .error (.illegal (wordOfBytes b0 b1 b2 b3) why)
  | _ => .error .truncated

/-- The instruction the decoder reads from a row's bits: `nbits` bits of `w`, every higher bit 0, laid
out little-endian as the hardware stores them. -/
def decodeTableWord (nbits w : Nat) : Option Instr :=
  match decodeBytes (bytesOfWord (BitVec.ofNat 32 (w % 2 ^ nbits))) with
  | .ok (i, _) => some i
  | .error _ => none

/-! ### The encoder (R142 to R148 and the inverse maps of R155) -/

def encR (funct7 : BitVec 7) (funct3 : BitVec 3) (op : BitVec 7) (rd rs1 rs2 : RegIdx) : Word :=
  place funct7 25 ||| place rs2 20 ||| place rs1 15 ||| place funct3 12 ||| place rd 7 ||| place op 0

def encI (funct3 : BitVec 3) (op : BitVec 7) (rd rs1 : RegIdx) (imm : Word) : Word :=
  place (imm.extractLsb' 0 12) 20 ||| place rs1 15 ||| place funct3 12 ||| place rd 7 ||| place op 0

def encS (funct3 : BitVec 3) (op : BitVec 7) (rs1 rs2 : RegIdx) (imm : Word) : Word :=
  place (imm.extractLsb' 5 7) 25 ||| place rs2 20 ||| place rs1 15 ||| place funct3 12
    ||| place (imm.extractLsb' 0 5) 7 ||| place op 0

def encB (funct3 : BitVec 3) (op : BitVec 7) (rs1 rs2 : RegIdx) (imm : Word) : Word :=
  place (imm.extractLsb' 12 1) 31 ||| place (imm.extractLsb' 5 6) 25 ||| place rs2 20 ||| place rs1 15
    ||| place funct3 12 ||| place (imm.extractLsb' 1 4) 8 ||| place (imm.extractLsb' 11 1) 7
    ||| place op 0

def encU (op : BitVec 7) (rd : RegIdx) (imm : Word) : Word :=
  place (imm.extractLsb' 12 20) 12 ||| place rd 7 ||| place op 0

def encJ (op : BitVec 7) (rd : RegIdx) (imm : Word) : Word :=
  place (imm.extractLsb' 20 1) 31 ||| place (imm.extractLsb' 1 10) 21 ||| place (imm.extractLsb' 11 1) 20
    ||| place (imm.extractLsb' 12 8) 12 ||| place rd 7 ||| place op 0

/-- The word of a well-formed instruction, from the rows of R158. -/
def encode : Instr → Word
  | .lui rd imm => encU 0b0110111#7 rd imm
  | .auipc rd imm => encU 0b0010111#7 rd imm
  | .jal rd imm => encJ 0b1101111#7 rd imm
  | .jalr rd rs1 imm => encI 0b000#3 0b1100111#7 rd rs1 imm
  | .beq rs1 rs2 imm => encB 0b000#3 0b1100011#7 rs1 rs2 imm
  | .bne rs1 rs2 imm => encB 0b001#3 0b1100011#7 rs1 rs2 imm
  | .blt rs1 rs2 imm => encB 0b100#3 0b1100011#7 rs1 rs2 imm
  | .bge rs1 rs2 imm => encB 0b101#3 0b1100011#7 rs1 rs2 imm
  | .bltu rs1 rs2 imm => encB 0b110#3 0b1100011#7 rs1 rs2 imm
  | .bgeu rs1 rs2 imm => encB 0b111#3 0b1100011#7 rs1 rs2 imm
  | .lb rd rs1 imm => encI 0b000#3 0b0000011#7 rd rs1 imm
  | .lh rd rs1 imm => encI 0b001#3 0b0000011#7 rd rs1 imm
  | .lw rd rs1 imm => encI 0b010#3 0b0000011#7 rd rs1 imm
  | .lbu rd rs1 imm => encI 0b100#3 0b0000011#7 rd rs1 imm
  | .lhu rd rs1 imm => encI 0b101#3 0b0000011#7 rd rs1 imm
  | .sb rs1 rs2 imm => encS 0b000#3 0b0100011#7 rs1 rs2 imm
  | .sh rs1 rs2 imm => encS 0b001#3 0b0100011#7 rs1 rs2 imm
  | .sw rs1 rs2 imm => encS 0b010#3 0b0100011#7 rs1 rs2 imm
  | .addi rd rs1 imm => encI 0b000#3 0b0010011#7 rd rs1 imm
  | .slti rd rs1 imm => encI 0b010#3 0b0010011#7 rd rs1 imm
  | .sltiu rd rs1 imm => encI 0b011#3 0b0010011#7 rd rs1 imm
  | .xori rd rs1 imm => encI 0b100#3 0b0010011#7 rd rs1 imm
  | .ori rd rs1 imm => encI 0b110#3 0b0010011#7 rd rs1 imm
  | .andi rd rs1 imm => encI 0b111#3 0b0010011#7 rd rs1 imm
  | .slli rd rs1 shamt => encR 0b0000000#7 0b001#3 0b0010011#7 rd rs1 shamt
  | .srli rd rs1 shamt => encR 0b0000000#7 0b101#3 0b0010011#7 rd rs1 shamt
  | .srai rd rs1 shamt => encR 0b0100000#7 0b101#3 0b0010011#7 rd rs1 shamt
  | .add rd rs1 rs2 => encR 0b0000000#7 0b000#3 0b0110011#7 rd rs1 rs2
  | .sub rd rs1 rs2 => encR 0b0100000#7 0b000#3 0b0110011#7 rd rs1 rs2
  | .sll rd rs1 rs2 => encR 0b0000000#7 0b001#3 0b0110011#7 rd rs1 rs2
  | .slt rd rs1 rs2 => encR 0b0000000#7 0b010#3 0b0110011#7 rd rs1 rs2
  | .sltu rd rs1 rs2 => encR 0b0000000#7 0b011#3 0b0110011#7 rd rs1 rs2
  | .xor rd rs1 rs2 => encR 0b0000000#7 0b100#3 0b0110011#7 rd rs1 rs2
  | .srl rd rs1 rs2 => encR 0b0000000#7 0b101#3 0b0110011#7 rd rs1 rs2
  | .sra rd rs1 rs2 => encR 0b0100000#7 0b101#3 0b0110011#7 rd rs1 rs2
  | .or rd rs1 rs2 => encR 0b0000000#7 0b110#3 0b0110011#7 rd rs1 rs2
  | .and rd rs1 rs2 => encR 0b0000000#7 0b111#3 0b0110011#7 rd rs1 rs2

/-- The bytes of an instruction as memory holds them, lowest address first (R87, R140). -/
def encodeBytes (i : Instr) : List Byte := bytesOfWord (encode i)

/-! ### The opcode table (R158) as data, for statements and tests that hold the decoder against it -/

/-- A row of R158: a word `w` is the row's instruction when `(w & mask) = match`. -/
structure OpcodeRow where
  mnemonic : String
  format   : Format
  fixed    : Word
  mask     : Word
  deriving DecidableEq, Repr

def opcodeRowsControl : List OpcodeRow :=
  [⟨"LUI", .u, 0x00000037#32, 0x0000007F#32⟩, ⟨"AUIPC", .u, 0x00000017#32, 0x0000007F#32⟩,
   ⟨"JAL", .j, 0x0000006F#32, 0x0000007F#32⟩, ⟨"JALR", .i, 0x00000067#32, 0x0000707F#32⟩,
   ⟨"BEQ", .b, 0x00000063#32, 0x0000707F#32⟩, ⟨"BNE", .b, 0x00001063#32, 0x0000707F#32⟩,
   ⟨"BLT", .b, 0x00004063#32, 0x0000707F#32⟩, ⟨"BGE", .b, 0x00005063#32, 0x0000707F#32⟩,
   ⟨"BLTU", .b, 0x00006063#32, 0x0000707F#32⟩, ⟨"BGEU", .b, 0x00007063#32, 0x0000707F#32⟩]

def opcodeRowsMemory : List OpcodeRow :=
  [⟨"LB", .i, 0x00000003#32, 0x0000707F#32⟩, ⟨"LH", .i, 0x00001003#32, 0x0000707F#32⟩,
   ⟨"LW", .i, 0x00002003#32, 0x0000707F#32⟩, ⟨"LBU", .i, 0x00004003#32, 0x0000707F#32⟩,
   ⟨"LHU", .i, 0x00005003#32, 0x0000707F#32⟩,
   ⟨"SB", .s, 0x00000023#32, 0x0000707F#32⟩, ⟨"SH", .s, 0x00001023#32, 0x0000707F#32⟩,
   ⟨"SW", .s, 0x00002023#32, 0x0000707F#32⟩]

def opcodeRowsOpImm : List OpcodeRow :=
  [⟨"ADDI", .i, 0x00000013#32, 0x0000707F#32⟩, ⟨"SLTI", .i, 0x00002013#32, 0x0000707F#32⟩,
   ⟨"SLTIU", .i, 0x00003013#32, 0x0000707F#32⟩, ⟨"XORI", .i, 0x00004013#32, 0x0000707F#32⟩,
   ⟨"ORI", .i, 0x00006013#32, 0x0000707F#32⟩, ⟨"ANDI", .i, 0x00007013#32, 0x0000707F#32⟩,
   ⟨"SLLI", .iShift, 0x00001013#32, 0xFE00707F#32⟩, ⟨"SRLI", .iShift, 0x00005013#32, 0xFE00707F#32⟩,
   ⟨"SRAI", .iShift, 0x40005013#32, 0xFE00707F#32⟩]

def opcodeRowsOp : List OpcodeRow :=
  [⟨"ADD", .r, 0x00000033#32, 0xFE00707F#32⟩, ⟨"SUB", .r, 0x40000033#32, 0xFE00707F#32⟩,
   ⟨"SLL", .r, 0x00001033#32, 0xFE00707F#32⟩, ⟨"SLT", .r, 0x00002033#32, 0xFE00707F#32⟩,
   ⟨"SLTU", .r, 0x00003033#32, 0xFE00707F#32⟩, ⟨"XOR", .r, 0x00004033#32, 0xFE00707F#32⟩,
   ⟨"SRL", .r, 0x00005033#32, 0xFE00707F#32⟩, ⟨"SRA", .r, 0x40005033#32, 0xFE00707F#32⟩,
   ⟨"OR", .r, 0x00006033#32, 0xFE00707F#32⟩, ⟨"AND", .r, 0x00007033#32, 0xFE00707F#32⟩]

def opcodeTable : List OpcodeRow :=
  opcodeRowsControl ++ opcodeRowsMemory ++ opcodeRowsOpImm ++ opcodeRowsOp

/-- `w` is the instruction of the row (R158). -/
def OpcodeRow.selects (r : OpcodeRow) (w : Word) : Bool := decide (w &&& r.mask = r.fixed)

/-- The tag of a typed instruction (R163), as the opcode table spells it. -/
def Instr.mnemonic : Instr → String
  | .lui _ _ => "LUI"
  | .auipc _ _ => "AUIPC"
  | .jal _ _ => "JAL"
  | .jalr _ _ _ => "JALR"
  | .beq _ _ _ => "BEQ"
  | .bne _ _ _ => "BNE"
  | .blt _ _ _ => "BLT"
  | .bge _ _ _ => "BGE"
  | .bltu _ _ _ => "BLTU"
  | .bgeu _ _ _ => "BGEU"
  | .lb _ _ _ => "LB"
  | .lh _ _ _ => "LH"
  | .lw _ _ _ => "LW"
  | .lbu _ _ _ => "LBU"
  | .lhu _ _ _ => "LHU"
  | .sb _ _ _ => "SB"
  | .sh _ _ _ => "SH"
  | .sw _ _ _ => "SW"
  | .addi _ _ _ => "ADDI"
  | .slti _ _ _ => "SLTI"
  | .sltiu _ _ _ => "SLTIU"
  | .xori _ _ _ => "XORI"
  | .ori _ _ _ => "ORI"
  | .andi _ _ _ => "ANDI"
  | .slli _ _ _ => "SLLI"
  | .srli _ _ _ => "SRLI"
  | .srai _ _ _ => "SRAI"
  | .add _ _ _ => "ADD"
  | .sub _ _ _ => "SUB"
  | .sll _ _ _ => "SLL"
  | .slt _ _ _ => "SLT"
  | .sltu _ _ _ => "SLTU"
  | .xor _ _ _ => "XOR"
  | .srl _ _ _ => "SRL"
  | .sra _ _ _ => "SRA"
  | .or _ _ _ => "OR"
  | .and _ _ _ => "AND"

/-- The register an instruction names as its destination (R22): none for branches and stores. -/
def Instr.dest? : Instr → Option RegIdx
  | .lui rd _ | .auipc rd _ | .jal rd _ => some rd
  | .jalr rd _ _ => some rd
  | .beq _ _ _ | .bne _ _ _ | .blt _ _ _ | .bge _ _ _ | .bltu _ _ _ | .bgeu _ _ _ => none
  | .lb rd _ _ | .lh rd _ _ | .lw rd _ _ | .lbu rd _ _ | .lhu rd _ _ => some rd
  | .sb _ _ _ | .sh _ _ _ | .sw _ _ _ => none
  | .addi rd _ _ | .slti rd _ _ | .sltiu rd _ _ | .xori rd _ _ | .ori rd _ _ | .andi rd _ _ => some rd
  | .slli rd _ _ | .srli rd _ _ | .srai rd _ _ => some rd
  | .add rd _ _ | .sub rd _ _ | .sll rd _ _ | .slt rd _ _ | .sltu rd _ _ => some rd
  | .xor rd _ _ | .srl rd _ _ | .sra rd _ _ | .or rd _ _ | .and rd _ _ => some rd

/-- The instruction with another destination (statements about `rd = x0`): unchanged where it has none. -/
def Instr.withDest (i : Instr) (d : RegIdx) : Instr :=
  match i with
  | .lui _ imm => .lui d imm
  | .auipc _ imm => .auipc d imm
  | .jal _ imm => .jal d imm
  | .jalr _ rs1 imm => .jalr d rs1 imm
  | .beq rs1 rs2 imm => .beq rs1 rs2 imm
  | .bne rs1 rs2 imm => .bne rs1 rs2 imm
  | .blt rs1 rs2 imm => .blt rs1 rs2 imm
  | .bge rs1 rs2 imm => .bge rs1 rs2 imm
  | .bltu rs1 rs2 imm => .bltu rs1 rs2 imm
  | .bgeu rs1 rs2 imm => .bgeu rs1 rs2 imm
  | .lb _ rs1 imm => .lb d rs1 imm
  | .lh _ rs1 imm => .lh d rs1 imm
  | .lw _ rs1 imm => .lw d rs1 imm
  | .lbu _ rs1 imm => .lbu d rs1 imm
  | .lhu _ rs1 imm => .lhu d rs1 imm
  | .sb rs1 rs2 imm => .sb rs1 rs2 imm
  | .sh rs1 rs2 imm => .sh rs1 rs2 imm
  | .sw rs1 rs2 imm => .sw rs1 rs2 imm
  | .addi _ rs1 imm => .addi d rs1 imm
  | .slti _ rs1 imm => .slti d rs1 imm
  | .sltiu _ rs1 imm => .sltiu d rs1 imm
  | .xori _ rs1 imm => .xori d rs1 imm
  | .ori _ rs1 imm => .ori d rs1 imm
  | .andi _ rs1 imm => .andi d rs1 imm
  | .slli _ rs1 shamt => .slli d rs1 shamt
  | .srli _ rs1 shamt => .srli d rs1 shamt
  | .srai _ rs1 shamt => .srai d rs1 shamt
  | .add _ rs1 rs2 => .add d rs1 rs2
  | .sub _ rs1 rs2 => .sub d rs1 rs2
  | .sll _ rs1 rs2 => .sll d rs1 rs2
  | .slt _ rs1 rs2 => .slt d rs1 rs2
  | .sltu _ rs1 rs2 => .sltu d rs1 rs2
  | .xor _ rs1 rs2 => .xor d rs1 rs2
  | .srl _ rs1 rs2 => .srl d rs1 rs2
  | .sra _ rs1 rs2 => .sra d rs1 rs2
  | .or _ rs1 rs2 => .or d rs1 rs2
  | .and _ rs1 rs2 => .and d rs1 rs2

/-- The first source register an instruction names (R22): none for LUI, AUIPC and JAL. -/
def Instr.src1? : Instr → Option RegIdx
  | .lui _ _ | .auipc _ _ | .jal _ _ => none
  | .jalr _ rs1 _ => some rs1
  | .beq rs1 _ _ | .bne rs1 _ _ | .blt rs1 _ _ | .bge rs1 _ _ | .bltu rs1 _ _ | .bgeu rs1 _ _ => some rs1
  | .lb _ rs1 _ | .lh _ rs1 _ | .lw _ rs1 _ | .lbu _ rs1 _ | .lhu _ rs1 _ => some rs1
  | .sb rs1 _ _ | .sh rs1 _ _ | .sw rs1 _ _ => some rs1
  | .addi _ rs1 _ | .slti _ rs1 _ | .sltiu _ rs1 _ | .xori _ rs1 _ | .ori _ rs1 _ | .andi _ rs1 _ => some rs1
  | .slli _ rs1 _ | .srli _ rs1 _ | .srai _ rs1 _ => some rs1
  | .add _ rs1 _ | .sub _ rs1 _ | .sll _ rs1 _ | .slt _ rs1 _ | .sltu _ rs1 _ => some rs1
  | .xor _ rs1 _ | .srl _ rs1 _ | .sra _ rs1 _ | .or _ rs1 _ | .and _ rs1 _ => some rs1

/-- The second source register (R22): of branches, stores and R-type instructions. -/
def Instr.src2? : Instr → Option RegIdx
  | .lui _ _ | .auipc _ _ | .jal _ _ => none
  | .jalr _ _ _ => none
  | .beq _ rs2 _ | .bne _ rs2 _ | .blt _ rs2 _ | .bge _ rs2 _ | .bltu _ rs2 _ | .bgeu _ rs2 _ => some rs2
  | .lb _ _ _ | .lh _ _ _ | .lw _ _ _ | .lbu _ _ _ | .lhu _ _ _ => none
  | .sb _ rs2 _ | .sh _ rs2 _ | .sw _ rs2 _ => some rs2
  | .addi _ _ _ | .slti _ _ _ | .sltiu _ _ _ | .xori _ _ _ | .ori _ _ _ | .andi _ _ _ => none
  | .slli _ _ _ | .srli _ _ _ | .srai _ _ _ => none
  | .add _ _ rs2 | .sub _ _ rs2 | .sll _ _ rs2 | .slt _ _ rs2 | .sltu _ _ rs2 => some rs2
  | .xor _ _ rs2 | .srl _ _ rs2 | .sra _ _ rs2 | .or _ _ rs2 | .and _ _ rs2 => some rs2

/-- The immediate an instruction carries (R163): none for R and I-shift formats. -/
def Instr.imm? : Instr → Option Word
  | .lui _ imm | .auipc _ imm | .jal _ imm => some imm
  | .jalr _ _ imm => some imm
  | .beq _ _ imm | .bne _ _ imm | .blt _ _ imm | .bge _ _ imm | .bltu _ _ imm | .bgeu _ _ imm => some imm
  | .lb _ _ imm | .lh _ _ imm | .lw _ _ imm | .lbu _ _ imm | .lhu _ _ imm => some imm
  | .sb _ _ imm | .sh _ _ imm | .sw _ _ imm => some imm
  | .addi _ _ imm | .slti _ _ imm | .sltiu _ _ imm | .xori _ _ imm | .ori _ _ imm | .andi _ _ imm => some imm
  | .slli _ _ _ | .srli _ _ _ | .srai _ _ _ => none
  | .add _ _ _ | .sub _ _ _ | .sll _ _ _ | .slt _ _ _ | .sltu _ _ _ => none
  | .xor _ _ _ | .srl _ _ _ | .sra _ _ _ | .or _ _ _ | .and _ _ _ => none

/-- The shift amount of SLLI, SRLI and SRAI (R154, R163). -/
def Instr.shamt? : Instr → Option (BitVec 5)
  | .slli _ _ shamt | .srli _ _ shamt | .srai _ _ shamt => some shamt
  | .lui _ _ | .auipc _ _ | .jal _ _ => none
  | .jalr _ _ _ => none
  | .beq _ _ _ | .bne _ _ _ | .blt _ _ _ | .bge _ _ _ | .bltu _ _ _ | .bgeu _ _ _ => none
  | .lb _ _ _ | .lh _ _ _ | .lw _ _ _ | .lbu _ _ _ | .lhu _ _ _ => none
  | .sb _ _ _ | .sh _ _ _ | .sw _ _ _ => none
  | .addi _ _ _ | .slti _ _ _ | .sltiu _ _ _ | .xori _ _ _ | .ori _ _ _ | .andi _ _ _ => none
  | .add _ _ _ | .sub _ _ _ | .sll _ _ _ | .slt _ _ _ | .sltu _ _ _ => none
  | .xor _ _ _ | .srl _ _ _ | .sra _ _ _ | .or _ _ _ | .and _ _ _ => none

/-- The format of an instruction (R142 to R148). -/
def Instr.format : Instr → Format
  | .lui _ _ | .auipc _ _ => .u
  | .jal _ _ => .j
  | .jalr _ _ _ => .i
  | .beq _ _ _ | .bne _ _ _ | .blt _ _ _ | .bge _ _ _ | .bltu _ _ _ | .bgeu _ _ _ => .b
  | .lb _ _ _ | .lh _ _ _ | .lw _ _ _ | .lbu _ _ _ | .lhu _ _ _ => .i
  | .sb _ _ _ | .sh _ _ _ | .sw _ _ _ => .s
  | .addi _ _ _ | .slti _ _ _ | .sltiu _ _ _ | .xori _ _ _ | .ori _ _ _ | .andi _ _ _ => .i
  | .slli _ _ _ | .srli _ _ _ | .srai _ _ _ => .iShift
  | .add _ _ _ | .sub _ _ _ | .sll _ _ _ | .slt _ _ _ | .sltu _ _ _ => .r
  | .xor _ _ _ | .srl _ _ _ | .sra _ _ _ | .or _ _ _ | .and _ _ _ => .r

end Sys2Proof
end

