-- ==== Sys2Proof/Machine/Flags.lean ====
section
/-! DEFINITION. Comparisons. The hart has no status flags and no condition codes (spec 10_state.md R28):
no instruction records carry, overflow, zero or sign. What other hardware keeps in flags is here the
comparator's answer, consumed at once by a branch or written as the word 1 or 0 (15_datapath.md R44, R46). -/

namespace Sys2Proof.Machine

/-- R46: the conditions of the six branches. -/
inductive Cond where
  | eq
  | ne
  | lt
  | ge
  | ltu
  | geu
  deriving DecidableEq, Repr

/-- R46: the branch comparator. -/
def branchTest (c : Cond) (a b : Word) : Bool :=
  match c with
  | .eq => a == b
  | .ne => a != b
  | .lt => a.slt b
  | .ge => !a.slt b
  | .ltu => a.ult b
  | .geu => !a.ult b

/-- The word 1 or the word 0 (R45). -/
def boolWord (c : Bool) : Word := if c then 1#32 else 0#32

end Sys2Proof.Machine
end

