-- ==== Sys2Proof/Config.lean ====
section
/-! DEFINITION. The configuration of a pyrv system, as plain data: the slave ports and their targets,
the register maps of peripherals with their handlers and triggers, the reset vector, the initial image
and the host's step bound (spec 00_scope.md R5; 10_state.md R33; 20_memory.md R71; 21_peripherals.md
R110, R111, R116, R121). The values of the reference system are in Machine/Reference.lean.
The spec leaves no instruction result undefined, so there is no free value (93_implementation_defined.md). -/

namespace Sys2Proof

/-- A function of at most three words, written as an expression, so that a configuration is plain data
(DESIGN CHOICE, log entry 4). What `x`, `y` and `z` stand for is said where it is used:
a read handler and its effect have `x` = the storage, `z` = the peripheral's own state; a write handler `x` = the written value, `y` = the old storage;
a predicate `x` = new, `y` = old; a callback `x` = new, `y` = old, `z` = the peripheral's own state.
Its meaning is `WordFn.eval` (Machine/Handlers.lean). -/
inductive WordFn where
  | x
  | y
  | z
  | lit  (w : Word)
  | and  (a b : WordFn)
  | or   (a b : WordFn)
  | xor  (a b : WordFn)
  | add  (a b : WordFn)
  | sub  (a b : WordFn)
  | shl  (a : WordFn) (n : Nat)
  | shr  (a : WordFn) (n : Nat)
  | eq   (a b : WordFn)
  | ltu  (a b : WordFn)
  | ite  (c a b : WordFn)
  deriving DecidableEq, Repr

/-- What a trigger's callback does (R120): set the halt flag, or update the state local to its
peripheral. A callback that issues a bus access cannot be written (R120 refuses such a configuration;
log entry 12). -/
inductive Callback where
  | setHaltFlag
  | setLocal (f : WordFn)
  deriving DecidableEq, Repr

/-- R116: a trigger is a pair of a predicate on `(new, old)` and a callback. -/
structure Trigger where
  predicate : WordFn
  callback  : Callback
  deriving DecidableEq, Repr

/-- R111, R121: a peripheral register. Its storage is state, not configuration (R32). `readEffect` is the side
effect of a read handler that has one (R89, R121): what the read makes of the state local to the peripheral. It
can be nothing else, since the storage changes through bus writes only (R32) and the halt flag through a trigger's
callback only (R26). With the default handler there is none (R113, R115). (Log entry 23.) -/
structure PeriphReg where
  offset       : Nat
  width        : Width
  readHandler  : WordFn
  readEffect   : Option WordFn := none
  writeHandler : WordFn
  triggers     : List Trigger
  deriving DecidableEq, Repr

/-- R71: a target is a memory region or a memory-mapped peripheral. Its size is its port's (R72).
A target is one port's own. Whether one region or peripheral may be attached at two ports (a mirror) is open:
neither R71 nor the errors of `attach` (R72) forbid it. Here none can be: a target has no name by which a second
port could share it, and its contents are found by bus address (DESIGN CHOICE, log entry 27). -/
inductive Target where
  | memory
  | peripheral (regs : List PeriphReg)
  deriving DecidableEq, Repr

/-- R71: a slave port owns the byte addresses `[base, base+size)`. `name` is a label with no effect. -/
structure Port where
  name   : String
  base   : Nat
  size   : Nat
  target : Target
  deriving DecidableEq, Repr

/-- R33: what is fixed before reset and never changed by a step. `maxSteps` is the host's bound on
`run()` and no part of the hardware (R57). -/
structure Config where
  ports       : List Port
  resetVector : Word
  initImage   : List Host.Cell
  maxSteps    : Option Nat
  deriving DecidableEq, Repr

/-- R5: the named parameters of the default system of three ports. -/
structure Params where
  imemBase    : Nat
  imemSize    : Nat
  dmemBase    : Nat
  dmemSize    : Nat
  simctrlBase : Nat
  resetVector : Word
  initImage   : List Host.Cell
  maxSteps    : Option Nat
  deriving DecidableEq, Repr

end Sys2Proof
end

