-- ==== Sys2Proof/Machine/Handlers.lean ====
section
/-! DEFINITION. The meaning of handler, predicate and callback expressions (spec 21_peripherals.md
R115, R116, R121). -/

namespace Sys2Proof.Machine

/-- The word an expression computes from its arguments. Comparisons give the word 1 or 0; `ite` takes
its first branch when the condition is not 0. -/
def WordFn.eval (x y z : Word) : WordFn → Word
  | .x => x
  | .y => y
  | .z => z
  | .lit w => w
  | .and a b => WordFn.eval x y z a &&& WordFn.eval x y z b
  | .or a b => WordFn.eval x y z a ||| WordFn.eval x y z b
  | .xor a b => WordFn.eval x y z a ^^^ WordFn.eval x y z b
  | .add a b => WordFn.eval x y z a + WordFn.eval x y z b
  | .sub a b => WordFn.eval x y z a - WordFn.eval x y z b
  | .shl a n => WordFn.eval x y z a <<< n
  | .shr a n => WordFn.eval x y z a >>> n
  | .eq a b => if WordFn.eval x y z a = WordFn.eval x y z b then 1#32 else 0#32
  | .ltu a b => if (WordFn.eval x y z a).toNat < (WordFn.eval x y z b).toNat then 1#32 else 0#32
  | .ite c a b => if WordFn.eval x y z c = 0#32 then WordFn.eval x y z b else WordFn.eval x y z a

/-- R116: the predicate on `(new, old)`: true when its expression is not 0. -/
def triggerFires (t : Trigger) (new old : Word) : Bool :=
  decide (WordFn.eval new old 0#32 t.predicate ≠ 0#32)

/-- R112: the register with exactly this offset and this width, if any. -/
def findReg (regs : List PeriphReg) (offset : Nat) (n : Width) : Option PeriphReg :=
  regs.find? (fun r => decide (r.offset = offset) && decide (r.width = n))

end Sys2Proof.Machine
end

