-- ==== Sys2Proof/Machine/Cells.lean ====
section
/-! DEFINITION. Sparse contents as plain data: a list of (address, value) pairs in one canonical form
(addresses strictly rising, no entry equal to zero, which is what an unlisted address reads as). Memory
is such a list of bytes (spec 20_memory.md R81: "all zero at construction (reset)"), and so is the
storage of the peripheral registers (10_state.md R32; zero at reset, R305). -/

namespace Sys2Proof.Machine

/-- The value at an address: zero where nothing is listed. -/
def Cells.get {n : Nat} : List (Nat × BitVec n) → Nat → BitVec n
  | [], _ => 0#n
  | (k, v) :: rest, a => if k = a then v else Cells.get rest a

/-- The contents with `v` at address `a`; the canonical form is kept. -/
def Cells.set {n : Nat} : List (Nat × BitVec n) → Nat → BitVec n → List (Nat × BitVec n)
  | [], a, v => if v = 0#n then [] else [(a, v)]
  | (k, u) :: rest, a, v =>
    if a < k then (if v = 0#n then (k, u) :: rest else (a, v) :: (k, u) :: rest)
    else if a = k then (if v = 0#n then rest else (a, v) :: rest)
    else (k, u) :: Cells.set rest a v

/-- The canonical form: addresses strictly rising, no zero entry. -/
abbrev Cells.wf {n : Nat} (m : List (Nat × BitVec n)) : Prop :=
  m.Pairwise (fun c d => c.1 < d.1) ∧ ∀ c ∈ m, c.2 ≠ 0#n

/-- The canonical form of memory. -/
abbrev Memory.wf (m : List Host.Cell) : Prop := Cells.wf m

/-- The initial image written over `m`, byte by byte, in list order (70_reset_and_hazards.md R306). -/
def Memory.overlay (image : List Host.Cell) (m : List Host.Cell) : List Host.Cell :=
  image.foldl (fun acc c => Cells.set acc c.1 c.2) m

end Sys2Proof.Machine
end

