-- ==== Sys2Proof/Machine/Reference.lean ====
section
/-! DEFINITION. The SimControl register map (spec 21_peripherals.md R122 to R124), the port list of the
default system and the reference configuration (00_scope.md R5; 20_memory.md R90). -/

namespace Sys2Proof.Machine

/-- R124: the predicate `(new & 1) == 1`; the callback sets the halt flag. -/
def simControlTrigger : Trigger :=
  { predicate := .eq (.and .x (.lit 1#32)) (.lit 1#32), callback := .setHaltFlag }

/-- R122, R123: one 32-bit register at offset 0, `CONTROL`, with the default handlers of R115 (read:
the storage, without side effect; write: the written value) and one trigger, the one its construction adds to an
empty list (R119, R124). -/
def simControl : List PeriphReg :=
  [{ offset := 0, width := .word, readHandler := .x, writeHandler := .x,
     triggers := [simControlTrigger] }]

/-- R90: the default system has exactly these three ports; the SimControl window is 4 bytes (R5). -/
def defaultPorts (p : Params) : List Port :=
  [{ name := "IMEM", base := p.imemBase, size := p.imemSize, target := .memory },
   { name := "DMEM", base := p.dmemBase, size := p.dmemSize, target := .memory },
   { name := "SIMCTRL", base := p.simctrlBase, size := 4, target := .peripheral simControl }]

/-- The default system with these parameters (R5). -/
def defaultConfig (p : Params) : Config :=
  { ports := defaultPorts p, resetVector := p.resetVector, initImage := p.initImage,
    maxSteps := p.maxSteps }

/-- The reference values of R5: instruction memory 64 KiB at 0, data memory 64 KiB at `0x1000_0000`,
SimControl at `0x2000_0000`, `RESET_VECTOR = IMEM_BASE`, no image, no step bound
(log entry 2: the spec's decision D1). -/
def referenceParams : Params :=
  { imemBase := 0x00000000, imemSize := 0x00010000, dmemBase := 0x10000000, dmemSize := 0x00010000,
    simctrlBase := 0x20000000, resetVector := 0x00000000#32, initImage := [], maxSteps := none }

/-- The reference configuration (R5). -/
def referenceConfig : Config := defaultConfig referenceParams

end Sys2Proof.Machine
end

