-- ==== Sys2Proof/Machine/State.lean ====
section
/-! DEFINITION. The state of the machine (spec 10_state.md), the reasons a machine is not built, and
the state after reset (70_reset_and_hazards.md). -/

namespace Sys2Proof.Machine

/-- R25: the hart state. `halted` and `faulted` are terminal. -/
inductive HartState where
  | running
  | halted
  | faulted
  deriving DecidableEq, Repr

/-- R277: what kind of access a fault record names. -/
inductive Access where
  | fetch
  | load
  | store
  deriving DecidableEq, Repr

/-- R270: the four run-time fault kinds, each with its own information (R277). -/
inductive FaultInfo where
  /-- R271: the decoder could not classify the word. -/
  | illegalInstruction (raw : Word)
  /-- R272: no port (or no peripheral register) is the access's. -/
  | unmappedAccess (addr : Word) (width : Width) (access : Access)
  /-- R273: the address is no multiple of the width. -/
  | misalignedAccess (addr : Word) (width : Width) (access : Access)
  /-- R274: the pc is no multiple of 4. -/
  | misalignedFetch
  deriving DecidableEq, Repr

/-- R27, R277: the fault record. `pc` is the address of the faulting instruction (for a misaligned
fetch, the misaligned pc). -/
structure FaultRecord where
  pc   : Word
  info : FaultInfo
  deriving DecidableEq, Repr

/-- The state. Everything the spec gives the machine, and two fields that are the model's own: `locals`
(R120 speaks of state local to a peripheral) and `cfg` (R33: parameters, not state; no step changes it;
log entry 1). -/
structure State where
  /-- R20: 32 general registers of 32 bits. Slot 0 is `x0`, which is never written and reads 0 (R21). -/
  regs        : Vector Word 32
  /-- R23. -/
  pc          : Word
  /-- R25. -/
  hartState   : HartState
  /-- R26. -/
  haltFlag    : Bool
  /-- R27: empty until the hart faults. -/
  faultRecord : Option FaultRecord
  /-- R31: the bytes of the memory regions, by bus address; an unlisted byte is 0. -/
  mem         : List Host.Cell
  /-- R32: the storage of the peripheral registers (`CONTROL` among them), by bus address
  (port base + register offset); an unlisted register holds 0. -/
  storage     : List (Nat × Word)
  /-- R120: the state local to each peripheral, by port base; unlisted is 0. -/
  locals      : List (Nat × Word)
  /-- R33: the configuration. -/
  cfg         : Config
  deriving DecidableEq, Repr

/-- Why a system is not built: the configuration errors. Raised by `powerOn` (Machine/Setup.lean) only,
before reset; no step of a running hart raises one (R270: the run-time fault kinds are states, not stops;
log entry 3). All are safe: nothing runs. -/
inductive Fault where
  /-- R275: `attach` of a port whose range overlaps an existing port. Raised by `powerOn`. Safe. -/
  | busOverlap
  /-- R275: `attach` with size 0, or with `base + size > 2^32`. Raised by `powerOn`. Safe. -/
  | badPortSize
  /-- R110: the registers of one peripheral overlap or leave its window. Raised by `powerOn`. Safe. -/
  | badRegisterMap
  /-- R306: an image byte whose address lies in no memory-region port. Raised by `powerOn`. Safe. -/
  | imageOutsideMemory
  deriving DecidableEq, Repr

/-- Why an instruction has no meaning. Raised by `exec`'s arms only. Safe: nothing is claimed. -/
inductive Refusal where
  /-- The instruction is not modelled yet, by its mnemonic. No arm of `exec` answers it. Safe. -/
  | notModelled (mnemonic : String)
  deriving DecidableEq, Repr

/-- R300: `reset(config, image) -> state`, the image being a field of the configuration. Registers zero
(R301), pc at the reset vector (R302), `Running`, halt flag false, no fault record (R303), memory zero
overlaid by the image (R304), peripheral storage zero (R305), the configuration as given (R307). -/
def State.resetWith (c : Config) : State :=
  { regs := Vector.replicate 32 0#32
    pc := c.resetVector
    hartState := .running
    haltFlag := false
    faultRecord := none
    mem := Memory.overlay c.initImage []
    storage := []
    locals := []
    cfg := c }

/-- The reference system right after reset (R34, R5). -/
def State.reset : State := State.resetWith referenceConfig

end Sys2Proof.Machine
end

