-- ==== Sys2Proof/Machine/Ops.lean ====
section
/-! DEFINITION. The named operations over registers, pc, memory, peripherals and the bus, taking a fault
(the one exception of this hardware) and leaving a terminal state (spec 15_datapath.md, 20_memory.md,
21_peripherals.md, 60_exceptions.md). -/

namespace Sys2Proof.Machine

/-! ### Registers and pc -/

/-- `x[i]`: register 0 reads 0 (R21, R47). -/
def State.readReg (s : State) (r : RegIdx) : Word :=
  if r = 0#5 then 0#32 else s.regs[r.toNat]'r.isLt

/-- `x[i] <- v`: a write of register 0 is discarded (R21, R47). -/
def State.writeReg (s : State) (r : RegIdx) (v : Word) : State :=
  if r = 0#5 then s else { s with regs := s.regs.set r.toNat v r.isLt }

/-- `pc <- t` (R50). No alignment is forced or checked (R24, R51). -/
def State.setPc (s : State) (t : Word) : State := { s with pc := t }

/-- R49: the default next pc, `pc + 4` modulo 2^32. -/
def State.advance (s : State) : State := s.setPc (s.pc + 4#32)

/-! ### Memory regions (R81 to R83) -/

/-- The byte of memory at a bus address. Region byte `M[offset]` of a port is the byte at `base + offset`,
so a byte belongs to one port only and no region is seen at two (DESIGN CHOICE, log entry 27). -/
def State.readByte (s : State) (a : Nat) : Byte := Cells.get s.mem a

def State.writeByte (s : State) (a : Nat) (b : Byte) : State := { s with mem := Cells.set s.mem a b }

/-- R82: `sum over i in 0..n-1 of M[offset+i] * 2^(8i)`, as a zero-extended word. -/
def State.regionRead (s : State) (a : Nat) : Width → Word
  | .byte => place (s.readByte a) 0
  | .half => place (s.readByte (a + 1)) 8 ||| place (s.readByte a) 0
  | .word => place (s.readByte (a + 3)) 24 ||| place (s.readByte (a + 2)) 16
      ||| place (s.readByte (a + 1)) 8 ||| place (s.readByte a) 0

/-- R83: for `i` in `0..n-1`, `M[offset+i] <- v[8i+7 : 8i]`. -/
def State.regionWrite (s : State) (a : Nat) (n : Width) (v : Word) : State :=
  match n with
  | .byte => s.writeByte a (byteOf v 0)
  | .half => (s.writeByte a (byteOf v 0)).writeByte (a + 1) (byteOf v 1)
  | .word => (((s.writeByte a (byteOf v 0)).writeByte (a + 1) (byteOf v 1)).writeByte (a + 2)
      (byteOf v 2)).writeByte (a + 3) (byteOf v 3)

/-! ### Peripheral registers (R113 to R118) -/

/-- The storage of the peripheral register at a bus address (port base + register offset). -/
def State.readStorage (s : State) (a : Nat) : Word := Cells.get s.storage a

def State.writeStorage (s : State) (a : Nat) (v : Word) : State :=
  { s with storage := Cells.set s.storage a v }

/-- The state local to the peripheral whose port has this base (R120). -/
def State.readLocal (s : State) (base : Nat) : Word := Cells.get s.locals base

def State.writeLocal (s : State) (base : Nat) (v : Word) : State :=
  { s with locals := Cells.set s.locals base v }

/-- R120: what a callback does, given the snapshot `(new, old)`. -/
def State.runCallback (s : State) (base : Nat) (new old : Word) : Callback → State
  | .setHaltFlag => { s with haltFlag := true }
  | .setLocal f => s.writeLocal base (WordFn.eval new old (s.readLocal base) f)

/-- R114: one trigger: its callback runs if its predicate is true. -/
def State.fireTrigger (base : Nat) (new old : Word) (s : State) (t : Trigger) : State :=
  if triggerFires t new old then s.runCallback base new old t.callback else s

/-- R113: the storage through the read handler, `8n` bits. -/
def State.periphRead (s : State) (base : Nat) (r : PeriphReg) : Word :=
  r.width.trunc (WordFn.eval (s.readStorage (base + r.offset)) 0#32 (s.readLocal base) r.readHandler)

/-- R89, R121: what a read of the register leaves: the state as it is, or, with a read handler that has a side
effect, the peripheral's local state updated. A read fires no trigger (R113). -/
def State.afterRead (s : State) (base : Nat) (r : PeriphReg) : State :=
  match r.readEffect with
  | none => s
  | some f => s.writeLocal base (WordFn.eval (s.readStorage (base + r.offset)) 0#32 (s.readLocal base) f)

/-- R114: the new storage of a register after a write of `v`. -/
def State.periphNew (s : State) (base : Nat) (r : PeriphReg) (v : Word) : Word :=
  r.width.trunc (WordFn.eval (r.width.trunc v) (s.readStorage (base + r.offset)) 0#32 r.writeHandler)

/-- R114, R117: storage first, then every trigger of the register in registration order, all with the
one snapshot `(new, old)`. -/
def State.periphWrite (s : State) (base : Nat) (r : PeriphReg) (v : Word) : State :=
  r.triggers.foldl
    (State.fireTrigger base (s.periphNew base r v) (s.readStorage (base + r.offset)))
    (s.writeStorage (base + r.offset) (s.periphNew base r v))

/-- The bus address of `CONTROL`: the base of the first port whose target is SimControl (R122). -/
def Config.simctrlBase? (c : Config) : Option Nat :=
  (c.ports.find? (fun p => decide (p.target = .peripheral simControl))).map Port.base

/-- The register `CONTROL` (R123): its storage, or 0 in a system without SimControl. -/
def State.control (s : State) : Word :=
  match Config.simctrlBase? s.cfg with
  | some base => s.readStorage base
  | none => 0#32

/-! ### The bus (R73 to R79) -/

/-- `[addr, addr+n)` lies in the port, on plain integers (R73, R99). -/
def portContains (p : Port) (addr : Nat) (n : Width) : Bool :=
  decide (p.base ≤ addr) && decide (addr + n.bytes ≤ p.base + p.size)

/-- R73: the port that contains the access, if there is one. -/
def Config.lookup (c : Config) (addr : Nat) (n : Width) : Option Port :=
  c.ports.find? (fun p => portContains p addr n)

/-- R75: `addr mod width = 0`, on the absolute bus address. -/
def aligned (addr : Word) (n : Width) : Bool := decide (addr.toNat % n.bytes = 0)

/-- R78: alignment, then port lookup, then the target: the word read, and the state the read leaves. A region
read changes nothing (R82); a peripheral read has the side effect of its handler (R89). A read that raises has
none (R131). -/
def memRead (access : Access) (addr : Word) (n : Width) (s : State) : Except FaultInfo (Word × State) :=
  if aligned addr n then
    match Config.lookup s.cfg addr.toNat n with
    | none => .error (.unmappedAccess addr n access)
    | some p =>
      match p.target with
      | .memory => .ok (s.regionRead addr.toNat n, s)
      | .peripheral regs =>
        match findReg regs (addr.toNat - p.base) n with
        | none => .error (.unmappedAccess addr n access)
        | some r => .ok (s.periphRead p.base r, s.afterRead p.base r)
  else .error (.misalignedAccess addr n access)

/-- R79: the same checks, then the write. A write that raises changes nothing. -/
def memWrite (addr : Word) (n : Width) (v : Word) (s : State) : Except FaultInfo State :=
  if aligned addr n then
    match Config.lookup s.cfg addr.toNat n with
    | none => .error (.unmappedAccess addr n .store)
    | some p =>
      match p.target with
      | .memory => .ok (s.regionWrite addr.toNat n v)
      | .peripheral regs =>
        match findReg regs (addr.toNat - p.base) n with
        | none => .error (.unmappedAccess addr n .store)
        | some r => .ok (s.periphWrite p.base r v)
  else .error (.misalignedAccess addr n .store)

/-- R41: instruction fetch. The pc is tested before any bus access. A fetch from a peripheral's window has
whatever effect that read has (R89). -/
def fetch (s : State) : Except FaultInfo (Word × State) :=
  if aligned s.pc .word then memRead .fetch s.pc .word s else .error .misalignedFetch

/-! ### Taking a fault, and leaving a terminal state -/

/-- R282, R283: fault entry. The hart state becomes `Faulted` and the fault record is latched with the
offending pc; nothing else changes, and control goes nowhere. -/
def State.enterFault (s : State) (info : FaultInfo) : State :=
  { s with hartState := .faulted, faultRecord := some { pc := s.pc, info := info } }

/-- R281, R283: the state a step leaves that began in `s` and executed to `t`. "The faulting one has changed
nothing": a step that faulted leaves `s` with the fault record latched, so that a side effect its own fetch had is
undone (log entry 25); a step that did not fault leaves `t`. -/
def State.unlessFaulted (s t : State) : State :=
  match t.hartState with
  | .running => t
  | .halted => t
  | .faulted => { s with hartState := .faulted, faultRecord := t.faultRecord }

/-- R285, R300: there is no return from a fault; only reset leaves `Faulted` (or `Halted`), and it
re-establishes the full reset state from the configuration. The host applies it; no step does. -/
def State.applyReset (s : State) : State := State.resetWith s.cfg

/-- R56: the halt poll that ends a step. In a step that faulted the flag is not examined. -/
def State.pollHalt (s : State) : State :=
  match s.hartState with
  | .running => if s.haltFlag then { s with hartState := .halted } else s
  | .halted => s
  | .faulted => s

end Sys2Proof.Machine
end

