-- ==== Sys2Proof/Machine/Operands.lean ====
section
/-! DEFINITION. The operand forms: the base-plus-displacement address, the extension of loaded data, the
shift amount, and the targets of control transfers (spec 15_datapath.md R43, R50, R52, R53). A register
operand is `State.readReg`; an immediate is the decoded word as it stands (R60). -/

namespace Sys2Proof.Machine

/-- R52: `ea = x[rs1] + imm` modulo 2^32. There is no other addressing mode. -/
def effectiveAddress (s : State) (rs1 : RegIdx) (imm : Word) : Word := s.readReg rs1 + imm

/-- R53: how a load extends the bus's word. -/
inductive LoadExt where
  | sext8
  | sext16
  | copy
  | zext8
  | zext16
  deriving DecidableEq, Repr

def LoadExt.apply (e : LoadExt) (v : Word) : Word :=
  match e with
  | .sext8 => sext 8 v
  | .sext16 => sext 16 v
  | .copy => v
  | .zext8 => zext 8 v
  | .zext16 => zext 16 v

/-- R43: the low 5 bits of a shift operand, `b & 0x1F`. -/
def shiftAmount (b : Word) : Nat := (b &&& 0x1F#32).toNat

/-- R44: an immediate shift amount as the ALU's `b` operand, `zext_5(shamt)`. -/
def shamtWord (shamt : BitVec 5) : Word := shamt.setWidth 32

/-- R50: `pc + imm`, the target of JAL and of a taken branch. -/
def pcRelative (s : State) (imm : Word) : Word := s.pc + imm

/-- R50: `(x[rs1] + imm_I) & 0xFFFF_FFFE`, the target of JALR. -/
def jalrTarget (s : State) (rs1 : RegIdx) (imm : Word) : Word :=
  (s.readReg rs1 + imm) &&& 0xFFFFFFFE#32

/-- `pc + 4`, the link value of JAL and JALR (R180, R181). -/
def linkValue (s : State) : Word := s.pc + 4#32

end Sys2Proof.Machine
end

