-- ==== Sys2Proof/Machine/AluImmediate.lean ====
section
/-! DEFINITION. The register-immediate ALU instructions (spec 45_alu_immediate.md). -/

namespace Sys2Proof.Machine

/-- R220: `x[rd] <- alu(op, x[rs1], b); pc <- pc + 4`, `b` the immediate as decoded (R60). -/
def aluImm (op : AluOp) (rd rs1 : RegIdx) (b : Word) (s : State) : Host.Outcome State Fault Refusal :=
  .next (s.writeReg rd (alu op (s.readReg rs1) b)).advance

/-- R221. -/
def execAddi (rd rs1 : RegIdx) (imm : Word) (s : State) : Host.Outcome State Fault Refusal :=
  aluImm .add rd rs1 imm s

/-- R222. -/
def execSlti (rd rs1 : RegIdx) (imm : Word) (s : State) : Host.Outcome State Fault Refusal :=
  aluImm .slt rd rs1 imm s

/-- R223. -/
def execSltiu (rd rs1 : RegIdx) (imm : Word) (s : State) : Host.Outcome State Fault Refusal :=
  aluImm .sltu rd rs1 imm s

/-- R224. -/
def execXori (rd rs1 : RegIdx) (imm : Word) (s : State) : Host.Outcome State Fault Refusal :=
  aluImm .xor rd rs1 imm s

/-- R225. -/
def execOri (rd rs1 : RegIdx) (imm : Word) (s : State) : Host.Outcome State Fault Refusal :=
  aluImm .or rd rs1 imm s

/-- R226. -/
def execAndi (rd rs1 : RegIdx) (imm : Word) (s : State) : Host.Outcome State Fault Refusal :=
  aluImm .and rd rs1 imm s

/-- R227. -/
def execSlli (rd rs1 : RegIdx) (shamt : BitVec 5) (s : State) : Host.Outcome State Fault Refusal :=
  aluImm .sll rd rs1 (shamtWord shamt) s

/-- R228. -/
def execSrli (rd rs1 : RegIdx) (shamt : BitVec 5) (s : State) : Host.Outcome State Fault Refusal :=
  aluImm .srl rd rs1 (shamtWord shamt) s

/-- R229. -/
def execSrai (rd rs1 : RegIdx) (shamt : BitVec 5) (s : State) : Host.Outcome State Fault Refusal :=
  aluImm .sra rd rs1 (shamtWord shamt) s

end Sys2Proof.Machine
end

