-- ==== Sys2Proof/Machine/AluRegister.lean ====
section
/-! DEFINITION. The register-register ALU instructions (spec 46_alu_register.md). -/

namespace Sys2Proof.Machine

/-- R240: `x[rd] <- alu(op, x[rs1], x[rs2]); pc <- pc + 4`. -/
def aluReg (op : AluOp) (rd rs1 rs2 : RegIdx) (s : State) : Host.Outcome State Fault Refusal :=
  .next (s.writeReg rd (alu op (s.readReg rs1) (s.readReg rs2))).advance

/-- R241. -/
def execAdd (rd rs1 rs2 : RegIdx) (s : State) : Host.Outcome State Fault Refusal :=
  aluReg .add rd rs1 rs2 s

/-- R242. -/
def execSub (rd rs1 rs2 : RegIdx) (s : State) : Host.Outcome State Fault Refusal :=
  aluReg .sub rd rs1 rs2 s

/-- R243. -/
def execSll (rd rs1 rs2 : RegIdx) (s : State) : Host.Outcome State Fault Refusal :=
  aluReg .sll rd rs1 rs2 s

/-- R244. -/
def execSlt (rd rs1 rs2 : RegIdx) (s : State) : Host.Outcome State Fault Refusal :=
  aluReg .slt rd rs1 rs2 s

/-- R245. -/
def execSltu (rd rs1 rs2 : RegIdx) (s : State) : Host.Outcome State Fault Refusal :=
  aluReg .sltu rd rs1 rs2 s

/-- R246. -/
def execXor (rd rs1 rs2 : RegIdx) (s : State) : Host.Outcome State Fault Refusal :=
  aluReg .xor rd rs1 rs2 s

/-- R247. -/
def execSrl (rd rs1 rs2 : RegIdx) (s : State) : Host.Outcome State Fault Refusal :=
  aluReg .srl rd rs1 rs2 s

/-- R248. -/
def execSra (rd rs1 rs2 : RegIdx) (s : State) : Host.Outcome State Fault Refusal :=
  aluReg .sra rd rs1 rs2 s

/-- R249. -/
def execOr (rd rs1 rs2 : RegIdx) (s : State) : Host.Outcome State Fault Refusal :=
  aluReg .or rd rs1 rs2 s

/-- R250. -/
def execAnd (rd rs1 rs2 : RegIdx) (s : State) : Host.Outcome State Fault Refusal :=
  aluReg .and rd rs1 rs2 s

end Sys2Proof.Machine
end

