-- ==== Sys2Proof/Machine/Branches.lean ====
section
/-! DEFINITION. The conditional branches (spec 42_branches.md). -/

namespace Sys2Proof.Machine

/-- R190: `pc + imm` when the comparison holds, else `pc + 4`. No register is written. -/
def branchOn (c : Cond) (rs1 rs2 : RegIdx) (imm : Word) (s : State) : Host.Outcome State Fault Refusal :=
  if branchTest c (s.readReg rs1) (s.readReg rs2) then .next (s.setPc (pcRelative s imm)) else .next s.advance

/-- R191. -/
def execBeq (rs1 rs2 : RegIdx) (imm : Word) (s : State) : Host.Outcome State Fault Refusal :=
  branchOn .eq rs1 rs2 imm s

/-- R192. -/
def execBne (rs1 rs2 : RegIdx) (imm : Word) (s : State) : Host.Outcome State Fault Refusal :=
  branchOn .ne rs1 rs2 imm s

/-- R193: signed. -/
def execBlt (rs1 rs2 : RegIdx) (imm : Word) (s : State) : Host.Outcome State Fault Refusal :=
  branchOn .lt rs1 rs2 imm s

/-- R194: signed. -/
def execBge (rs1 rs2 : RegIdx) (imm : Word) (s : State) : Host.Outcome State Fault Refusal :=
  branchOn .ge rs1 rs2 imm s

/-- R195: unsigned. -/
def execBltu (rs1 rs2 : RegIdx) (imm : Word) (s : State) : Host.Outcome State Fault Refusal :=
  branchOn .ltu rs1 rs2 imm s

/-- R196: unsigned. -/
def execBgeu (rs1 rs2 : RegIdx) (imm : Word) (s : State) : Host.Outcome State Fault Refusal :=
  branchOn .geu rs1 rs2 imm s

end Sys2Proof.Machine
end

