-- ==== Sys2Proof/Machine/Jumps.lean ====
section
/-! DEFINITION. JAL and JALR (spec 41_jumps.md). A target that is 2 modulo 4 is taken; the next step's
fetch raises MisalignedFetch (R51). -/

namespace Sys2Proof.Machine

/-- The commit of a jump: the link value into `rd`, the target into the pc (R48). The target and the
link value are computed from the state before either write. -/
def jumpAndLink (s : State) (rd : RegIdx) (target : Word) : Host.Outcome State Fault Refusal :=
  .next ((s.writeReg rd (linkValue s)).setPc target)

/-- R180: `t <- pc + imm_J; x[rd] <- pc + 4; pc <- t`. -/
def execJal (rd : RegIdx) (imm : Word) (s : State) : Host.Outcome State Fault Refusal :=
  jumpAndLink s rd (pcRelative s imm)

/-- R181: `t <- (x[rs1] + imm_I) & 0xFFFF_FFFE; x[rd] <- pc + 4; pc <- t`. -/
def execJalr (rd rs1 : RegIdx) (imm : Word) (s : State) : Host.Outcome State Fault Refusal :=
  jumpAndLink s rd (jalrTarget s rs1 imm)

end Sys2Proof.Machine
end

