-- ==== Sys2Proof/Machine/Loads.lean ====
section
/-! DEFINITION. The loads (spec 43_loads.md). -/

namespace Sys2Proof.Machine

/-- R200: one bus read at `ea`, with the side effect of that read (R89); then `x[rd] <- ext(v)` and `pc <- pc + 4`. The read is made for `rd = x0`
too (R55). A read that raises takes the fault: no register and no pc is written (R283). -/
def loadFrom (n : Width) (e : LoadExt) (rd rs1 : RegIdx) (imm : Word) (s : State) :
    Host.Outcome State Fault Refusal :=
  match memRead .load (effectiveAddress s rs1 imm) n s with
  | .ok (v, t) => .next (t.writeReg rd (e.apply v)).advance
  | .error info => .next (s.enterFault info)

/-- R201. -/
def execLb (rd rs1 : RegIdx) (imm : Word) (s : State) : Host.Outcome State Fault Refusal :=
  loadFrom .byte .sext8 rd rs1 imm s

/-- R202. -/
def execLh (rd rs1 : RegIdx) (imm : Word) (s : State) : Host.Outcome State Fault Refusal :=
  loadFrom .half .sext16 rd rs1 imm s

/-- R203. -/
def execLw (rd rs1 : RegIdx) (imm : Word) (s : State) : Host.Outcome State Fault Refusal :=
  loadFrom .word .copy rd rs1 imm s

/-- R204. -/
def execLbu (rd rs1 : RegIdx) (imm : Word) (s : State) : Host.Outcome State Fault Refusal :=
  loadFrom .byte .zext8 rd rs1 imm s

/-- R205. -/
def execLhu (rd rs1 : RegIdx) (imm : Word) (s : State) : Host.Outcome State Fault Refusal :=
  loadFrom .half .zext16 rd rs1 imm s

end Sys2Proof.Machine
end

