-- ==== Sys2Proof/Machine/Stores.lean ====
section
/-! DEFINITION. The stores (spec 44_stores.md). -/

namespace Sys2Proof.Machine

/-- R210: one bus write of the low `n` bytes of `x[rs2]` at `ea`; then `pc <- pc + 4`. A write that raises
takes the fault and changes nothing else (R283). -/
def storeTo (n : Width) (rs1 rs2 : RegIdx) (imm : Word) (s : State) : Host.Outcome State Fault Refusal :=
  match memWrite (effectiveAddress s rs1 imm) n (s.readReg rs2) s with
  | .ok t => .next t.advance
  | .error info => .next (s.enterFault info)

/-- R211. -/
def execSb (rs1 rs2 : RegIdx) (imm : Word) (s : State) : Host.Outcome State Fault Refusal :=
  storeTo .byte rs1 rs2 imm s

/-- R212. -/
def execSh (rs1 rs2 : RegIdx) (imm : Word) (s : State) : Host.Outcome State Fault Refusal :=
  storeTo .half rs1 rs2 imm s

/-- R213. -/
def execSw (rs1 rs2 : RegIdx) (imm : Word) (s : State) : Host.Outcome State Fault Refusal :=
  storeTo .word rs1 rs2 imm s

end Sys2Proof.Machine
end

