-- ==== Sys2Proof/Machine/Upper.lean ====
section
/-! DEFINITION. LUI and AUIPC (spec 40_upper_immediate.md). -/

namespace Sys2Proof.Machine

/-- The commit of an instruction that writes one register and goes on at `pc + 4` (R48, R49). -/
def retireReg (s : State) (rd : RegIdx) (v : Word) : Host.Outcome State Fault Refusal :=
  .next (s.writeReg rd v).advance

/-- R170: `x[rd] <- imm_U; pc <- pc + 4`. -/
def execLui (rd : RegIdx) (imm : Word) (s : State) : Host.Outcome State Fault Refusal :=
  retireReg s rd imm

/-- R171: `x[rd] <- pc + imm_U; pc <- pc + 4`. -/
def execAuipc (rd : RegIdx) (imm : Word) (s : State) : Host.Outcome State Fault Refusal :=
  retireReg s rd (pcRelative s imm)

end Sys2Proof.Machine
end

