-- ==== Sys2Proof/Machine/Sequencer.lean ====
section
/-! DEFINITION. The hart sequencer (spec 15_datapath.md R40, R56) and how a word is placed where the next
step fetches. Step.lean gives these their fixed names. -/

namespace Sys2Proof.Machine

/-- The execute stage, from the state `u` the fetch left, followed by the halt poll (R40, stages 3 and 4), in a
step that began in `s`. -/
def executeAndPoll (i : Instr) (s u : State) : Host.Outcome State Fault Refusal :=
  match exec i u with
  | .next t => .next (s.unlessFaulted t).pollHalt
  | .fault r => .fault r
  | .refused r => .refused r

/-- R40 in state `Running`: fetch, decode, execute, poll. A fault in any stage is taken and ends the
step, which then has changed nothing (R281). -/
def runningStep (s : State) : Host.Outcome State Fault Refusal :=
  match fetch s with
  | .error info => .next (s.enterFault info)
  | .ok (raw, u) =>
    match decode raw with
    | .error _ => .next (s.enterFault (.illegalInstruction raw))
    | .ok i => executeAndPoll i s u

/-- R40, R25, R285: in `Halted` and `Faulted` a step changes nothing. -/
def hartStep (s : State) : Host.Outcome State Fault Refusal :=
  match s.hartState with
  | .running => runningStep s
  | .halted => .next s
  | .faulted => .next s

/-- `s` with the row's word (its `nbits` bits of `w`, every higher bit 0) in the four bytes at the pc,
little-endian, put there as the loader's backdoor write puts an image byte (R306): log entry 10. -/
def placeFetchWord (s : State) (nbits w : Nat) : State :=
  s.regionWrite s.pc.toNat .word (BitVec.ofNat 32 (w % 2 ^ nbits))

end Sys2Proof.Machine
end

