-- ==== Sys2Proof/Machine/Step.lean ====
section
/-! DEFINITION. The step (spec 15_datapath.md R40) and the placing of the next instruction, under the
names the host reads. -/

namespace Sys2Proof.Machine

/-- R40: one `step()`. -/
def step (s : State) : Host.Outcome State Fault Refusal := hartStep s

/-- The state whose very next step fetches and runs this word (log entry 10). -/
def State.withFetchWord (s : State) (nbits w : Nat) : State := placeFetchWord s nbits w

end Sys2Proof.Machine
end

