-- ==== Sys2Proof/Machine/Run.lean ====
section
/-! DEFINITION. The host's `run()` (spec 15_datapath.md R57): no part of the hardware. -/

namespace Sys2Proof.Machine

/-- R57: steps until the hart state leaves `Running`, at most `k` steps. Exhausting the bound leaves the
hart `Running`. -/
def run : Nat → State → Host.Outcome State Fault Refusal
  | 0, s => .next s
  | k + 1, s =>
    match s.hartState with
    | .halted => .next s
    | .faulted => .next s
    | .running =>
      match step s with
      | .next t => run k t
      | .fault r => .fault r
      | .refused r => .refused r

end Sys2Proof.Machine
end

