-- ==== Sys2Proof/Machine/Setup.lean ====
section
/-! DEFINITION. Setup before reset: attaching ports, adding triggers, checking a configuration, and building the system
(spec 00_scope.md R6; 20_memory.md R71, R72; 21_peripherals.md R110, R119; 60_exceptions.md R275;
70_reset_and_hazards.md R300, R306). -/

namespace Sys2Proof.Machine

/-- Two half-open ranges share a byte (R71: a port owns `[base, base+size)`). -/
def rangesOverlap (b1 n1 b2 n2 : Nat) : Bool := decide (b1 < b2 + n2) && decide (b2 < b1 + n1)

def portsOverlap (p q : Port) : Bool := rangesOverlap p.base p.size q.base q.size

/-- R6, R72: `size > 0` and `base + size <= 2^32`. -/
def portSizeOk (p : Port) : Bool := decide (0 < p.size) && decide (p.base + p.size ≤ 2 ^ 32)

/-- The list in address-sorted order with `p` in it (R71). -/
def insertPort (p : Port) : List Port → List Port
  | [] => [p]
  | q :: rest => if p.base < q.base then p :: q :: rest else q :: insertPort p rest

/-- R72: `attach`. The size is checked before the overlap (log entry 8). -/
def attach (ports : List Port) (p : Port) : Except Fault (List Port) :=
  if portSizeOk p then
    if ports.any (portsOverlap p) then .error .busOverlap else .ok (insertPort p ports)
  else .error .badPortSize

/-- Attaching a list of ports in order, to those already there. -/
def attachAll (ports : List Port) : List Port → Except Fault (List Port)
  | [] => .ok ports
  | p :: rest =>
    match attach ports p with
    | .ok ports' => attachAll ports' rest
    | .error e => .error e

/-- R110: the registers of one peripheral do not overlap and lie inside its window. -/
def regMapOk (size : Nat) : List PeriphReg → Bool
  | [] => true
  | r :: rest => decide (r.offset + r.width.bytes ≤ size)
      && rest.all (fun q => !rangesOverlap r.offset r.width.bytes q.offset q.width.bytes)
      && regMapOk size rest

def portRegMapOk (p : Port) : Bool :=
  match p.target with
  | .memory => true
  | .peripheral regs => regMapOk p.size regs

/-- R119: `add_trigger(offset, predicate, callback)`: the register map with the trigger appended to the list of
the register at `offset`. There is no removal. `none` where no register has that offset: the spec gives the call
no effect there (log entry 26). -/
def addTrigger (regs : List PeriphReg) (offset : Nat) (t : Trigger) : Option (List PeriphReg) :=
  match regs with
  | [] => none
  | r :: rest =>
    if r.offset = offset then some ({ r with triggers := r.triggers ++ [t] } :: rest)
    else (addTrigger rest offset t).map (fun out => r :: out)

/-- The address lies in a memory-region port. -/
def inMemoryRegion (ports : List Port) (a : Nat) : Bool :=
  ports.any (fun p => decide (p.target = .memory) && decide (p.base ≤ a) && decide (a < p.base + p.size))

/-- R306: every image byte lies in a memory region. -/
def imageOk (ports : List Port) (image : List Host.Cell) : Bool :=
  image.all (fun c => inMemoryRegion ports c.1)

/-- The system is built from a configuration: ports attached in the order listed, register maps and image
checked, then reset. "Configuration errors are fatal at setup time" (R275): no step is ever taken. -/
def powerOn (c : Config) : Host.Outcome State Fault Refusal :=
  match attachAll [] c.ports with
  | .error e => .fault e
  | .ok ports =>
    if ports.all portRegMapOk then
      if imageOk ports c.initImage then .next (State.resetWith { c with ports := ports })
      else .fault .imageOutsideMemory
    else .fault .badRegisterMap

/-- R306, form (a): a raw binary blob at `base .. base + len - 1`, as an image. -/
def blobImage (base : Nat) : List Byte → List Host.Cell
  | [] => []
  | b :: rest => (base, b) :: blobImage (base + 1) rest

end Sys2Proof.Machine
end

