-- ==== Sys2Proof/Safety.lean ====
section
/-! DEFINITION. What counts as a safe run, and the terms statements use: the invariants of the state, the
frames of a step, and the spec's tables read as arithmetic. -/

namespace Sys2Proof.Machine

/-! ### Invariants -/

/-- Equal contents are equal data: memory, peripheral storage and local state in canonical form, and the
unused slot of `x0` zero (R21, R31, R32). -/
abbrev State.Canonical (s : State) : Prop :=
  Memory.wf s.mem ∧ Cells.wf s.storage ∧ Cells.wf s.locals ∧ s.regs[0] = 0#32

/-- The sequencer's three pieces agree (R25, R26, R27): the halt flag is set exactly in `Halted`, there
is a fault record exactly in `Faulted`, and it holds the pc where the hart stands. -/
abbrev State.SequencerAgrees (s : State) : Prop :=
  (s.haltFlag = true ↔ s.hartState = .halted)
  ∧ (s.faultRecord.isSome = true ↔ s.hartState = .faulted)
  ∧ ∀ r ∈ s.faultRecord, r.pc = s.pc

/-- An entry of the storage belongs to a register of an attached peripheral and fits its width (R32). -/
def storageCellOk (ports : List Port) (c : Nat × Word) : Prop :=
  ∃ p ∈ ports, ∃ regs, p.target = .peripheral regs ∧
    ∃ r ∈ regs, c.1 = p.base + r.offset ∧ r.width.trunc c.2 = c.2

/-- Bytes exist only in memory regions, and storage only in peripheral registers (R31, R32, R70). -/
def State.Contained (s : State) : Prop :=
  (∀ c ∈ s.mem, inMemoryRegion s.cfg.ports c.1 = true) ∧ ∀ c ∈ s.storage, storageCellOk s.cfg.ports c

/-- R6, R72, R110: what `attach` has checked of a running system's ports. -/
abbrev Config.Valid (c : Config) : Prop :=
  c.ports.Pairwise (fun p q => portsOverlap p q = false)
  ∧ ∀ p ∈ c.ports, portSizeOk p = true ∧ portRegMapOk p = true

/-! ### Frames -/

/-- Every byte of memory reads as before. -/
def SameMemory (s t : State) : Prop := ∀ a, t.readByte a = s.readByte a

/-- Every peripheral register, every peripheral's local state and the halt flag are as before. -/
def SameDevices (s t : State) : Prop :=
  (∀ a, t.readStorage a = s.readStorage a) ∧ (∀ b, t.readLocal b = s.readLocal b)
    ∧ t.haltFlag = s.haltFlag

/-- The hart state, the fault record and the configuration are as before. -/
def SameSequencer (s t : State) : Prop :=
  t.hartState = s.hartState ∧ t.faultRecord = s.faultRecord ∧ t.cfg = s.cfg

/-- Every register reads as before. -/
def SameRegs (s t : State) : Prop := ∀ r, t.readReg r = s.readReg r

/-- The only effects are `x[rd] <- v` (nothing where `rd = x0`) and `pc <- npc`. -/
def WritesOnly (s t : State) (rd : RegIdx) (v npc : Word) : Prop :=
  t.readReg rd = (if rd = 0#5 then 0#32 else v) ∧ (∀ r, r ≠ rd → t.readReg r = s.readReg r)
    ∧ t.pc = npc ∧ SameMemory s t ∧ SameDevices s t ∧ SameSequencer s t

/-- The only effect is `pc <- npc`. -/
def MovesPcOnly (s t : State) (npc : Word) : Prop :=
  SameRegs s t ∧ t.pc = npc ∧ SameMemory s t ∧ SameDevices s t ∧ SameSequencer s t

/-- Fault entry (R282, R283): `Faulted`, the record latched with the offending pc, nothing else. -/
def FaultsWith (s t : State) (info : FaultInfo) : Prop :=
  t.hartState = .faulted ∧ t.faultRecord = some { pc := s.pc, info := info } ∧ t.pc = s.pc
    ∧ t.cfg = s.cfg ∧ SameRegs s t ∧ SameMemory s t ∧ SameDevices s t

/-- The access `[a, a+n)` lies in a memory-region port. -/
def InRegion (s : State) (a : Nat) (n : Width) : Prop :=
  ∃ p ∈ s.cfg.ports, p.target = .memory ∧ p.base ≤ a ∧ a + n.bytes ≤ p.base + p.size

/-- No single port contains the access `[a, a+n)` (R73). -/
def Unmapped (s : State) (a : Nat) (n : Width) : Prop :=
  ∀ p ∈ s.cfg.ports, ¬ (p.base ≤ a ∧ a + n.bytes ≤ p.base + p.size)

/-- The word in the four bytes at the pc (R87). -/
def wordAtPc (s : State) : Word :=
  wordOfBytes (s.readByte s.pc.toNat) (s.readByte (s.pc.toNat + 1)) (s.readByte (s.pc.toNat + 2))
    (s.readByte (s.pc.toNat + 3))

/-- The hart runs, its pc is aligned and lies in a memory region of a valid system: the four bytes at the
pc are the next instruction word. -/
def ReadyToFetch (s : State) : Prop :=
  s.hartState = .running ∧ Config.Valid s.cfg ∧ s.pc.toNat % 4 = 0 ∧ InRegion s s.pc.toNat .word

/-! ### The spec's tables, as arithmetic on the two readings of a word (R8) -/

/-- The table of R44, with the shifts of R43: `u(v)` is `toNat`, `s(v)` is `toInt`. -/
def aluReading (op : AluOp) (a b : Word) : Word :=
  match op with
  | .add => BitVec.ofNat 32 (a.toNat + b.toNat)
  | .sub => BitVec.ofInt 32 ((a.toNat : Int) - (b.toNat : Int))
  | .sll => BitVec.ofNat 32 (a.toNat * 2 ^ (b.toNat % 32))
  | .slt => if a.toInt < b.toInt then 1#32 else 0#32
  | .sltu => if a.toNat < b.toNat then 1#32 else 0#32
  | .xor => BitVec.ofNat 32 (a.toNat ^^^ b.toNat)
  | .srl => BitVec.ofNat 32 (a.toNat / 2 ^ (b.toNat % 32))
  | .sra => BitVec.ofInt 32 (a.toInt / (2 ^ (b.toNat % 32) : Int))
  | .or => BitVec.ofNat 32 (a.toNat ||| b.toNat)
  | .and => BitVec.ofNat 32 (a.toNat &&& b.toNat)

/-- The table of R46. -/
abbrev cmpReading (c : Cond) (a b : Word) : Prop :=
  match c with
  | .eq => a.toNat = b.toNat
  | .ne => a.toNat ≠ b.toNat
  | .lt => a.toInt < b.toInt
  | .ge => b.toInt ≤ a.toInt
  | .ltu => a.toNat < b.toNat
  | .geu => b.toNat ≤ a.toNat

/-- The condition and offset of a branch (R191 to R196). -/
def branchOf? : Instr → Option (Cond × RegIdx × RegIdx × Word)
  | .beq a b imm => some (.eq, a, b, imm)
  | .bne a b imm => some (.ne, a, b, imm)
  | .blt a b imm => some (.lt, a, b, imm)
  | .bge a b imm => some (.ge, a, b, imm)
  | .bltu a b imm => some (.ltu, a, b, imm)
  | .bgeu a b imm => some (.geu, a, b, imm)
  | _ => none

/-- The width, base register, data register and offset of a store (R211 to R213). -/
def storeOf? : Instr → Option (Width × RegIdx × RegIdx × Word)
  | .sb a b imm => some (.byte, a, b, imm)
  | .sh a b imm => some (.half, a, b, imm)
  | .sw a b imm => some (.word, a, b, imm)
  | _ => none

/-- The width, destination, base register and offset of a load (R201 to R205). -/
def loadOf? : Instr → Option (Width × RegIdx × RegIdx × Word)
  | .lb rd a imm => some (.byte, rd, a, imm)
  | .lh rd a imm => some (.half, rd, a, imm)
  | .lw rd a imm => some (.word, rd, a, imm)
  | .lbu rd a imm => some (.byte, rd, a, imm)
  | .lhu rd a imm => some (.half, rd, a, imm)
  | _ => none

/-- An instruction whose next pc is not always `pc + 4` (R50). -/
def isTransfer : Instr → Bool
  | .jal _ _ | .jalr _ _ _ => true
  | .beq _ _ _ | .bne _ _ _ | .blt _ _ _ | .bge _ _ _ | .bltu _ _ _ | .bgeu _ _ _ => true
  | _ => false

/-! ### Safe runs -/

/-- A run that never leaves the machine: after any number of steps there is a next state. The hart may
stand in `Halted` or `Faulted`; no fault or refusal of the host's interface occurs. -/
def NeverStops (s : State) : Prop :=
  ∀ k, ∃ t, Host.Core.run Sys2Proof.core k s = .next t

/-- R57: `run()` from `s` ends in `t`. -/
def RunEnds (s t : State) : Prop := ∃ k, run k s = .next t ∧ t.hartState ≠ .running

/-- R309: the only clean end of a program. -/
def EndsCleanly (s t : State) : Prop := RunEnds s t ∧ t.hartState = .halted

end Sys2Proof.Machine
end

