-- ==== Sys2Proof/Certificates/Slice0/Obligations.lean ====
section
/-! DEFINITION. The statements for the provers. Each docstring names the rules of the spec it formalises;
where a clause rests on a decision the spec marks as its own (92_eei_decisions.md) or on a choice of the
model, the docstring says so. -/

open Sys2Proof Sys2Proof.Machine

/-! ## Encoding and decoding (30_encoding.md) -/

/-- R155, R163: decoding the word of a well-formed instruction gives it back, for all 37 instructions and
every operand value the encoding admits. -/
def Obligations.DecodeOfEncode : Prop :=
  ∀ i : Instr, i.wellFormed = true → decode (encode i) = .ok i

/-- R155: "The assembly loses no bit". Every legal word is the encoding of the instruction it decodes to,
and that instruction is well-formed. -/
def Obligations.EncodeOfDecode : Prop :=
  ∀ (w : Word) (i : Instr), decode w = .ok i → encode i = w ∧ i.wellFormed = true

/-- R156, R158: the decoder answers an instruction exactly for the words some row of the opcode table
selects, with that row's tag, and no word is selected by two rows. (The numbers of the table are general
knowledge in part: 93_implementation_defined.md GK1, GK2; log entry 14.) -/
def Obligations.DecoderFollowsOpcodeTable : Prop :=
  ∀ w : Word,
    (∀ i, decode w = .ok i → ∃ r ∈ opcodeTable, r.selects w = true ∧ r.mnemonic = i.mnemonic)
    ∧ (∀ r ∈ opcodeTable, r.selects w = true →
        ∃ i, decode w = .ok i ∧ i.mnemonic = r.mnemonic ∧ i.format = r.format)
    ∧ ∀ r1 ∈ opcodeTable, ∀ r2 ∈ opcodeTable, r1.selects w = true → r2.selects w = true → r1 = r2

/-- R159 to R162: the illegal words, all of them: an unknown opcode, an unknown funct3 under a known
opcode, a bad funct7 of an immediate shift, a bad funct7 of a register-register word. (Decisions D13 and
D14 of the spec.) -/
def Obligations.IllegalWordsAreExactly : Prop :=
  ∀ w : Word, (∃ why, decode w = .error why) ↔
    let op := w.toNat % 128
    let f3 := w.toNat / 4096 % 8
    let f7 := w.toNat / 33554432
    op ∉ [0x37, 0x17, 0x6F, 0x67, 0x63, 0x03, 0x23, 0x13, 0x33]
    ∨ (op = 0x67 ∧ f3 ≠ 0)
    ∨ (op = 0x63 ∧ f3 ∈ [2, 3])
    ∨ (op = 0x03 ∧ f3 ∈ [3, 6, 7])
    ∨ (op = 0x23 ∧ f3 ∈ [3, 4, 5, 6, 7])
    ∨ (op = 0x13 ∧ f3 = 1 ∧ f7 ≠ 0)
    ∨ (op = 0x13 ∧ f3 = 5 ∧ f7 ≠ 0 ∧ f7 ≠ 0x20)
    ∨ (op = 0x33 ∧ f7 ≠ 0 ∧ ¬ (f7 = 0x20 ∧ f3 ∈ [0, 5]))

/-- R161: the upper seven bits of the immediate shifts. -/
def Obligations.ImmediateShiftsNeedTheirFunct7 : Prop :=
  ∀ w : Word, w.extractLsb' 0 7 = 0b0010011#7 →
    (w.extractLsb' 12 3 = 0b001#3 →
      (w.extractLsb' 25 7 = 0b0000000#7 →
        decode w = .ok (.slli (w.extractLsb' 7 5) (w.extractLsb' 15 5) (w.extractLsb' 20 5)))
      ∧ (w.extractLsb' 25 7 ≠ 0b0000000#7 → decode w = .error .shiftFunct7))
    ∧ (w.extractLsb' 12 3 = 0b101#3 →
      (w.extractLsb' 25 7 = 0b0000000#7 →
        decode w = .ok (.srli (w.extractLsb' 7 5) (w.extractLsb' 15 5) (w.extractLsb' 20 5)))
      ∧ (w.extractLsb' 25 7 = 0b0100000#7 →
        decode w = .ok (.srai (w.extractLsb' 7 5) (w.extractLsb' 15 5) (w.extractLsb' 20 5)))
      ∧ (w.extractLsb' 25 7 ≠ 0b0000000#7 → w.extractLsb' 25 7 ≠ 0b0100000#7 →
        decode w = .error .shiftFunct7))

/-- R162: funct7 of the register-register words. (That OP is `0110011` is general knowledge:
93_implementation_defined.md GK1; log entry 14.) -/
def Obligations.RegisterWordsNeedTheirFunct7 : Prop :=
  ∀ w : Word, w.extractLsb' 0 7 = 0b0110011#7 →
    (w.extractLsb' 25 7 = 0b0000000#7 → ∃ i, decode w = .ok i)
    ∧ (w.extractLsb' 25 7 = 0b0100000#7 → w.extractLsb' 12 3 = 0b000#3 →
        decode w = .ok (.sub (w.extractLsb' 7 5) (w.extractLsb' 15 5) (w.extractLsb' 20 5)))
    ∧ (w.extractLsb' 25 7 = 0b0100000#7 → w.extractLsb' 12 3 = 0b101#3 →
        decode w = .ok (.sra (w.extractLsb' 7 5) (w.extractLsb' 15 5) (w.extractLsb' 20 5)))
    ∧ (w.extractLsb' 25 7 = 0b0100000#7 → w.extractLsb' 12 3 ≠ 0b000#3 → w.extractLsb' 12 3 ≠ 0b101#3 →
        decode w = .error .opFunct7)
    ∧ (w.extractLsb' 25 7 ≠ 0b0000000#7 → w.extractLsb' 25 7 ≠ 0b0100000#7 → decode w = .error .opFunct7)

/-- R149 to R153: the immediate the decoder delivers, by format, as the number the rule gives. -/
def Obligations.DecodedImmediates : Prop :=
  ∀ (w : Word) (i : Instr) (imm : Word), decode w = .ok i → i.imm? = some imm →
    (i.format = .i → imm.toInt = (w.toNat / 2 ^ 20 % 2 ^ 11 : Nat) - (if w.getLsbD 31 then 2048 else 0))
    ∧ (i.format = .s → imm.toInt =
        (w.toNat / 2 ^ 25 % 2 ^ 6 * 32 + w.toNat / 2 ^ 7 % 2 ^ 5 : Nat) - (if w.getLsbD 31 then 2048 else 0))
    ∧ (i.format = .b → imm.toInt =
        (w.toNat / 2 ^ 7 % 2 * 2048 + w.toNat / 2 ^ 25 % 2 ^ 6 * 32 + w.toNat / 2 ^ 8 % 2 ^ 4 * 2 : Nat)
          - (if w.getLsbD 31 then 4096 else 0))
    ∧ (i.format = .u → imm = w &&& 0xFFFFF000#32)
    ∧ (i.format = .j → imm.toInt =
        (w.toNat / 2 ^ 12 % 2 ^ 8 * 4096 + w.toNat / 2 ^ 20 % 2 * 2048 + w.toNat / 2 ^ 21 % 2 ^ 10 * 2 : Nat)
          - (if w.getLsbD 31 then 1048576 else 0))

/-- R141, R154: the register indices and the shift amount come from their fields. -/
def Obligations.DecodedRegisterFields : Prop :=
  ∀ (w : Word) (i : Instr), decode w = .ok i →
    (∀ r, i.dest? = some r → r.toNat = w.toNat / 2 ^ 7 % 32)
    ∧ (∀ r, i.src1? = some r → r.toNat = w.toNat / 2 ^ 15 % 32)
    ∧ (∀ r, i.src2? = some r → r.toNat = w.toNat / 2 ^ 20 % 32)
    ∧ (∀ n, i.shamt? = some n → n.toNat = w.toNat / 2 ^ 20 % 32)

/-- Words written out in 95_test_vectors.md section 2.1, one or more of each family. -/
def Obligations.DecodesTheSpecsWords : Prop :=
  decode 0xDEADB2B7#32 = .ok (.lui 5#5 0xDEADB000#32)
  ∧ decode 0x12345317#32 = .ok (.auipc 6#5 0x12345000#32)
  ∧ decode 0xFFDFF06F#32 = .ok (.jal 0#5 0xFFFFFFFC#32)
  ∧ decode 0xFFD302E7#32 = .ok (.jalr 5#5 6#5 0xFFFFFFFD#32)
  ∧ decode 0xFE029CE3#32 = .ok (.bne 5#5 0#5 0xFFFFFFF8#32)
  ∧ decode 0x00C32383#32 = .ok (.lw 7#5 6#5 0x0000000C#32)
  ∧ decode 0x00532623#32 = .ok (.sw 6#5 5#5 0x0000000C#32)
  ∧ decode 0xFFF00093#32 = .ok (.addi 1#5 0#5 0xFFFFFFFF#32)
  ∧ decode 0x40395893#32 = .ok (.srai 17#5 18#5 3#5)
  ∧ decode 0x4020D1B3#32 = .ok (.sra 3#5 1#5 2#5)

/-! ## The step (15_datapath.md, 60_exceptions.md) -/

/-- R40: a step runs the decoded instruction. In a hart ready to fetch, where the four bytes at the pc
decode to `i` and executing `i` gives `t`, the step gives `t` after the halt poll: `Halted` when `t` runs
with the halt flag set, else `t` itself. -/
def Obligations.StepRunsDecodedInstruction : Prop :=
  ∀ (s t : State) (i : Instr), ReadyToFetch s → decode (wordAtPc s) = .ok i → exec i s = .next t →
    step s = .next (if t.hartState = .running ∧ t.haltFlag = true then { t with hartState := .halted } else t)

/-- R41, R87: the fetched word is `{M[pc+3], M[pc+2], M[pc+1], M[pc]}`, so `inst[7:0]` is the byte at the
pc, and the fetch changes nothing; a pc that is no multiple of 4 gives no word. -/
def Obligations.FetchReadsLittleEndianWord : Prop :=
  ∀ s : State,
    (ReadyToFetch s → ∃ w, fetch s = .ok (w, s)
      ∧ w.toNat = (s.readByte s.pc.toNat).toNat + 256 * (s.readByte (s.pc.toNat + 1)).toNat
          + 65536 * (s.readByte (s.pc.toNat + 2)).toNat + 16777216 * (s.readByte (s.pc.toNat + 3)).toNat)
    ∧ (s.pc.toNat % 4 ≠ 0 → fetch s = .error .misalignedFetch)

/-- R41, R271, R272, R274, R279: the faults of the fetch and decode stages, in their order, and what each
records. (The kind and place of the first, and the order, are the spec's decisions D3 and D4; that nothing
else changes is D15.) -/
def Obligations.FetchAndDecodeFaults : Prop :=
  ∀ s : State, s.hartState = .running →
    (s.pc.toNat % 4 ≠ 0 → ∃ t, step s = .next t ∧ FaultsWith s t .misalignedFetch)
    ∧ (s.pc.toNat % 4 = 0 → Unmapped s s.pc.toNat .word →
        ∃ t, step s = .next t ∧ FaultsWith s t (.unmappedAccess s.pc .word .fetch))
    ∧ (ReadyToFetch s → (∀ r ∈ opcodeTable, r.selects (wordAtPc s) = false) →
        ∃ t, step s = .next t ∧ FaultsWith s t (.illegalInstruction (wordAtPc s)))

/-- R260 to R264: every word with major opcode `0001111` (FENCE, FENCE.I, PAUSE) or `1110011` (ECALL,
EBREAK, the CSR instructions, MRET, WFI) is an illegal instruction. (The spec's decision D13.) -/
def Obligations.FenceAndSystemWordsFault : Prop :=
  ∀ s : State, ReadyToFetch s → (wordAtPc s &&& 0x7F#32 = 0x0F#32 ∨ wordAtPc s &&& 0x7F#32 = 0x73#32) →
    ∃ t, step s = .next t ∧ FaultsWith s t (.illegalInstruction (wordAtPc s))

/-- R281, R283: a faulting step changes nothing but the hart state and the fault record, whatever the
instruction and the stage. (The spec's decision D15. Where the fetch itself came from a peripheral whose read has
a side effect and a later stage faults, that the effect is undone is the model's reading of R281, log entry 25.) -/
def Obligations.FaultingStepChangesNothing : Prop :=
  ∀ s t : State, s.hartState = .running → step s = .next t → t.hartState = .faulted →
    ∃ info, FaultsWith s t info

/-- R285: terminal states are stable under any number of steps. (That `step()` there is a no-op is the
spec's decision D18.) -/
def Obligations.TerminalStatesAreStable : Prop :=
  ∀ (s : State) (k : Nat), s.hartState ≠ .running → Host.Core.run Sys2Proof.core k s = .next s

/-- R282, R285: no instruction and no state stops the model: executing any instruction, and stepping any
state, answers a next state. (That the spec's faults are states and not stops of the host's interface is
the model's choice, log entry 3.) -/
def Obligations.EveryStepAnswersNext : Prop :=
  (∀ (i : Instr) (s : State), ∃ t, exec i s = .next t) ∧ ∀ s : State, NeverStops s

/-- R56: the halt poll. After a successful execute the flag decides between `Halted` and `Running` and
everything the instruction did is committed, the pc of the store that set the flag included; the flag is
not examined before the fetch, and a step that faults does not examine it at all. -/
def Obligations.HaltPollEndsTheStep : Prop :=
  ∀ s t : State, s.hartState = .running → step s = .next t →
    (t.hartState ≠ .faulted →
      (t.hartState = .halted ↔ t.haltFlag = true)
      ∧ ∃ raw f i u, fetch s = .ok (raw, f) ∧ decode raw = .ok i ∧ exec i f = .next u
          ∧ u.hartState = .running ∧ u.haltFlag = t.haltFlag ∧ u = { t with hartState := .running })
    ∧ (s.haltFlag = false → t.haltFlag = true → t.hartState = .halted ∧ t.pc = s.pc + 4#32)
    ∧ (t.hartState = .faulted → t.haltFlag = s.haltFlag)

/-- R57: `run()` and repeated stepping agree, since a terminal state is stable. -/
def Obligations.RunIsRepeatedStep : Prop :=
  ∀ (k : Nat) (s : State), run k s = Host.Core.run Sys2Proof.core k s

/-! ## Invariants every step keeps -/

/-- R31, R32, R21: the canonical form of memory, storage and local state, and the zero slot of `x0`. -/
def Obligations.StepKeepsCanonicalForm : Prop :=
  ∀ s t : State, s.Canonical → step s = .next t → t.Canonical

/-- R25, R26, R27: the halt flag, the fault record and the hart state stay in agreement. -/
def Obligations.StepKeepsSequencerAgreement : Prop :=
  ∀ s t : State, s.SequencerAgrees → step s = .next t → t.SequencerAgrees

/-- R70, R31, R32: no step makes a byte outside the memory regions, or storage outside the registers of
the peripherals. -/
def Obligations.StepKeepsContentsContained : Prop :=
  ∀ s t : State, s.Contained → step s = .next t → t.Contained

/-- R33, R307: the configuration is an input of reset and no step changes it. -/
def Obligations.ConfigurationIsFixed : Prop :=
  (∀ c : Config, (State.resetWith c).cfg = c) ∧ ∀ s t : State, step s = .next t → t.cfg = s.cfg

/-- The invariants hold right after reset, in the reference system. -/
def Obligations.ResetMeetsTheInvariants : Prop :=
  State.reset.Canonical ∧ State.reset.SequencerAgrees ∧ State.reset.Contained
    ∧ Config.Valid State.reset.cfg

/-- R6, R71, R72, R275, R306: every system that is built has disjoint ports of legal size, legal register
maps, and starts with all the invariants. (D7, D9, D22 of the spec.) -/
def Obligations.BuiltSystemsMeetTheInvariants : Prop :=
  ∀ (c : Config) (s : State), powerOn c = .next s →
    Config.Valid s.cfg ∧ s.Canonical ∧ s.SequencerAgrees ∧ s.Contained
    ∧ s = State.resetWith s.cfg ∧ (∀ p, p ∈ s.cfg.ports ↔ p ∈ c.ports)
    ∧ s.cfg.resetVector = c.resetVector ∧ s.cfg.initImage = c.initImage

/-- R72, R275: what `attach` refuses. (`base + size > 2^32` is the spec's decision D7; that the size is
checked before the overlap is the model's choice, log entry 8.) -/
def Obligations.AttachRefusesBadPorts : Prop :=
  ∀ (ports : List Port) (p : Port),
    (p.size = 0 ∨ 2 ^ 32 < p.base + p.size → attach ports p = .error .badPortSize)
    ∧ (0 < p.size → p.base + p.size ≤ 2 ^ 32 →
        ((∃ q ∈ ports, ∃ a, p.base ≤ a ∧ a < p.base + p.size ∧ q.base ≤ a ∧ a < q.base + q.size) →
          attach ports p = .error .busOverlap)
        ∧ ((∀ q ∈ ports, 0 < q.size ∧
              ¬ ∃ a, p.base ≤ a ∧ a < p.base + p.size ∧ q.base ≤ a ∧ a < q.base + q.size) →
          ∃ ports', attach ports p = .ok ports' ∧ ∀ q, q ∈ ports' ↔ q = p ∨ q ∈ ports))

/-! ## Reset (70_reset_and_hazards.md) -/

/-- R301: every register reads 0 after reset, whatever the configuration. -/
def Obligations.ResetRegistersAreZero : Prop :=
  ∀ (c : Config) (r : RegIdx), (State.resetWith c).readReg r = 0#32

/-- R302, R303, R305: the pc, the sequencer and the peripherals after reset. (Halt flag, fault record and
peripheral storage are the spec's decision D10.) -/
def Obligations.ResetSequencerAndDevices : Prop :=
  ∀ (c : Config) (a : Nat), (State.resetWith c).pc = c.resetVector
    ∧ (State.resetWith c).hartState = .running ∧ (State.resetWith c).haltFlag = false
    ∧ (State.resetWith c).faultRecord = none ∧ (State.resetWith c).readStorage a = 0#32
    ∧ (State.resetWith c).control = 0#32

/-- R304, R306: memory after reset is the initial image over zeros; of two image entries for one address
the later one stands (log entry 11: the spec's image is a map and has one). -/
def Obligations.ResetMemoryIsTheImageOverZeros : Prop :=
  ∀ (c : Config) (a : Nat),
    ((∀ e ∈ c.initImage, e.1 ≠ a) → (State.resetWith c).readByte a = 0#8)
    ∧ ∀ (before after : List Host.Cell) (b : Byte), c.initImage = before ++ (a, b) :: after →
        (∀ e ∈ after, e.1 ≠ a) → (State.resetWith c).readByte a = b

/-- R300: applying reset again, after any number of steps, re-establishes the same state. (D18.) -/
def Obligations.ResetAgainGivesTheResetState : Prop :=
  ∀ (c : Config) (k : Nat) (s : State), Host.Core.run Sys2Proof.core k (State.resetWith c) = .next s →
    s.applyReset = State.resetWith c

/-! ## The bus, memory regions and peripherals (20_memory.md, 21_peripherals.md) -/

/-- R71, R73: in a valid system no two ports contain one access, and the lookup answers exactly the port
that contains the whole access: none where no single port does. -/
def Obligations.PortLookupIsUnique : Prop :=
  ∀ (c : Config) (a : Nat) (n : Width), Config.Valid c →
    (∀ p q, p ∈ c.ports → q ∈ c.ports → p.base ≤ a → a + n.bytes ≤ p.base + p.size →
      q.base ≤ a → a + n.bytes ≤ q.base + q.size → p = q)
    ∧ (∀ p, Config.lookup c a n = some p ↔ p ∈ c.ports ∧ p.base ≤ a ∧ a + n.bytes ≤ p.base + p.size)
    ∧ (Config.lookup c a n = none ↔ ∀ p ∈ c.ports, a < p.base ∨ p.base + p.size < a + n.bytes)

/-- R74, R75, R112, R131: the order of the bus's checks, for reads and writes alike: alignment, port
lookup, the peripheral's exact match of offset and width. (D4, D5, D6, D9 of the spec.) -/
def Obligations.BusChecksInOrder : Prop :=
  ∀ (access : Access) (a : Word) (n : Width) (v : Word) (s : State),
    (a.toNat % n.bytes ≠ 0 →
      memRead access a n s = .error (.misalignedAccess a n access)
      ∧ memWrite a n v s = .error (.misalignedAccess a n .store))
    ∧ (a.toNat % n.bytes = 0 → Unmapped s a.toNat n →
      memRead access a n s = .error (.unmappedAccess a n access)
      ∧ memWrite a n v s = .error (.unmappedAccess a n .store))
    ∧ (∀ p ∈ s.cfg.ports, ∀ regs, Config.Valid s.cfg → a.toNat % n.bytes = 0 → p.target = .peripheral regs →
        p.base ≤ a.toNat → a.toNat + n.bytes ≤ p.base + p.size →
        (∀ r ∈ regs, ¬ (p.base + r.offset = a.toNat ∧ r.width = n)) →
        memRead access a n s = .error (.unmappedAccess a n access)
        ∧ memWrite a n v s = .error (.unmappedAccess a n .store))

/-- R82: a memory-region read is the sum of its bytes, byte `offset` the least significant, and changes
nothing. -/
def Obligations.RegionReadIsTheSumOfItsBytes : Prop :=
  ∀ (access : Access) (a : Word) (n : Width) (s : State), Config.Valid s.cfg → InRegion s a.toNat n →
    a.toNat % n.bytes = 0 →
    ∃ v, memRead access a n s = .ok (v, s)
      ∧ v.toNat = ((List.range n.bytes).map (fun i => (s.readByte (a.toNat + i)).toNat * 2 ^ (8 * i))).sum

/-- R83: a memory-region write puts `v[8i+7:8i]` in byte `offset+i`; exactly `n` bytes change, and nothing
else does. -/
def Obligations.RegionWriteChangesExactlyItsBytes : Prop :=
  ∀ (a : Word) (n : Width) (v : Word) (s : State), Config.Valid s.cfg → Memory.wf s.mem →
    InRegion s a.toNat n → a.toNat % n.bytes = 0 →
    ∃ t, memWrite a n v s = .ok t
      ∧ (∀ i < n.bytes, (t.readByte (a.toNat + i)).toNat = v.toNat / 2 ^ (8 * i) % 256)
      ∧ (∀ b, b < a.toNat ∨ a.toNat + n.bytes ≤ b → t.readByte b = s.readByte b)
      ∧ t = { s with mem := t.mem } ∧ Memory.wf t.mem

/-- R78, R79: `read(write(addr, w, v)) == v & mask(w)` on an aligned address in a memory region. -/
def Obligations.ReadReturnsTheLastWrite : Prop :=
  ∀ (access : Access) (a : Word) (n : Width) (v : Word) (s t : State), Config.Valid s.cfg →
    Memory.wf s.mem → InRegion s a.toNat n → memWrite a n v s = .ok t →
    ∃ u, memRead access a n t = .ok (u, t) ∧ u.toNat = v.toNat % 2 ^ (8 * n.bytes)

/-- R113, R89, R121: a read of a peripheral register returns its storage through its read handler, cut to the
register's width. A handler without side effect (the default) changes nothing; one with a side effect updates the
state local to its peripheral, and nothing else: no storage (R32), no flag (R26), no trigger. (The exact match of
offset and width is the spec's decision D9, handlers with side effects are D30; that their effect is on the local
state and that they may read it is the model's choice, log entry 23.) -/
def Obligations.PeripheralReadGoesThroughItsHandler : Prop :=
  ∀ (access : Access) (a : Word) (s : State) (p : Port) (regs : List PeriphReg) (r : PeriphReg),
    Config.Valid s.cfg → p ∈ s.cfg.ports → p.target = .peripheral regs → r ∈ regs →
    a.toNat = p.base + r.offset → a.toNat % r.width.bytes = 0 →
    let stored := s.readStorage a.toNat
    let before := s.readLocal p.base
    ∃ v t, memRead access a r.width s = .ok (v, t)
      ∧ v.toNat = (WordFn.eval stored 0#32 before r.readHandler).toNat % 2 ^ (8 * r.width.bytes)
      ∧ (r.readEffect = none → t = s)
      ∧ (∀ f, s.Canonical → r.readEffect = some f → t.readLocal p.base = WordFn.eval stored 0#32 before f)
      ∧ (∀ b, b ≠ p.base → t.readLocal b = s.readLocal b) ∧ t = { s with locals := t.locals }

/-- R114, R117, R118: write, then triggers. The storage becomes what the write handler makes of the
written value and the old storage; then every trigger of the register is evaluated on that one pair
`(new, old)`, so the halt flag is set exactly if it was set or some trigger with that callback fires; the
local state is the callbacks' in registration order; nothing else changes. (D9, D11, D28 of the spec.) -/
def Obligations.PeripheralWriteThenTriggers : Prop :=
  ∀ (a v : Word) (s : State) (p : Port) (regs : List PeriphReg) (r : PeriphReg),
    Config.Valid s.cfg → s.Canonical → p ∈ s.cfg.ports → p.target = .peripheral regs → r ∈ regs →
    a.toNat = p.base + r.offset → a.toNat % r.width.bytes = 0 →
    let old := s.readStorage a.toNat
    let new := r.width.trunc (WordFn.eval (r.width.trunc v) old 0#32 r.writeHandler)
    let fires := fun t : Trigger => WordFn.eval new old 0#32 t.predicate ≠ 0#32
    ∃ t, memWrite a r.width v s = .ok t
      ∧ t.readStorage a.toNat = new ∧ (∀ b, b ≠ a.toNat → t.readStorage b = s.readStorage b)
      ∧ (t.haltFlag = true ↔ s.haltFlag = true ∨ ∃ g ∈ r.triggers, g.callback = .setHaltFlag ∧ fires g)
      ∧ t.readLocal p.base = r.triggers.foldl (fun l g =>
          match g.callback with
          | .setHaltFlag => l
          | .setLocal f => if WordFn.eval new old 0#32 g.predicate = 0#32 then l else WordFn.eval new old l f)
          (s.readLocal p.base)
      ∧ (∀ b, b ≠ p.base → t.readLocal b = s.readLocal b)
      ∧ t.regs = s.regs ∧ t.pc = s.pc ∧ t.mem = s.mem ∧ t.hartState = s.hartState
      ∧ t.faultRecord = s.faultRecord ∧ t.cfg = s.cfg

/-! ## SimControl (21_peripherals.md section 2) -/

/-- R124: every 32-bit write to `CONTROL` whose bit 0 is 1 sets the halt flag, whatever was there and
whatever bits 31:1 are; one whose bit 0 is 0 stores the value and does nothing else. -/
def Obligations.ControlWriteSetsTheHaltFlag : Prop :=
  ∀ (s : State) (p : Port) (rs1 rs2 : RegIdx) (imm : Word), Config.Valid s.cfg → s.Canonical →
    p ∈ s.cfg.ports → p.target = .peripheral simControl → (s.readReg rs1 + imm).toNat = p.base →
    p.base % 4 = 0 →
    ∃ t, exec (.sw rs1 rs2 imm) s = .next t ∧ SameRegs s t ∧ t.pc = s.pc + 4#32 ∧ SameMemory s t
      ∧ SameSequencer s t ∧ t.readStorage p.base = s.readReg rs2
      ∧ (∀ a, a ≠ p.base → t.readStorage a = s.readStorage a) ∧ (∀ b, t.readLocal b = s.readLocal b)
      ∧ ((s.readReg rs2).getLsbD 0 = true → t.haltFlag = true)
      ∧ ((s.readReg rs2).getLsbD 0 = false → t.haltFlag = s.haltFlag)

/-- R129, R56, R313: the store of a value with bit 0 set to `CONTROL` retires (pc past it) and the hart is
`Halted` at the end of that same step; from then on nothing changes. -/
def Obligations.ControlStoreHaltsInItsOwnStep : Prop :=
  ∀ (s : State) (p : Port) (rs1 rs2 : RegIdx) (imm : Word), ReadyToFetch s → s.Canonical →
    p ∈ s.cfg.ports → p.target = .peripheral simControl → (s.readReg rs1 + imm).toNat = p.base →
    p.base % 4 = 0 → decode (wordAtPc s) = .ok (.sw rs1 rs2 imm) → (s.readReg rs2).getLsbD 0 = true →
    ∃ t, step s = .next t ∧ t.hartState = .halted ∧ t.pc = s.pc + 4#32 ∧ SameRegs s t ∧ SameMemory s t
      ∧ t.readStorage p.base = s.readReg rs2 ∧ ∀ k, Host.Core.run Sys2Proof.core k t = .next t

/-- R26, R124: in a default system nothing but a 32-bit store to `CONTROL` of a value with bit 0 set sets
the halt flag. -/
def Obligations.OnlyControlStoreSetsTheHaltFlag : Prop :=
  ∀ (q : Params) (s t : State), s.cfg = defaultConfig q → Config.Valid s.cfg → step s = .next t →
    s.haltFlag = false → t.haltFlag = true →
    ∃ raw rs1 rs2 imm, fetch s = .ok (raw, s) ∧ decode raw = .ok (.sw rs1 rs2 imm)
      ∧ (s.readReg rs1 + imm).toNat = q.simctrlBase ∧ (s.readReg rs2).getLsbD 0 = true

/-- R125: the halt flag is sticky: no step clears it, not even one that stores a value with bit 0 = 0 to
`CONTROL`; and no step that finds or makes it set leaves the hart running. -/
def Obligations.HaltFlagIsSticky : Prop :=
  ∀ s t : State, step s = .next t →
    (s.haltFlag = true → t.haltFlag = true)
    ∧ (s.hartState = .running → t.haltFlag = true → t.hartState ≠ .running)
    ∧ (s.haltFlag = false → t.haltFlag = true → t.hartState = .halted)

/-- R126: a 32-bit read of `CONTROL` returns the last value written: a store to it, then a load from it. -/
def Obligations.ControlReadsBackTheLastWrite : Prop :=
  ∀ (s : State) (p : Port) (rd rs1 rs2 : RegIdx) (imm : Word), Config.Valid s.cfg → s.Canonical →
    p ∈ s.cfg.ports → p.target = .peripheral simControl → (s.readReg rs1 + imm).toNat = p.base →
    p.base % 4 = 0 →
    ∃ t u, exec (.sw rs1 rs2 imm) s = .next t ∧ exec (.lw rd rs1 imm) t = .next u
      ∧ WritesOnly t u rd (s.readReg rs2) (s.pc + 8#32)

/-- R127: byte and halfword accesses in the SimControl window fault and change nothing: UnmappedAccess when
aligned, MisalignedAccess when not. (The exact match is the spec's decision D9.) -/
def Obligations.NarrowControlAccessesFault : Prop :=
  ∀ (s : State) (p : Port) (i : Instr) (n : Width) (base reg : RegIdx) (imm : Word),
    Config.Valid s.cfg → p ∈ s.cfg.ports → p.target = .peripheral simControl → p.size = 4 → n ≠ .word →
    let ea := s.readReg base + imm
    p.base ≤ ea.toNat → ea.toNat + n.bytes ≤ p.base + p.size →
    (loadOf? i = some (n, reg, base, imm) →
      ∃ t, exec i s = .next t ∧
        FaultsWith s t (if ea.toNat % n.bytes = 0 then .unmappedAccess ea n .load else .misalignedAccess ea n .load))
    ∧ (storeOf? i = some (n, base, reg, imm) →
      ∃ t, exec i s = .next t ∧
        FaultsWith s t (if ea.toNat % n.bytes = 0 then .unmappedAccess ea n .store else .misalignedAccess ea n .store))

/-! ## Upper immediates, jumps and branches -/

/-- R170, R171: LUI and AUIPC: what each writes, where the pc goes, that nothing else changes, and the words
that encode them. -/
def Obligations.UpperImmediateInstructions : Prop :=
  (∀ w : Word, w &&& 0x7F#32 = 0x37#32 → decode w = .ok (.lui (w.extractLsb' 7 5) (w &&& 0xFFFFF000#32)))
  ∧ (∀ w : Word, w &&& 0x7F#32 = 0x17#32 → decode w = .ok (.auipc (w.extractLsb' 7 5) (w &&& 0xFFFFF000#32)))
  ∧ ∀ (s : State) (rd : RegIdx) (imm : Word),
    (∃ t, exec (.lui rd imm) s = .next t ∧ WritesOnly s t rd imm (s.pc + 4#32))
    ∧ ∃ t, exec (.auipc rd imm) s = .next t
        ∧ WritesOnly s t rd (BitVec.ofNat 32 (s.pc.toNat + imm.toNat)) (s.pc + 4#32)

/-- R180: JAL links `pc + 4` and goes to `pc + imm`, whatever the target's low bits are. -/
def Obligations.JalLinksAndJumps : Prop :=
  ∀ (s : State) (rd : RegIdx) (imm : Word),
    ∃ t, exec (.jal rd imm) s = .next t
      ∧ WritesOnly s t rd (BitVec.ofNat 32 (s.pc.toNat + 4)) (BitVec.ofNat 32 (s.pc.toNat + imm.toNat))

/-- R181, R48: JALR goes to the sum with bit 0 (and nothing else) cleared, computed from the old `x[rs1]`
even where `rd = rs1`, and links `pc + 4`. -/
def Obligations.JalrLinksAndJumps : Prop :=
  ∀ (s : State) (rd rs1 : RegIdx) (imm : Word),
    ∃ t npc, exec (.jalr rd rs1 imm) s = .next t
      ∧ WritesOnly s t rd (BitVec.ofNat 32 (s.pc.toNat + 4)) npc
      ∧ npc.toNat = ((s.readReg rs1).toNat + imm.toNat) % 2 ^ 32 / 2 * 2

/-- R46, R191 to R196: each branch goes to `pc + imm` when its comparison holds and to `pc + 4` when not;
no register, byte or device changes either way. -/
def Obligations.BranchesCompareAndGo : Prop :=
  ∀ (i : Instr) (c : Cond) (rs1 rs2 : RegIdx) (imm : Word) (s : State),
    branchOf? i = some (c, rs1, rs2, imm) →
    (cmpReading c (s.readReg rs1) (s.readReg rs2) →
      ∃ t, exec i s = .next t ∧ MovesPcOnly s t (BitVec.ofNat 32 (s.pc.toNat + imm.toNat)))
    ∧ (¬ cmpReading c (s.readReg rs1) (s.readReg rs2) →
      ∃ t, exec i s = .next t ∧ MovesPcOnly s t (BitVec.ofNat 32 (s.pc.toNat + 4)))

/-- R51, R274: no transfer is checked when it executes. A step that leaves the hart running with a pc that
is no multiple of 4 was a jump or a taken branch that retired whole, and the next step raises
MisalignedFetch there, with everything the jump did in place. -/
def Obligations.MisalignedTargetFaultsOneStepLater : Prop :=
  ∀ s t : State, s.hartState = .running → s.pc.toNat % 4 = 0 → step s = .next t → t.hartState = .running →
    t.pc.toNat % 4 ≠ 0 →
    (∃ raw f i, fetch s = .ok (raw, f) ∧ decode raw = .ok i ∧ isTransfer i = true ∧ exec i f = .next t)
    ∧ ∃ u, step t = .next u ∧ FaultsWith t u .misalignedFetch

/-- R49, R50: the next pc, the whole table, for every instruction that does not fault; where it faults the
pc takes no new value. -/
def Obligations.NextPcSelection : Prop :=
  ∀ (i : Instr) (s t : State), s.hartState ≠ .faulted → exec i s = .next t →
    (t.hartState = .faulted → t.pc = s.pc)
    ∧ (t.hartState ≠ .faulted →
      (∀ rd imm, i = .jal rd imm → t.pc = s.pc + imm)
      ∧ (∀ rd rs1 imm, i = .jalr rd rs1 imm → t.pc = (s.readReg rs1 + imm) &&& 0xFFFFFFFE#32)
      ∧ (∀ c rs1 rs2 imm, branchOf? i = some (c, rs1, rs2, imm) →
          (cmpReading c (s.readReg rs1) (s.readReg rs2) → t.pc = s.pc + imm)
          ∧ (¬ cmpReading c (s.readReg rs1) (s.readReg rs2) → t.pc = s.pc + 4#32))
      ∧ (isTransfer i = false → t.pc = s.pc + 4#32))

/-! ## Loads and stores -/

/-- R200 to R205: a load from a memory region, aligned, puts its extended bytes in `rd` and changes nothing
else: LB and LH sign-extend, LBU and LHU zero-extend, LW copies, least significant byte first. -/
def Obligations.LoadsFromMemoryRegions : Prop :=
  ∀ (s : State) (rd rs1 : RegIdx) (imm : Word), Config.Valid s.cfg →
    let ea := (s.readReg rs1 + imm).toNat
    let b := fun i => s.readByte (ea + i)
    (InRegion s ea .byte →
      (∃ t, exec (.lb rd rs1 imm) s = .next t
        ∧ WritesOnly s t rd (BitVec.ofInt 32 (b 0).toInt) (s.pc + 4#32))
      ∧ ∃ t, exec (.lbu rd rs1 imm) s = .next t
        ∧ WritesOnly s t rd (BitVec.ofNat 32 (b 0).toNat) (s.pc + 4#32))
    ∧ (InRegion s ea .half → ea % 2 = 0 →
      (∃ t, exec (.lh rd rs1 imm) s = .next t
        ∧ WritesOnly s t rd (BitVec.ofInt 32 ((b 0).toNat + 256 * (b 1).toInt)) (s.pc + 4#32))
      ∧ ∃ t, exec (.lhu rd rs1 imm) s = .next t
        ∧ WritesOnly s t rd (BitVec.ofNat 32 ((b 0).toNat + 256 * (b 1).toNat)) (s.pc + 4#32))
    ∧ (InRegion s ea .word → ea % 4 = 0 →
      ∃ t, exec (.lw rd rs1 imm) s = .next t
        ∧ WritesOnly s t rd (BitVec.ofNat 32 ((b 0).toNat + 256 * (b 1).toNat + 65536 * (b 2).toNat
            + 16777216 * (b 3).toNat)) (s.pc + 4#32))

/-- R210 to R213, R83: a store to a memory region, aligned, writes the low `n` bytes of `x[rs2]` at
`ea = x[rs1] + imm`, least significant first; every byte outside `[ea, ea+n)` reads as before, no register
changes, and the pc advances. -/
def Obligations.StoresToMemoryRegions : Prop :=
  ∀ (i : Instr) (n : Width) (rs1 rs2 : RegIdx) (imm : Word) (s : State),
    storeOf? i = some (n, rs1, rs2, imm) → Config.Valid s.cfg → s.Canonical →
    let ea := (effectiveAddress s rs1 imm).toNat
    InRegion s ea n → ea % n.bytes = 0 →
    ∃ t, exec i s = .next t
      ∧ (∀ k < n.bytes, (t.readByte (ea + k)).toNat = (s.readReg rs2).toNat / 2 ^ (8 * k) % 256)
      ∧ (∀ a, a < ea ∨ ea + n.bytes ≤ a → t.readByte a = s.readByte a)
      ∧ SameRegs s t ∧ t.pc = s.pc + 4#32 ∧ SameDevices s t ∧ SameSequencer s t

/-- R200, R210, R273, R272: where a load or store faults in its execute stage, in which order, and that
nothing but the sequencer changes. (The order is the spec's decision D4; that nothing changes, D15.) -/
def Obligations.LoadAndStoreFaults : Prop :=
  ∀ (s : State) (i : Instr) (n : Width) (base reg : RegIdx) (imm : Word),
    let ea := s.readReg base + imm
    (loadOf? i = some (n, reg, base, imm) →
      (ea.toNat % n.bytes ≠ 0 → ∃ t, exec i s = .next t ∧ FaultsWith s t (.misalignedAccess ea n .load))
      ∧ (ea.toNat % n.bytes = 0 → Unmapped s ea.toNat n →
          ∃ t, exec i s = .next t ∧ FaultsWith s t (.unmappedAccess ea n .load)))
    ∧ (storeOf? i = some (n, base, reg, imm) →
      (ea.toNat % n.bytes ≠ 0 → ∃ t, exec i s = .next t ∧ FaultsWith s t (.misalignedAccess ea n .store))
      ∧ (ea.toNat % n.bytes = 0 → Unmapped s ea.toNat n →
          ∃ t, exec i s = .next t ∧ FaultsWith s t (.unmappedAccess ea n .store)))

/-- R52, R53: the effective address is `x[rs1] + imm`; the mnemonic fixes the width and the extension,
whatever target answers the access. What a load does beyond writing `rd` and the pc is what its bus read left.
That a bus read leaves everything as it was but the local state of peripherals is no rule of the spec: D30 allows
a read handler side effects without saying on what, and the local state is the model's choice (log entry 23). -/
def Obligations.WidthAndExtensionByMnemonic : Prop :=
  ∀ (s m t : State) (rd rs1 rs2 : RegIdx) (imm v : Word),
    let ea := BitVec.ofNat 32 ((s.readReg rs1).toNat + imm.toNat)
    (∀ n, memRead .load ea n s = .ok (v, m) → m = { s with locals := m.locals })
    ∧ (memRead .load ea .byte s = .ok (v, m) →
      (∃ u, exec (.lb rd rs1 imm) s = .next u
        ∧ WritesOnly m u rd (BitVec.ofInt 32 (v.extractLsb' 0 8).toInt) (s.pc + 4#32))
      ∧ ∃ u, exec (.lbu rd rs1 imm) s = .next u
        ∧ WritesOnly m u rd (BitVec.ofNat 32 (v.toNat % 256)) (s.pc + 4#32))
    ∧ (memRead .load ea .half s = .ok (v, m) →
      (∃ u, exec (.lh rd rs1 imm) s = .next u
        ∧ WritesOnly m u rd (BitVec.ofInt 32 (v.extractLsb' 0 16).toInt) (s.pc + 4#32))
      ∧ ∃ u, exec (.lhu rd rs1 imm) s = .next u
        ∧ WritesOnly m u rd (BitVec.ofNat 32 (v.toNat % 65536)) (s.pc + 4#32))
    ∧ (memRead .load ea .word s = .ok (v, m) →
      ∃ u, exec (.lw rd rs1 imm) s = .next u ∧ WritesOnly m u rd v (s.pc + 4#32))
    ∧ (memWrite ea .byte (s.readReg rs2 &&& 0xFF#32) s = .ok t →
      ∃ u, exec (.sb rs1 rs2 imm) s = .next u ∧ u = { t with pc := s.pc + 4#32 })
    ∧ (memWrite ea .half (s.readReg rs2 &&& 0xFFFF#32) s = .ok t →
      ∃ u, exec (.sh rs1 rs2 imm) s = .next u ∧ u = { t with pc := s.pc + 4#32 })
    ∧ (memWrite ea .word (s.readReg rs2) s = .ok t →
      ∃ u, exec (.sw rs1 rs2 imm) s = .next u ∧ u = { t with pc := s.pc + 4#32 })

/-- R83, R210: memory's frame, over all instructions and every target: a byte outside the bytes a store
addresses (all of memory, for an instruction that is no store) reads as before. -/
def Obligations.OnlyTheStoredBytesChange : Prop :=
  ∀ (i : Instr) (s t : State) (a : Nat), exec i s = .next t →
    (∀ n rs1 rs2 imm, storeOf? i = some (n, rs1, rs2, imm) →
      a < (effectiveAddress s rs1 imm).toNat ∨ (effectiveAddress s rs1 imm).toNat + n.bytes ≤ a) →
    t.readByte a = s.readByte a

/-- R96, R312: self-modifying code needs no fence. A word store to the next instruction's address is what
the very next step fetches and runs. (That instruction memory is writable is the spec's decision D17.) -/
def Obligations.StoredInstructionRunsNext : Prop :=
  ∀ (s : State) (rs1 rs2 : RegIdx) (imm : Word) (i : Instr), ReadyToFetch s → s.Canonical →
    s.haltFlag = false → decode (wordAtPc s) = .ok (.sw rs1 rs2 imm) →
    s.readReg rs1 + imm = s.pc + 4#32 → InRegion s (s.pc + 4#32).toNat .word →
    decode (s.readReg rs2) = .ok i →
    ∃ t, step s = .next t ∧ t.hartState = .running ∧ t.pc = s.pc + 4#32 ∧ SameRegs s t
      ∧ ∀ u, exec i t = .next u → step t = .next u.pollHalt

/-! ## ALU instructions and registers -/

/-- R43: the three shifts: multiplication, division of the unsigned reading, floor division of the signed
reading by a power of two; only the low 5 bits of the amount count. -/
def Obligations.ShiftsAreExact : Prop :=
  ∀ a b : Word,
    (alu .sll a b).toNat = a.toNat * 2 ^ (b.toNat % 32) % 2 ^ 32
    ∧ (alu .srl a b).toNat = a.toNat / 2 ^ (b.toNat % 32)
    ∧ (alu .sra a b).toInt = Int.fdiv a.toInt (2 ^ (b.toNat % 32))
    ∧ (b.toNat % 32 = 0 → alu .sll a b = a ∧ alu .srl a b = a ∧ alu .sra a b = a)

/-- R240 to R250, R44: the ten register-register instructions write their table entry to `rd`, computed
from the values before the step, advance the pc and change nothing else. -/
def Obligations.RegisterAluInstructions : Prop :=
  ∀ (s : State) (rd rs1 rs2 : RegIdx),
    let a := s.readReg rs1
    let b := s.readReg rs2
    (∃ t, exec (.add rd rs1 rs2) s = .next t ∧ WritesOnly s t rd (aluReading .add a b) (s.pc + 4#32))
    ∧ (∃ t, exec (.sub rd rs1 rs2) s = .next t ∧ WritesOnly s t rd (aluReading .sub a b) (s.pc + 4#32))
    ∧ (∃ t, exec (.sll rd rs1 rs2) s = .next t ∧ WritesOnly s t rd (aluReading .sll a b) (s.pc + 4#32))
    ∧ (∃ t, exec (.slt rd rs1 rs2) s = .next t ∧ WritesOnly s t rd (aluReading .slt a b) (s.pc + 4#32))
    ∧ (∃ t, exec (.sltu rd rs1 rs2) s = .next t ∧ WritesOnly s t rd (aluReading .sltu a b) (s.pc + 4#32))
    ∧ (∃ t, exec (.xor rd rs1 rs2) s = .next t ∧ WritesOnly s t rd (aluReading .xor a b) (s.pc + 4#32))
    ∧ (∃ t, exec (.srl rd rs1 rs2) s = .next t ∧ WritesOnly s t rd (aluReading .srl a b) (s.pc + 4#32))
    ∧ (∃ t, exec (.sra rd rs1 rs2) s = .next t ∧ WritesOnly s t rd (aluReading .sra a b) (s.pc + 4#32))
    ∧ (∃ t, exec (.or rd rs1 rs2) s = .next t ∧ WritesOnly s t rd (aluReading .or a b) (s.pc + 4#32))
    ∧ ∃ t, exec (.and rd rs1 rs2) s = .next t ∧ WritesOnly s t rd (aluReading .and a b) (s.pc + 4#32)

/-- R220 to R226, R60: the six register-immediate instructions, with the immediate as decoded. -/
def Obligations.ImmediateAluInstructions : Prop :=
  ∀ (s : State) (rd rs1 : RegIdx) (imm : Word),
    let a := s.readReg rs1
    (∃ t, exec (.addi rd rs1 imm) s = .next t ∧ WritesOnly s t rd (aluReading .add a imm) (s.pc + 4#32))
    ∧ (∃ t, exec (.slti rd rs1 imm) s = .next t ∧ WritesOnly s t rd (aluReading .slt a imm) (s.pc + 4#32))
    ∧ (∃ t, exec (.sltiu rd rs1 imm) s = .next t ∧ WritesOnly s t rd (aluReading .sltu a imm) (s.pc + 4#32))
    ∧ (∃ t, exec (.xori rd rs1 imm) s = .next t ∧ WritesOnly s t rd (aluReading .xor a imm) (s.pc + 4#32))
    ∧ (∃ t, exec (.ori rd rs1 imm) s = .next t ∧ WritesOnly s t rd (aluReading .or a imm) (s.pc + 4#32))
    ∧ ∃ t, exec (.andi rd rs1 imm) s = .next t ∧ WritesOnly s t rd (aluReading .and a imm) (s.pc + 4#32)

/-- R227 to R229, R43: the three immediate shifts, by `shamt` places. -/
def Obligations.ImmediateShiftInstructions : Prop :=
  ∀ (s : State) (rd rs1 : RegIdx) (shamt : BitVec 5),
    let a := s.readReg rs1
    (∃ t, exec (.slli rd rs1 shamt) s = .next t
      ∧ WritesOnly s t rd (BitVec.ofNat 32 (a.toNat * 2 ^ shamt.toNat)) (s.pc + 4#32))
    ∧ (∃ t, exec (.srli rd rs1 shamt) s = .next t
      ∧ WritesOnly s t rd (BitVec.ofNat 32 (a.toNat / 2 ^ shamt.toNat)) (s.pc + 4#32))
    ∧ ∃ t, exec (.srai rd rs1 shamt) s = .next t
      ∧ WritesOnly s t rd (BitVec.ofInt 32 (a.toInt / (2 ^ shamt.toNat : Int))) (s.pc + 4#32)

/-- R21: `x0` always reads zero and silently discards writes: an instruction whose `rd` is 0 has every
effect it has with another `rd` (its bus access, its pc update, its faults) but the register write. -/
def Obligations.RegisterZeroReadsZeroAndDiscardsWrites : Prop :=
  (∀ s : State, s.readReg 0#5 = 0#32)
  ∧ (∀ (s : State) (v : Word), s.writeReg 0#5 v = s)
  ∧ ∀ (i : Instr) (s t : State) (rd : RegIdx), i.dest? = some rd → exec i s = .next t →
      exec (i.withDest 0#5) s = .next { t with regs := s.regs }

/-- R22: no register is touched implicitly. An instruction writes no register but the one its `rd` field
names, and reads none but those its source fields name: two states that differ only in registers the
instruction does not name as sources are left by it in states that differ only in registers, and agree on
`rd` too unless the instruction faulted. -/
def Obligations.OnlyTheNamedRegistersAreTouched : Prop :=
  (∀ (i : Instr) (s t : State) (r : RegIdx), exec i s = .next t → i.dest? ≠ some r →
    t.readReg r = s.readReg r)
  ∧ ∀ (i : Instr) (s1 s2 t1 t2 : State), s2 = { s1 with regs := s2.regs } →
    (∀ r, i.src1? = some r ∨ i.src2? = some r → s1.readReg r = s2.readReg r) →
    exec i s1 = .next t1 → exec i s2 = .next t2 →
    t2 = { t1 with regs := t2.regs }
    ∧ ∀ rd, i.dest? = some rd → s1.hartState = .running → t1.hartState = .running →
        t1.readReg rd = t2.readReg rd
end

