-- ==== Sys2Proof/Laws/Bits.lean ====
section
/-! SUPPORT. The bit-field helpers read as arithmetic. -/

namespace Sys2Proof

/-- Bit `i` of a placed field. -/
theorem place_getLsbD {n : Nat} (v : BitVec n) (lo i : Nat) (hi : i < 32) :
    (place v lo).getLsbD i = (decide (lo ≤ i) && v.getLsbD (i - lo)) := by
  by_cases hl : lo ≤ i
  · simp [place, hi, hl]
  · simp [place, hi, hl]

theorem place_toNat {n lo : Nat} (v : BitVec n) (h : lo + n ≤ 32) : (place v lo).toNat = v.toNat * 2 ^ lo := by
  have hv : v.toNat < 2 ^ n := v.isLt
  have hle : 2 ^ n ≤ 2 ^ 32 := Nat.pow_le_pow_right (by omega) (by omega)
  have hp : v.toNat * 2 ^ lo < 2 ^ 32 := by
    calc v.toNat * 2 ^ lo < 2 ^ n * 2 ^ lo := Nat.mul_lt_mul_of_pos_right hv (by positivity)
      _ = 2 ^ (lo + n) := by rw [Nat.add_comm, Nat.pow_add]
      _ ≤ 2 ^ 32 := Nat.pow_le_pow_right (by omega) h
  simp only [place, BitVec.toNat_shiftLeft, BitVec.toNat_setWidth, Nat.shiftLeft_eq]
  rw [Nat.mod_eq_of_lt (Nat.lt_of_lt_of_le hv hle), Nat.mod_eq_of_lt hp]

/-- A field placed above everything below it: the disjunction is the sum. -/
theorem place_or_toNat {n lo : Nat} (v : BitVec n) (x : Word) (h : lo + n ≤ 32) (hx : x.toNat < 2 ^ lo) :
    (place v lo ||| x).toNat = v.toNat * 2 ^ lo + x.toNat := by
  rw [BitVec.toNat_or, place_toNat v h, Nat.mul_comm, Nat.two_pow_add_eq_or_of_lt hx]

/-- R87: the little-endian word is the sum of its bytes. -/
theorem wordOfBytes_toNat (b0 b1 b2 b3 : Byte) :
    (wordOfBytes b0 b1 b2 b3).toNat
      = b0.toNat + 256 * b1.toNat + 65536 * b2.toNat + 16777216 * b3.toNat := by
  have h0 := b0.isLt; have h1 := b1.isLt; have h2 := b2.isLt; have h3 := b3.isLt
  have e0 : (place b0 0).toNat = b0.toNat := by rw [place_toNat _ (by omega)]; simp
  have e1 : (place b1 8 ||| place b0 0).toNat = b1.toNat * 2 ^ 8 + b0.toNat := by
    rw [place_or_toNat _ _ (by omega) (by omega), e0]
  have e2 : (place b2 16 ||| (place b1 8 ||| place b0 0)).toNat
      = b2.toNat * 2 ^ 16 + (b1.toNat * 2 ^ 8 + b0.toNat) := by
    rw [place_or_toNat _ _ (by omega) (by omega), e1]
  rw [wordOfBytes, BitVec.or_assoc, BitVec.or_assoc, place_or_toNat _ _ (by omega) (by omega), e2]
  omega

theorem halfOfBytes_toNat (b0 b1 : Byte) : (place b1 8 ||| place b0 0).toNat = b0.toNat + 256 * b1.toNat := by
  have h0 := b0.isLt
  have e0 : (place b0 0).toNat = b0.toNat := by rw [place_toNat _ (by omega)]; simp
  rw [place_or_toNat _ _ (by omega) (by omega), e0]; omega

theorem byteOf_toNat (v : Word) (i : Nat) : (byteOf v i).toNat = v.toNat / 2 ^ (8 * i) % 256 := by
  simp [byteOf, BitVec.extractLsb'_toNat, Nat.shiftRight_eq_div_pow]

/-- Storing a word's bytes and assembling them again gives the word. -/
@[simp] theorem wordOfBytes_byteOf (v : Word) :
    wordOfBytes (byteOf v 0) (byteOf v 1) (byteOf v 2) (byteOf v 3) = v := by
  apply BitVec.eq_of_toNat_eq
  have := v.isLt
  simp only [wordOfBytes_toNat, byteOf_toNat]
  omega

theorem Width.trunc_toNat (n : Width) (v : Word) : (n.trunc v).toNat = v.toNat % 2 ^ (8 * n.bytes) := by
  cases n
  · exact (BitVec.toNat_and _ _).trans (Nat.and_two_pow_sub_one_eq_mod v.toNat 8)
  · exact (BitVec.toNat_and _ _).trans (Nat.and_two_pow_sub_one_eq_mod v.toNat 16)
  · exact (BitVec.toNat_and _ _).trans (Nat.and_two_pow_sub_one_eq_mod v.toNat 32)

@[simp] theorem Width.trunc_trunc (n : Width) (v : Word) : n.trunc (n.trunc v) = n.trunc v := by
  simp [Width.trunc, BitVec.and_assoc]

@[simp] theorem Width.trunc_word (v : Word) : Width.word.trunc v = v := by
  apply BitVec.eq_of_toNat_eq
  rw [Width.trunc_toNat]
  exact Nat.mod_eq_of_lt v.isLt

theorem Width.bytes_pos (n : Width) : 0 < n.bytes := by cases n <;> decide

end Sys2Proof
end

