-- ==== Sys2Proof/Laws/Cells.lean ====
section
/-! SUPPORT. The laws of sparse contents: read after write, and that a write keeps the canonical form. -/

namespace Sys2Proof.Machine

variable {n : Nat}

@[simp] theorem Cells.get_nil (a : Nat) : Cells.get ([] : List (Nat × BitVec n)) a = 0#n := rfl

theorem Cells.get_cons (k : Nat) (v : BitVec n) (rest : List (Nat × BitVec n)) (a : Nat) :
    Cells.get ((k, v) :: rest) a = if k = a then v else Cells.get rest a := rfl

/-- An address that no entry names reads zero. -/
theorem Cells.get_of_not_listed {m : List (Nat × BitVec n)} {a : Nat} (h : ∀ c ∈ m, c.1 ≠ a) :
    Cells.get m a = 0#n := by
  induction m with
  | nil => rfl
  | cons c rest ih =>
    obtain ⟨k, v⟩ := c
    rw [Cells.get_cons, if_neg (h (k, v) (by simp))]
    exact ih fun c hc => h c (by simp [hc])

/-- A write leaves every other address alone (in canonical form or not). -/
theorem Cells.get_set_ne (m : List (Nat × BitVec n)) {a b : Nat} (v : BitVec n) (h : b ≠ a) :
    Cells.get (Cells.set m a v) b = Cells.get m b := by
  induction m with
  | nil => unfold Cells.set; split <;> simp [Cells.get_cons, Ne.symm h]
  | cons c rest ih =>
    obtain ⟨k, u⟩ := c
    unfold Cells.set
    split
    · split
      · rfl
      · rw [Cells.get_cons, if_neg (Ne.symm h)]
    · split
      · rename_i hk
        subst hk
        split <;> simp [Cells.get_cons, Ne.symm h]
      · simp [Cells.get_cons, ih]

/-- Reading the address just written gives the value written. -/
theorem Cells.get_set_same {m : List (Nat × BitVec n)} (hm : Cells.wf m) (a : Nat) (v : BitVec n) :
    Cells.get (Cells.set m a v) a = v := by
  induction m with
  | nil => unfold Cells.set; split <;> simp_all [Cells.get_cons]
  | cons c rest ih =>
    obtain ⟨k, u⟩ := c
    have hlt := (List.pairwise_cons.mp hm.1).1
    unfold Cells.set
    split
    · rename_i hak
      split
      · rename_i hv
        rw [hv, Cells.get_cons, if_neg (by omega)]
        exact Cells.get_of_not_listed fun c hc => by have := hlt c hc; omega
      · simp [Cells.get_cons]
    · split
      · rename_i hk
        subst hk
        split
        · rename_i hv
          rw [hv]
          exact Cells.get_of_not_listed fun c hc => by have := hlt c hc; omega
        · simp [Cells.get_cons]
      · rename_i hk
        rw [Cells.get_cons, if_neg (Ne.symm hk)]
        exact ih ⟨(List.pairwise_cons.mp hm.1).2, fun c hc => hm.2 c (by simp [hc])⟩

/-- What a write may list: the new entry, or an entry that was there. -/
theorem Cells.mem_set {m : List (Nat × BitVec n)} {a : Nat} {v : BitVec n} {c : Nat × BitVec n}
    (h : c ∈ Cells.set m a v) : (c = (a, v) ∧ v ≠ 0#n) ∨ c ∈ m := by
  induction m with
  | nil =>
    unfold Cells.set at h
    split at h
    · simp at h
    · exact .inl ⟨by simpa using h, ‹_›⟩
  | cons d rest ih =>
    obtain ⟨k, u⟩ := d
    unfold Cells.set at h
    split at h
    · split at h
      · exact .inr h
      · rcases List.mem_cons.mp h with rfl | h
        · exact .inl ⟨rfl, ‹_›⟩
        · exact .inr h
    · split at h
      · split at h
        · exact .inr (List.mem_cons_of_mem _ h)
        · rcases List.mem_cons.mp h with rfl | h
          · exact .inl ⟨rfl, ‹_›⟩
          · exact .inr (List.mem_cons_of_mem _ h)
      · rcases List.mem_cons.mp h with rfl | h
        · exact .inr (by simp)
        · rcases ih h with h | h
          · exact .inl h
          · exact .inr (List.mem_cons_of_mem _ h)

/-- A write keeps the canonical form. -/
theorem Cells.wf_set {m : List (Nat × BitVec n)} (hm : Cells.wf m) (a : Nat) (v : BitVec n) :
    Cells.wf (Cells.set m a v) := by
  refine ⟨?_, fun c hc => ?_⟩
  · induction m with
    | nil => unfold Cells.set; split <;> simp
    | cons d rest ih =>
      obtain ⟨k, u⟩ := d
      have hlt := (List.pairwise_cons.mp hm.1).1
      have hrest : Cells.wf rest := ⟨(List.pairwise_cons.mp hm.1).2, fun c hc => hm.2 c (by simp [hc])⟩
      unfold Cells.set
      split
      · rename_i hak
        split
        · exact hm.1
        · refine List.pairwise_cons.mpr ⟨fun c hc => ?_, hm.1⟩
          rcases List.mem_cons.mp hc with rfl | hc
          · exact hak
          · have := hlt c hc; simp at this ⊢; omega
      · split
        · rename_i hk
          split
          · exact hrest.1
          · exact List.pairwise_cons.mpr ⟨fun c hc => by have := hlt c hc; simp at this ⊢; omega, hrest.1⟩
        · refine List.pairwise_cons.mpr ⟨fun c hc => ?_, ih hrest⟩
          rcases Cells.mem_set hc with ⟨rfl, -⟩ | hc
          · simp; omega
          · exact hlt c hc
  · rcases Cells.mem_set hc with ⟨rfl, hv⟩ | hc
    · exact hv
    · exact hm.2 c hc

theorem Cells.wf_nil : Cells.wf ([] : List (Nat × BitVec n)) :=
  ⟨List.Pairwise.nil, fun _ h => nomatch h⟩

/-- The initial image over canonical contents is canonical. -/
theorem Memory.wf_overlay (image : List Host.Cell) {m : List Host.Cell} (hm : Memory.wf m) :
    Memory.wf (Memory.overlay image m) := by
  unfold Memory.overlay
  induction image generalizing m with
  | nil => exact hm
  | cons c rest ih => exact ih (Cells.wf_set hm c.1 c.2)

/-- What an overlay lists comes from the image or was there. -/
theorem Memory.mem_overlay {image m : List Host.Cell} {c : Host.Cell}
    (h : c ∈ Memory.overlay image m) : (∃ e ∈ image, c.1 = e.1) ∨ c ∈ m := by
  unfold Memory.overlay at h
  induction image generalizing m with
  | nil => exact .inr h
  | cons d rest ih =>
    rcases ih h with ⟨e, he, hc⟩ | hc
    · exact .inl ⟨e, by simp [he], hc⟩
    · rcases Cells.mem_set hc with ⟨rfl, -⟩ | hc
      · exact .inl ⟨d, by simp, rfl⟩
      · exact .inr hc

/-- An address the image does not name reads as before. -/
theorem Memory.get_overlay_of_not_listed (image m : List Host.Cell) {a : Nat}
    (h : ∀ e ∈ image, e.1 ≠ a) : Cells.get (Memory.overlay image m) a = Cells.get m a := by
  unfold Memory.overlay
  induction image generalizing m with
  | nil => rfl
  | cons d rest ih =>
    rw [List.foldl_cons, ih _ fun e he => h e (by simp [he])]
    exact Cells.get_set_ne _ _ (Ne.symm (h d (by simp)))

/-- Canonical contents that read the same are the same list. -/
theorem Cells.ext {m m' : List (Nat × BitVec n)} (hm : Cells.wf m) (hm' : Cells.wf m')
    (h : ∀ a, Cells.get m a = Cells.get m' a) : m = m' := by
  induction m generalizing m' with
  | nil =>
    cases m' with
    | nil => rfl
    | cons d rest =>
      obtain ⟨k, v⟩ := d
      have hk := h k
      simp [Cells.get_cons] at hk
      exact absurd hk.symm (hm'.2 (k, v) (by simp))
  | cons c rest ih =>
    obtain ⟨k, v⟩ := c
    cases m' with
    | nil =>
      have hk := h k
      simp [Cells.get_cons] at hk
      exact absurd hk (hm.2 (k, v) (by simp))
    | cons d rest' =>
      obtain ⟨k', v'⟩ := d
      have hlt := (List.pairwise_cons.mp hm.1).1
      have hlt' := (List.pairwise_cons.mp hm'.1).1
      have hz : Cells.get rest k = 0#n := Cells.get_of_not_listed fun c hc => by have := hlt c hc; simp at this; omega
      have hz' : Cells.get rest' k' = 0#n := Cells.get_of_not_listed fun c hc => by have := hlt' c hc; simp at this; omega
      have hkk : k = k' := by
        rcases Nat.lt_trichotomy k k' with hl | he | hl
        · have hk := h k
          rw [Cells.get_cons, if_pos rfl, Cells.get_cons, if_neg (by omega)] at hk
          rw [Cells.get_of_not_listed fun c hc => by have := hlt' c hc; simp at this; omega] at hk
          exact absurd hk (hm.2 (k, v) (by simp))
        · exact he
        · have hk := h k'
          rw [Cells.get_cons, if_neg (by omega), Cells.get_cons, if_pos rfl] at hk
          rw [Cells.get_of_not_listed fun c hc => by have := hlt c hc; simp at this; omega] at hk
          exact absurd hk.symm (hm'.2 (k', v') (by simp))
      subst hkk
      have hv : v = v' := by simpa [Cells.get_cons] using h k
      subst hv
      congr 1
      refine ih ⟨(List.pairwise_cons.mp hm.1).2, fun c hc => hm.2 c (by simp [hc])⟩
        ⟨(List.pairwise_cons.mp hm'.1).2, fun c hc => hm'.2 c (by simp [hc])⟩ fun a => ?_
      by_cases ha : k = a
      · subst ha; rw [hz, hz']
      · simpa [Cells.get_cons, ha] using h a

end Sys2Proof.Machine
end

