-- ==== Sys2Proof/Laws/State.lean ====
section
/-! SUPPORT. What each update of the state leaves in each field and reader: one lemma per pair, so that no
later proof unfolds a record update. -/

namespace Sys2Proof.Machine

variable (s : State)

/-! ### Registers -/

@[simp] theorem State.readReg_zero : s.readReg 0#5 = 0#32 := rfl

@[simp] theorem State.writeReg_zero (v : Word) : s.writeReg 0#5 v = s := rfl

theorem State.readReg_congr {s t : State} (h : t.regs = s.regs) (r : RegIdx) : t.readReg r = s.readReg r := by
  unfold State.readReg; rw [h]

/-- Reading the register just written: the value, or 0 for `x0`. -/
theorem State.readReg_writeReg_same (r : RegIdx) (v : Word) :
    (s.writeReg r v).readReg r = if r = 0#5 then 0#32 else v := by
  by_cases h : r = 0#5 <;> simp [State.readReg, State.writeReg, h]

/-- A register write leaves every other register alone. -/
theorem State.readReg_writeReg_ne {r q : RegIdx} (v : Word) (h : q ≠ r) :
    (s.writeReg r v).readReg q = s.readReg q := by
  by_cases hr : r = 0#5
  · simp [State.writeReg, hr]
  · have hne : r.toNat ≠ q.toNat := fun e => h (BitVec.eq_of_toNat_eq e).symm
    simp [State.readReg, State.writeReg, hr, hne]

/-- The slot of `x0` is never written. -/
@[simp] theorem State.writeReg_slot_zero (r : RegIdx) (v : Word) : (s.writeReg r v).regs[0] = s.regs[0] := by
  by_cases hr : r = 0#5
  · simp [State.writeReg, hr]
  · have hne : r.toNat ≠ 0 := fun e => hr (BitVec.eq_of_toNat_eq e)
    simp [State.writeReg, hr, hne]

@[simp] theorem State.writeReg_pc (r : RegIdx) (v : Word) : (s.writeReg r v).pc = s.pc := by
  unfold State.writeReg; split <;> rfl

@[simp] theorem State.writeReg_hartState (r : RegIdx) (v : Word) : (s.writeReg r v).hartState = s.hartState := by
  unfold State.writeReg; split <;> rfl

@[simp] theorem State.writeReg_haltFlag (r : RegIdx) (v : Word) : (s.writeReg r v).haltFlag = s.haltFlag := by
  unfold State.writeReg; split <;> rfl

@[simp] theorem State.writeReg_faultRecord (r : RegIdx) (v : Word) : (s.writeReg r v).faultRecord = s.faultRecord := by
  unfold State.writeReg; split <;> rfl

@[simp] theorem State.writeReg_mem (r : RegIdx) (v : Word) : (s.writeReg r v).mem = s.mem := by
  unfold State.writeReg; split <;> rfl

@[simp] theorem State.writeReg_storage (r : RegIdx) (v : Word) : (s.writeReg r v).storage = s.storage := by
  unfold State.writeReg; split <;> rfl

@[simp] theorem State.writeReg_locals (r : RegIdx) (v : Word) : (s.writeReg r v).locals = s.locals := by
  unfold State.writeReg; split <;> rfl

@[simp] theorem State.writeReg_cfg (r : RegIdx) (v : Word) : (s.writeReg r v).cfg = s.cfg := by
  unfold State.writeReg; split <;> rfl

@[simp] theorem State.readByte_writeReg (r : RegIdx) (v : Word) (a : Nat) : (s.writeReg r v).readByte a = s.readByte a := by
  simp [State.readByte]

@[simp] theorem State.readStorage_writeReg (r : RegIdx) (v : Word) (a : Nat) : (s.writeReg r v).readStorage a = s.readStorage a := by
  simp [State.readStorage]

@[simp] theorem State.readLocal_writeReg (r : RegIdx) (v : Word) (b : Nat) : (s.writeReg r v).readLocal b = s.readLocal b := by
  simp [State.readLocal]

/-! ### setPc -/

@[simp] theorem State.setPc_regs (t : Word) : (s.setPc t).regs = s.regs := rfl

@[simp] theorem State.setPc_pc (t : Word) : (s.setPc t).pc = t := rfl

@[simp] theorem State.setPc_hartState (t : Word) : (s.setPc t).hartState = s.hartState := rfl

@[simp] theorem State.setPc_haltFlag (t : Word) : (s.setPc t).haltFlag = s.haltFlag := rfl

@[simp] theorem State.setPc_faultRecord (t : Word) : (s.setPc t).faultRecord = s.faultRecord := rfl

@[simp] theorem State.setPc_mem (t : Word) : (s.setPc t).mem = s.mem := rfl

@[simp] theorem State.setPc_storage (t : Word) : (s.setPc t).storage = s.storage := rfl

@[simp] theorem State.setPc_locals (t : Word) : (s.setPc t).locals = s.locals := rfl

@[simp] theorem State.setPc_cfg (t : Word) : (s.setPc t).cfg = s.cfg := rfl

@[simp] theorem State.readReg_setPc (t : Word) (r : RegIdx) : (s.setPc t).readReg r = s.readReg r := rfl

@[simp] theorem State.readByte_setPc (t : Word) (a : Nat) : (s.setPc t).readByte a = s.readByte a := rfl

@[simp] theorem State.readStorage_setPc (t : Word) (a : Nat) : (s.setPc t).readStorage a = s.readStorage a := rfl

@[simp] theorem State.readLocal_setPc (t : Word) (b : Nat) : (s.setPc t).readLocal b = s.readLocal b := rfl

/-! ### advance -/

@[simp] theorem State.advance_regs : s.advance.regs = s.regs := rfl

@[simp] theorem State.advance_pc : s.advance.pc = s.pc + 4#32 := rfl

@[simp] theorem State.advance_hartState : s.advance.hartState = s.hartState := rfl

@[simp] theorem State.advance_haltFlag : s.advance.haltFlag = s.haltFlag := rfl

@[simp] theorem State.advance_faultRecord : s.advance.faultRecord = s.faultRecord := rfl

@[simp] theorem State.advance_mem : s.advance.mem = s.mem := rfl

@[simp] theorem State.advance_storage : s.advance.storage = s.storage := rfl

@[simp] theorem State.advance_locals : s.advance.locals = s.locals := rfl

@[simp] theorem State.advance_cfg : s.advance.cfg = s.cfg := rfl

@[simp] theorem State.readReg_advance (r : RegIdx) : s.advance.readReg r = s.readReg r := rfl

@[simp] theorem State.readByte_advance (a : Nat) : s.advance.readByte a = s.readByte a := rfl

@[simp] theorem State.readStorage_advance (a : Nat) : s.advance.readStorage a = s.readStorage a := rfl

@[simp] theorem State.readLocal_advance (b : Nat) : s.advance.readLocal b = s.readLocal b := rfl

/-! ### writeByte -/

@[simp] theorem State.writeByte_regs (k : Nat) (v : Byte) : (s.writeByte k v).regs = s.regs := rfl

@[simp] theorem State.writeByte_pc (k : Nat) (v : Byte) : (s.writeByte k v).pc = s.pc := rfl

@[simp] theorem State.writeByte_hartState (k : Nat) (v : Byte) : (s.writeByte k v).hartState = s.hartState := rfl

@[simp] theorem State.writeByte_haltFlag (k : Nat) (v : Byte) : (s.writeByte k v).haltFlag = s.haltFlag := rfl

@[simp] theorem State.writeByte_faultRecord (k : Nat) (v : Byte) : (s.writeByte k v).faultRecord = s.faultRecord := rfl

@[simp] theorem State.writeByte_mem (k : Nat) (v : Byte) : (s.writeByte k v).mem = Cells.set s.mem k v := rfl

@[simp] theorem State.writeByte_storage (k : Nat) (v : Byte) : (s.writeByte k v).storage = s.storage := rfl

@[simp] theorem State.writeByte_locals (k : Nat) (v : Byte) : (s.writeByte k v).locals = s.locals := rfl

@[simp] theorem State.writeByte_cfg (k : Nat) (v : Byte) : (s.writeByte k v).cfg = s.cfg := rfl

@[simp] theorem State.readReg_writeByte (k : Nat) (v : Byte) (r : RegIdx) : (s.writeByte k v).readReg r = s.readReg r := rfl

@[simp] theorem State.readStorage_writeByte (k : Nat) (v : Byte) (a : Nat) : (s.writeByte k v).readStorage a = s.readStorage a := rfl

@[simp] theorem State.readLocal_writeByte (k : Nat) (v : Byte) (b : Nat) : (s.writeByte k v).readLocal b = s.readLocal b := rfl

/-! ### writeStorage -/

@[simp] theorem State.writeStorage_regs (k : Nat) (v : Word) : (s.writeStorage k v).regs = s.regs := rfl

@[simp] theorem State.writeStorage_pc (k : Nat) (v : Word) : (s.writeStorage k v).pc = s.pc := rfl

@[simp] theorem State.writeStorage_hartState (k : Nat) (v : Word) : (s.writeStorage k v).hartState = s.hartState := rfl

@[simp] theorem State.writeStorage_haltFlag (k : Nat) (v : Word) : (s.writeStorage k v).haltFlag = s.haltFlag := rfl

@[simp] theorem State.writeStorage_faultRecord (k : Nat) (v : Word) : (s.writeStorage k v).faultRecord = s.faultRecord := rfl

@[simp] theorem State.writeStorage_mem (k : Nat) (v : Word) : (s.writeStorage k v).mem = s.mem := rfl

@[simp] theorem State.writeStorage_storage (k : Nat) (v : Word) : (s.writeStorage k v).storage = Cells.set s.storage k v := rfl

@[simp] theorem State.writeStorage_locals (k : Nat) (v : Word) : (s.writeStorage k v).locals = s.locals := rfl

@[simp] theorem State.writeStorage_cfg (k : Nat) (v : Word) : (s.writeStorage k v).cfg = s.cfg := rfl

@[simp] theorem State.readReg_writeStorage (k : Nat) (v : Word) (r : RegIdx) : (s.writeStorage k v).readReg r = s.readReg r := rfl

@[simp] theorem State.readByte_writeStorage (k : Nat) (v : Word) (a : Nat) : (s.writeStorage k v).readByte a = s.readByte a := rfl

@[simp] theorem State.readLocal_writeStorage (k : Nat) (v : Word) (b : Nat) : (s.writeStorage k v).readLocal b = s.readLocal b := rfl

/-! ### writeLocal -/

@[simp] theorem State.writeLocal_regs (k : Nat) (v : Word) : (s.writeLocal k v).regs = s.regs := rfl

@[simp] theorem State.writeLocal_pc (k : Nat) (v : Word) : (s.writeLocal k v).pc = s.pc := rfl

@[simp] theorem State.writeLocal_hartState (k : Nat) (v : Word) : (s.writeLocal k v).hartState = s.hartState := rfl

@[simp] theorem State.writeLocal_haltFlag (k : Nat) (v : Word) : (s.writeLocal k v).haltFlag = s.haltFlag := rfl

@[simp] theorem State.writeLocal_faultRecord (k : Nat) (v : Word) : (s.writeLocal k v).faultRecord = s.faultRecord := rfl

@[simp] theorem State.writeLocal_mem (k : Nat) (v : Word) : (s.writeLocal k v).mem = s.mem := rfl

@[simp] theorem State.writeLocal_storage (k : Nat) (v : Word) : (s.writeLocal k v).storage = s.storage := rfl

@[simp] theorem State.writeLocal_locals (k : Nat) (v : Word) : (s.writeLocal k v).locals = Cells.set s.locals k v := rfl

@[simp] theorem State.writeLocal_cfg (k : Nat) (v : Word) : (s.writeLocal k v).cfg = s.cfg := rfl

@[simp] theorem State.readReg_writeLocal (k : Nat) (v : Word) (r : RegIdx) : (s.writeLocal k v).readReg r = s.readReg r := rfl

@[simp] theorem State.readByte_writeLocal (k : Nat) (v : Word) (a : Nat) : (s.writeLocal k v).readByte a = s.readByte a := rfl

@[simp] theorem State.readStorage_writeLocal (k : Nat) (v : Word) (a : Nat) : (s.writeLocal k v).readStorage a = s.readStorage a := rfl

/-! ### Another value of `locals`, what the side effect of a bus read leaves -/

@[simp] theorem State.readReg_locals (l : List (Nat × Word)) (r : RegIdx) :
    State.readReg { s with locals := l } r = s.readReg r := rfl

@[simp] theorem State.readByte_locals (l : List (Nat × Word)) (a : Nat) :
    State.readByte { s with locals := l } a = s.readByte a := rfl

@[simp] theorem State.readStorage_locals (l : List (Nat × Word)) (a : Nat) :
    State.readStorage { s with locals := l } a = s.readStorage a := rfl

/-! ### enterFault -/

@[simp] theorem State.enterFault_regs (info : FaultInfo) : (s.enterFault info).regs = s.regs := rfl

@[simp] theorem State.enterFault_pc (info : FaultInfo) : (s.enterFault info).pc = s.pc := rfl

@[simp] theorem State.enterFault_hartState (info : FaultInfo) : (s.enterFault info).hartState = .faulted := rfl

@[simp] theorem State.enterFault_haltFlag (info : FaultInfo) : (s.enterFault info).haltFlag = s.haltFlag := rfl

@[simp] theorem State.enterFault_faultRecord (info : FaultInfo) : (s.enterFault info).faultRecord = some { pc := s.pc, info := info } := rfl

@[simp] theorem State.enterFault_mem (info : FaultInfo) : (s.enterFault info).mem = s.mem := rfl

@[simp] theorem State.enterFault_storage (info : FaultInfo) : (s.enterFault info).storage = s.storage := rfl

@[simp] theorem State.enterFault_locals (info : FaultInfo) : (s.enterFault info).locals = s.locals := rfl

@[simp] theorem State.enterFault_cfg (info : FaultInfo) : (s.enterFault info).cfg = s.cfg := rfl

@[simp] theorem State.readReg_enterFault (info : FaultInfo) (r : RegIdx) : (s.enterFault info).readReg r = s.readReg r := rfl

@[simp] theorem State.readByte_enterFault (info : FaultInfo) (a : Nat) : (s.enterFault info).readByte a = s.readByte a := rfl

@[simp] theorem State.readStorage_enterFault (info : FaultInfo) (a : Nat) : (s.enterFault info).readStorage a = s.readStorage a := rfl

@[simp] theorem State.readLocal_enterFault (info : FaultInfo) (b : Nat) : (s.enterFault info).readLocal b = s.readLocal b := rfl

/-! ### Read after write, for the sparse parts -/

theorem State.readByte_writeByte_ne {k a : Nat} (v : Byte) (h : a ≠ k) :
    (s.writeByte k v).readByte a = s.readByte a := Cells.get_set_ne _ v h

theorem State.readByte_writeByte_same (hm : Memory.wf s.mem) (k : Nat) (v : Byte) :
    (s.writeByte k v).readByte k = v := Cells.get_set_same hm k v

theorem State.readStorage_writeStorage_ne {k a : Nat} (v : Word) (h : a ≠ k) :
    (s.writeStorage k v).readStorage a = s.readStorage a := Cells.get_set_ne _ v h

theorem State.readStorage_writeStorage_same (hm : Cells.wf s.storage) (k : Nat) (v : Word) :
    (s.writeStorage k v).readStorage k = v := Cells.get_set_same hm k v

theorem State.readLocal_writeLocal_ne {k a : Nat} (v : Word) (h : a ≠ k) :
    (s.writeLocal k v).readLocal a = s.readLocal a := Cells.get_set_ne _ v h

theorem State.readLocal_writeLocal_same (hm : Cells.wf s.locals) (k : Nat) (v : Word) :
    (s.writeLocal k v).readLocal k = v := Cells.get_set_same hm k v

/-! ### The end of a step -/

theorem State.unlessFaulted_enterFault (u : State) (info : FaultInfo) (h : u.pc = s.pc) :
    s.unlessFaulted (u.enterFault info) = s.enterFault info := by
  simp [State.unlessFaulted, State.enterFault, h]

theorem State.unlessFaulted_of_ne {t : State} (h : t.hartState ≠ .faulted) : s.unlessFaulted t = t := by
  unfold State.unlessFaulted
  cases ht : t.hartState <;> simp_all

/-! ### The halt poll -/

/-- Everything the halt poll can do (R56). -/
theorem State.pollHalt_cases :
    (s.hartState = .running ∧ s.haltFlag = true ∧ s.pollHalt = { s with hartState := .halted })
    ∨ (¬ (s.hartState = .running ∧ s.haltFlag = true) ∧ s.pollHalt = s) := by
  unfold State.pollHalt
  cases s.hartState <;> cases s.haltFlag <;> simp

@[simp] theorem State.pollHalt_regs : s.pollHalt.regs = s.regs := by
  obtain ⟨-, -, h⟩ | ⟨-, h⟩ := s.pollHalt_cases <;> rw [h]

@[simp] theorem State.pollHalt_pc : s.pollHalt.pc = s.pc := by
  obtain ⟨-, -, h⟩ | ⟨-, h⟩ := s.pollHalt_cases <;> rw [h]

@[simp] theorem State.pollHalt_haltFlag : s.pollHalt.haltFlag = s.haltFlag := by
  obtain ⟨-, -, h⟩ | ⟨-, h⟩ := s.pollHalt_cases <;> rw [h]

@[simp] theorem State.pollHalt_faultRecord : s.pollHalt.faultRecord = s.faultRecord := by
  obtain ⟨-, -, h⟩ | ⟨-, h⟩ := s.pollHalt_cases <;> rw [h]

@[simp] theorem State.pollHalt_mem : s.pollHalt.mem = s.mem := by
  obtain ⟨-, -, h⟩ | ⟨-, h⟩ := s.pollHalt_cases <;> rw [h]

@[simp] theorem State.pollHalt_storage : s.pollHalt.storage = s.storage := by
  obtain ⟨-, -, h⟩ | ⟨-, h⟩ := s.pollHalt_cases <;> rw [h]

@[simp] theorem State.pollHalt_locals : s.pollHalt.locals = s.locals := by
  obtain ⟨-, -, h⟩ | ⟨-, h⟩ := s.pollHalt_cases <;> rw [h]

@[simp] theorem State.pollHalt_cfg : s.pollHalt.cfg = s.cfg := by
  obtain ⟨-, -, h⟩ | ⟨-, h⟩ := s.pollHalt_cases <;> rw [h]

@[simp] theorem State.readReg_pollHalt (r : RegIdx) : s.pollHalt.readReg r = s.readReg r := by
  simp [State.readReg]

@[simp] theorem State.readByte_pollHalt (a : Nat) : s.pollHalt.readByte a = s.readByte a := by
  simp [State.readByte]

@[simp] theorem State.readStorage_pollHalt (a : Nat) : s.pollHalt.readStorage a = s.readStorage a := by
  simp [State.readStorage]

@[simp] theorem State.readLocal_pollHalt (b : Nat) : s.pollHalt.readLocal b = s.readLocal b := by
  simp [State.readLocal]

end Sys2Proof.Machine
end

