-- ==== Sys2Proof/Laws/Bus.lean ====
section
/-! SUPPORT. What the bus operations can do: one inversion lemma for a read and one for a write, the
frames of a region write and of a peripheral write, and that each keeps the canonical form. -/

namespace Sys2Proof.Machine

variable (s : State)

/-! ### Region reads and writes -/

theorem State.regionRead_word (a : Nat) : s.regionRead a .word
    = wordOfBytes (s.readByte a) (s.readByte (a + 1)) (s.readByte (a + 2)) (s.readByte (a + 3)) := rfl

/-- A region read depends on memory only. -/
theorem State.regionRead_congr {s t : State} (h : t.mem = s.mem) (a : Nat) (n : Width) :
    t.regionRead a n = s.regionRead a n := by
  cases n <;> simp [State.regionRead, State.readByte, h]

/-- A region write changes memory and nothing else. -/
theorem State.regionWrite_eq (a : Nat) (n : Width) (v : Word) :
    s.regionWrite a n v = { s with mem := (s.regionWrite a n v).mem } := by cases n <;> rfl

@[simp] theorem State.regionWrite_regs (a : Nat) (n : Width) (v : Word) : (s.regionWrite a n v).regs = s.regs := by
  cases n <;> rfl
@[simp] theorem State.regionWrite_pc (a : Nat) (n : Width) (v : Word) : (s.regionWrite a n v).pc = s.pc := by
  cases n <;> rfl
@[simp] theorem State.regionWrite_hartState (a : Nat) (n : Width) (v : Word) :
    (s.regionWrite a n v).hartState = s.hartState := by cases n <;> rfl
@[simp] theorem State.regionWrite_haltFlag (a : Nat) (n : Width) (v : Word) :
    (s.regionWrite a n v).haltFlag = s.haltFlag := by cases n <;> rfl
@[simp] theorem State.regionWrite_faultRecord (a : Nat) (n : Width) (v : Word) :
    (s.regionWrite a n v).faultRecord = s.faultRecord := by cases n <;> rfl
@[simp] theorem State.regionWrite_storage (a : Nat) (n : Width) (v : Word) :
    (s.regionWrite a n v).storage = s.storage := by cases n <;> rfl
@[simp] theorem State.regionWrite_locals (a : Nat) (n : Width) (v : Word) :
    (s.regionWrite a n v).locals = s.locals := by cases n <;> rfl
@[simp] theorem State.regionWrite_cfg (a : Nat) (n : Width) (v : Word) : (s.regionWrite a n v).cfg = s.cfg := by
  cases n <;> rfl

/-- A region write keeps the canonical form of memory. -/
theorem State.regionWrite_wf (hm : Memory.wf s.mem) (a : Nat) (n : Width) (v : Word) :
    Memory.wf (s.regionWrite a n v).mem := by
  cases n
  · exact Cells.wf_set hm _ _
  · exact Cells.wf_set (Cells.wf_set hm _ _) _ _
  · exact Cells.wf_set (Cells.wf_set (Cells.wf_set (Cells.wf_set hm _ _) _ _) _ _) _ _

/-- Every byte outside `[a, a+n)` reads as before. -/
theorem State.readByte_regionWrite_outside (a : Nat) (n : Width) (v : Word) {b : Nat}
    (h : b < a ∨ a + n.bytes ≤ b) : (s.regionWrite a n v).readByte b = s.readByte b := by
  cases n <;> simp only [Width.bytes] at h <;> simp only [State.regionWrite] <;>
    repeat (first | rfl | rw [State.readByte_writeByte_ne _ _ (by omega)])

/-- Byte `a + i` holds byte `i` of the value. -/
theorem State.readByte_regionWrite_inside (hm : Memory.wf s.mem) (a : Nat) (n : Width) (v : Word) {i : Nat}
    (h : i < n.bytes) : (s.regionWrite a n v).readByte (a + i) = byteOf v i := by
  have w1 := Cells.wf_set hm a (byteOf v 0)
  have w2 := Cells.wf_set w1 (a + 1) (byteOf v 1)
  have w3 := Cells.wf_set w2 (a + 2) (byteOf v 2)
  cases n <;> simp only [Width.bytes] at h <;> simp only [State.regionWrite]
  · obtain rfl : i = 0 := by omega
    exact State.readByte_writeByte_same _ hm _ _
  · obtain rfl | rfl : i = 0 ∨ i = 1 := by omega
    · rw [State.readByte_writeByte_ne _ _ (by omega)]
      exact State.readByte_writeByte_same _ hm _ _
    · exact State.readByte_writeByte_same _ w1 _ _
  · obtain rfl | rfl | rfl | rfl : i = 0 ∨ i = 1 ∨ i = 2 ∨ i = 3 := by omega
    · rw [State.readByte_writeByte_ne _ _ (by omega), State.readByte_writeByte_ne _ _ (by omega),
        State.readByte_writeByte_ne _ _ (by omega)]
      exact State.readByte_writeByte_same _ hm _ _
    · rw [State.readByte_writeByte_ne _ _ (by omega), State.readByte_writeByte_ne _ _ (by omega)]
      exact State.readByte_writeByte_same _ w1 _ _
    · rw [State.readByte_writeByte_ne _ _ (by omega)]
      exact State.readByte_writeByte_same _ w2 _ _
    · exact State.readByte_writeByte_same _ w3 _ _

/-- What a region write may list: bytes inside `[a, a+n)`, or entries that were there. -/
theorem State.mem_regionWrite {a : Nat} {n : Width} {v : Word} {c : Host.Cell}
    (h : c ∈ (s.regionWrite a n v).mem) : (a ≤ c.1 ∧ c.1 < a + n.bytes) ∨ c ∈ s.mem := by
  cases n <;> simp only [State.regionWrite, State.writeByte_mem] at h <;>
    repeat
      first
        | (rcases Cells.mem_set h with ⟨rfl, -⟩ | h
           · exact .inl (by simp [Width.bytes]))
        | exact .inr h

/-! ### Peripheral writes -/

/-- What one trigger leaves alone: everything but the halt flag and the peripheral's own state. -/
theorem State.fireTrigger_frame (base : Nat) (new old : Word) (t : Trigger) :
    State.fireTrigger base new old s t
      = { s with haltFlag := (State.fireTrigger base new old s t).haltFlag
                 locals := (State.fireTrigger base new old s t).locals } := by
  unfold State.fireTrigger State.runCallback
  split
  · cases t.callback <;> rfl
  · rfl

theorem State.foldl_fireTrigger_frame (base : Nat) (new old : Word) (ts : List Trigger) :
    ts.foldl (State.fireTrigger base new old) s
      = { s with haltFlag := (ts.foldl (State.fireTrigger base new old) s).haltFlag
                 locals := (ts.foldl (State.fireTrigger base new old) s).locals } := by
  induction ts generalizing s with
  | nil => rfl
  | cons t rest ih =>
    rw [List.foldl_cons]
    conv_lhs => rw [ih]
    conv_lhs => enter [1]; rw [State.fireTrigger_frame]
    rw [State.fireTrigger_frame]

/-- A peripheral write changes the storage of its register, the halt flag and the peripheral's own state,
and nothing else. -/
theorem State.periphWrite_frame (base : Nat) (r : PeriphReg) (v : Word) :
    s.periphWrite base r v
      = { s with storage := Cells.set s.storage (base + r.offset) (s.periphNew base r v)
                 haltFlag := (s.periphWrite base r v).haltFlag
                 locals := (s.periphWrite base r v).locals } := by
  unfold State.periphWrite
  conv_lhs => rw [State.foldl_fireTrigger_frame]
  rfl

@[simp] theorem State.periphWrite_regs (base : Nat) (r : PeriphReg) (v : Word) :
    (s.periphWrite base r v).regs = s.regs := by rw [State.periphWrite_frame]

@[simp] theorem State.periphWrite_pc (base : Nat) (r : PeriphReg) (v : Word) :
    (s.periphWrite base r v).pc = s.pc := by rw [State.periphWrite_frame]

@[simp] theorem State.periphWrite_hartState (base : Nat) (r : PeriphReg) (v : Word) :
    (s.periphWrite base r v).hartState = s.hartState := by rw [State.periphWrite_frame]

@[simp] theorem State.periphWrite_faultRecord (base : Nat) (r : PeriphReg) (v : Word) :
    (s.periphWrite base r v).faultRecord = s.faultRecord := by rw [State.periphWrite_frame]

@[simp] theorem State.periphWrite_mem (base : Nat) (r : PeriphReg) (v : Word) :
    (s.periphWrite base r v).mem = s.mem := by rw [State.periphWrite_frame]

@[simp] theorem State.periphWrite_cfg (base : Nat) (r : PeriphReg) (v : Word) :
    (s.periphWrite base r v).cfg = s.cfg := by rw [State.periphWrite_frame]

theorem State.periphWrite_storage (base : Nat) (r : PeriphReg) (v : Word) :
    (s.periphWrite base r v).storage = Cells.set s.storage (base + r.offset) (s.periphNew base r v) := by
  rw [State.periphWrite_frame]

/-- A trigger never clears the halt flag; it sets it exactly when it fires with that callback (R124, R125). -/
theorem State.fireTrigger_haltFlag (base : Nat) (new old : Word) (t : Trigger) :
    (State.fireTrigger base new old s t).haltFlag
      = (s.haltFlag || (triggerFires t new old && decide (t.callback = .setHaltFlag))) := by
  unfold State.fireTrigger State.runCallback
  cases triggerFires t new old <;> cases t.callback <;> simp

theorem State.foldl_fireTrigger_haltFlag (base : Nat) (new old : Word) (ts : List Trigger) :
    (ts.foldl (State.fireTrigger base new old) s).haltFlag
      = (s.haltFlag || ts.any (fun t => triggerFires t new old && decide (t.callback = .setHaltFlag))) := by
  induction ts generalizing s with
  | nil => simp
  | cons t rest ih => rw [List.foldl_cons, ih, State.fireTrigger_haltFlag, List.any_cons, Bool.or_assoc]

/-- The halt flag after a peripheral write: as before, or set by a trigger that fires. -/
theorem State.periphWrite_haltFlag (base : Nat) (r : PeriphReg) (v : Word) :
    (s.periphWrite base r v).haltFlag
      = (s.haltFlag || r.triggers.any (fun t =>
          triggerFires t (s.periphNew base r v) (s.readStorage (base + r.offset))
            && decide (t.callback = .setHaltFlag))) :=
  State.foldl_fireTrigger_haltFlag _ _ _ _ _

theorem State.fireTrigger_locals (base : Nat) (new old : Word) (t : Trigger) :
    (State.fireTrigger base new old s t).locals = s.locals
      ∨ ∃ w, (State.fireTrigger base new old s t).locals = Cells.set s.locals base w := by
  unfold State.fireTrigger State.runCallback
  split
  · cases t.callback with
    | setHaltFlag => exact .inl rfl
    | setLocal f => exact .inr ⟨_, rfl⟩
  · exact .inl rfl

/-- A peripheral write keeps the canonical form of the local states. -/
theorem State.periphWrite_locals_wf (hl : Cells.wf s.locals) (base : Nat) (r : PeriphReg) (v : Word) :
    Cells.wf (s.periphWrite base r v).locals := by
  unfold State.periphWrite
  generalize hu : s.writeStorage (base + r.offset) (s.periphNew base r v) = u
  have hw : Cells.wf u.locals := by rw [← hu]; exact hl
  clear hu
  induction r.triggers generalizing u with
  | nil => exact hw
  | cons t rest ih =>
    refine ih _ ?_
    rcases u.fireTrigger_locals base (s.periphNew base r v) (s.readStorage (base + r.offset)) t with h | ⟨w, h⟩
    · rw [h]; exact hw
    · rw [h]; exact Cells.wf_set hw _ _

/-- Another peripheral's local state is left alone. -/
theorem State.readLocal_periphWrite_ne (base : Nat) (r : PeriphReg) (v : Word) {b : Nat} (hb : b ≠ base) :
    (s.periphWrite base r v).readLocal b = s.readLocal b := by
  unfold State.periphWrite
  generalize hu : s.writeStorage (base + r.offset) (s.periphNew base r v) = u
  have hw : u.readLocal b = s.readLocal b := by rw [← hu]; rfl
  clear hu
  induction r.triggers generalizing u with
  | nil => exact hw
  | cons t rest ih =>
    refine ih _ ?_
    rw [← hw]
    unfold State.readLocal
    rcases u.fireTrigger_locals base (s.periphNew base r v) (s.readStorage (base + r.offset)) t with h | ⟨w, h⟩
    · rw [h]
    · rw [h]; exact Cells.get_set_ne _ _ hb

/-! ### The effect of a peripheral read -/

/-- With the default read handler a read changes nothing (R113). -/
theorem State.afterRead_of_none (base : Nat) {r : PeriphReg} (h : r.readEffect = none) :
    s.afterRead base r = s := by
  simp [State.afterRead, h]

/-- A read changes the state local to its peripheral at most (R26, R32). -/
theorem State.afterRead_frame (base : Nat) (r : PeriphReg) :
    s.afterRead base r = { s with locals := (s.afterRead base r).locals } := by
  unfold State.afterRead
  cases r.readEffect <;> rfl

theorem State.afterRead_locals_wf (hl : Cells.wf s.locals) (base : Nat) (r : PeriphReg) :
    Cells.wf (s.afterRead base r).locals := by
  unfold State.afterRead
  cases r.readEffect
  · exact hl
  · exact Cells.wf_set hl _ _

/-- What a read with a side effect leaves in its peripheral's local state (R121). -/
theorem State.readLocal_afterRead_same (hl : Cells.wf s.locals) (base : Nat) {r : PeriphReg} {f : WordFn}
    (h : r.readEffect = some f) : (s.afterRead base r).readLocal base
      = WordFn.eval (s.readStorage (base + r.offset)) 0#32 (s.readLocal base) f := by
  simp only [State.afterRead, h]
  exact State.readLocal_writeLocal_same _ hl _ _

/-- Another peripheral's local state is left alone. -/
theorem State.readLocal_afterRead_ne (base : Nat) (r : PeriphReg) {b : Nat} (hb : b ≠ base) :
    (s.afterRead base r).readLocal b = s.readLocal b := by
  unfold State.afterRead
  cases r.readEffect
  · rfl
  · exact State.readLocal_writeLocal_ne _ _ hb

/-! ### Port and register lookup -/

/-- What a successful lookup says. -/
theorem Config.lookup_some {c : Config} {a : Nat} {n : Width} {p : Port} (h : Config.lookup c a n = some p) :
    p ∈ c.ports ∧ p.base ≤ a ∧ a + n.bytes ≤ p.base + p.size := by
  have h1 := List.mem_of_find?_eq_some h
  have h2 := List.find?_some h
  simp only [portContains, Bool.and_eq_true, decide_eq_true_eq] at h2
  exact ⟨h1, h2⟩

theorem findReg_some {regs : List PeriphReg} {o : Nat} {n : Width} {r : PeriphReg}
    (h : findReg regs o n = some r) : r ∈ regs ∧ r.offset = o ∧ r.width = n := by
  have h1 := List.mem_of_find?_eq_some h
  have h2 := List.find?_some h
  simp only [Bool.and_eq_true, decide_eq_true_eq] at h2
  exact ⟨h1, h2⟩

/-! ### The bus -/

/-- Everything a bus read can answer (R78). -/
theorem memRead_cases (access : Access) (a : Word) (n : Width) :
    (aligned a n = false ∧ memRead access a n s = .error (.misalignedAccess a n access))
    ∨ (aligned a n = true ∧ memRead access a n s = .error (.unmappedAccess a n access))
    ∨ (∃ p, aligned a n = true ∧ Config.lookup s.cfg a.toNat n = some p ∧ p.target = .memory
        ∧ memRead access a n s = .ok (s.regionRead a.toNat n, s))
    ∨ (∃ p regs r, aligned a n = true ∧ Config.lookup s.cfg a.toNat n = some p ∧ p.target = .peripheral regs
        ∧ findReg regs (a.toNat - p.base) n = some r
        ∧ memRead access a n s = .ok (s.periphRead p.base r, s.afterRead p.base r)) := by
  unfold memRead
  cases ha : aligned a n
  · exact .inl ⟨rfl, rfl⟩
  · rw [if_pos rfl]
    cases hl : Config.lookup s.cfg a.toNat n with
    | none => exact .inr (.inl ⟨rfl, rfl⟩)
    | some p =>
      cases ht : p.target with
      | memory => exact .inr (.inr (.inl ⟨p, rfl, rfl, ht, by simp only [ht]⟩))
      | peripheral regs =>
        cases hf : findReg regs (a.toNat - p.base) n with
        | none => exact .inr (.inl ⟨rfl, by simp only [ht, hf]⟩)
        | some r => exact .inr (.inr (.inr ⟨p, regs, r, rfl, rfl, ht, hf, by simp only [ht, hf]⟩))

/-- Everything a bus write can answer (R79). -/
theorem memWrite_cases (a : Word) (n : Width) (v : Word) :
    (aligned a n = false ∧ memWrite a n v s = .error (.misalignedAccess a n .store))
    ∨ (aligned a n = true ∧ memWrite a n v s = .error (.unmappedAccess a n .store))
    ∨ (∃ p, aligned a n = true ∧ Config.lookup s.cfg a.toNat n = some p ∧ p.target = .memory
        ∧ memWrite a n v s = .ok (s.regionWrite a.toNat n v))
    ∨ (∃ p regs r, aligned a n = true ∧ Config.lookup s.cfg a.toNat n = some p ∧ p.target = .peripheral regs
        ∧ findReg regs (a.toNat - p.base) n = some r
        ∧ memWrite a n v s = .ok (s.periphWrite p.base r v)) := by
  unfold memWrite
  cases ha : aligned a n
  · exact .inl ⟨rfl, rfl⟩
  · rw [if_pos rfl]
    cases hl : Config.lookup s.cfg a.toNat n with
    | none => exact .inr (.inl ⟨rfl, rfl⟩)
    | some p =>
      cases ht : p.target with
      | memory => exact .inr (.inr (.inl ⟨p, rfl, rfl, ht, by simp only [ht]⟩))
      | peripheral regs =>
        cases hf : findReg regs (a.toNat - p.base) n with
        | none => exact .inr (.inl ⟨rfl, by simp only [ht, hf]⟩)
        | some r => exact .inr (.inr (.inr ⟨p, regs, r, rfl, rfl, ht, hf, by simp only [ht, hf]⟩))

/-- What a successful read leaves: the state as it is, with one peripheral's local state updated at most. -/
theorem memRead_frame {access : Access} {a : Word} {n : Width} {v : Word} {t : State}
    (h : memRead access a n s = .ok (v, t)) :
    t = { s with locals := t.locals } ∧ (Cells.wf s.locals → Cells.wf t.locals) := by
  rcases memRead_cases s access a n with ⟨-, e⟩ | ⟨-, e⟩ | ⟨p, -, -, -, e⟩ | ⟨p, regs, r, -, -, -, -, e⟩ <;>
    rw [e] at h <;> cases h
  · exact ⟨rfl, id⟩
  · exact ⟨s.afterRead_frame _ _, fun hl => s.afterRead_locals_wf hl _ _⟩

/-- A bus read, its effect included, has nothing to do with the registers. -/
theorem memRead_regs (access : Access) (a : Word) (n : Width) (rg : Vector Word 32) :
    memRead access a n { s with regs := rg }
      = (memRead access a n s).map (fun r => (r.1, { r.2 with regs := rg })) := by
  have hr := State.regionRead_congr (s := s) (t := { s with regs := rg }) rfl a.toNat n
  unfold memRead
  dsimp only
  cases aligned a n
  · rfl
  · rw [if_pos rfl, if_pos rfl]
    cases Config.lookup s.cfg a.toNat n with
    | none => rfl
    | some p =>
      dsimp only
      cases p.target with
      | memory => rw [hr]; rfl
      | peripheral regs =>
        dsimp only
        cases findReg regs (a.toNat - p.base) n with
        | none => rfl
        | some r =>
          dsimp only [State.afterRead]
          cases r.readEffect <;> rfl

/-- A trigger has nothing to do with the registers. -/
theorem State.fireTrigger_regs (base : Nat) (new old : Word) (t : Trigger) (rg : Vector Word 32) :
    State.fireTrigger base new old { s with regs := rg } t
      = { State.fireTrigger base new old s t with regs := rg } := by
  unfold State.fireTrigger State.runCallback
  cases triggerFires t new old
  · rfl
  · cases t.callback <;> rfl

theorem State.foldl_fireTrigger_regs (base : Nat) (new old : Word) (ts : List Trigger) (rg : Vector Word 32) :
    ts.foldl (State.fireTrigger base new old) { s with regs := rg }
      = { ts.foldl (State.fireTrigger base new old) s with regs := rg } := by
  induction ts generalizing s with
  | nil => rfl
  | cons t rest ih => rw [List.foldl_cons, List.foldl_cons, State.fireTrigger_regs, ih]

/-- A bus write has nothing to do with the registers. -/
theorem memWrite_regs (a : Word) (n : Width) (v : Word) (rg : Vector Word 32) :
    memWrite a n v { s with regs := rg } = (memWrite a n v s).map (fun t => { t with regs := rg }) := by
  unfold memWrite
  dsimp only
  cases aligned a n
  · rfl
  · rw [if_pos rfl, if_pos rfl]
    cases Config.lookup s.cfg a.toNat n with
    | none => rfl
    | some p =>
      dsimp only
      cases p.target with
      | memory => cases n <;> rfl
      | peripheral regs =>
        dsimp only
        cases findReg regs (a.toNat - p.base) n with
        | none => rfl
        | some r => exact congrArg Except.ok (State.foldl_fireTrigger_regs (s.writeStorage _ _) _ _ _ _ rg)

/-- What a successful write leaves alone, whatever target it reached. -/
theorem memWrite_frame {a : Word} {n : Width} {v : Word} {t : State} (h : memWrite a n v s = .ok t) :
    t.regs = s.regs ∧ t.pc = s.pc ∧ t.hartState = s.hartState ∧ t.faultRecord = s.faultRecord
      ∧ t.cfg = s.cfg := by
  rcases memWrite_cases s a n v with ⟨-, e⟩ | ⟨-, e⟩ | ⟨p, -, -, -, e⟩ | ⟨p, regs, r, -, -, -, -, e⟩ <;>
    rw [e] at h <;> cases h <;> simp

/-- A write reaches memory or a peripheral, and the other is left alone. -/
theorem memWrite_ok_cases {a : Word} {n : Width} {v : Word} {t : State} (h : memWrite a n v s = .ok t) :
    (∃ p, aligned a n = true ∧ Config.lookup s.cfg a.toNat n = some p ∧ p.target = .memory
        ∧ t = s.regionWrite a.toNat n v)
    ∨ (∃ p regs r, aligned a n = true ∧ Config.lookup s.cfg a.toNat n = some p ∧ p.target = .peripheral regs
        ∧ findReg regs (a.toNat - p.base) n = some r ∧ t = s.periphWrite p.base r v) := by
  rcases memWrite_cases s a n v with ⟨-, e⟩ | ⟨-, e⟩ | ⟨p, h1, h2, h3, e⟩ | ⟨p, regs, r, h1, h2, h3, h4, e⟩
  · rw [e] at h; cases h
  · rw [e] at h; cases h
  · rw [e] at h; cases h; exact .inl ⟨p, h1, h2, h3, rfl⟩
  · rw [e] at h; cases h; exact .inr ⟨p, regs, r, h1, h2, h3, h4, rfl⟩

/-- A width-`n` write carries `v[8n-1:0]` only (R79). -/
theorem memWrite_trunc (a : Word) (n : Width) (v : Word) : memWrite a n (n.trunc v) s = memWrite a n v s := by
  have hp : ∀ base (r : PeriphReg), r.width = n → s.periphWrite base r (n.trunc v) = s.periphWrite base r v := by
    rintro base r rfl
    simp [State.periphWrite, State.periphNew]
  have hb : ∀ i < n.bytes, byteOf (n.trunc v) i = byteOf v i := by
    intro i hi
    apply BitVec.eq_of_toNat_eq
    rw [byteOf_toNat, byteOf_toNat, Width.trunc_toNat]
    have := v.isLt
    cases n <;> simp only [Width.bytes] at hi ⊢
    · obtain rfl : i = 0 := by omega
      omega
    · obtain rfl | rfl : i = 0 ∨ i = 1 := by omega
      all_goals omega
    · rw [show 8 * 4 = 32 from rfl, Nat.mod_eq_of_lt this]
  have hr : s.regionWrite a.toNat n (n.trunc v) = s.regionWrite a.toNat n v := by
    cases n <;> simp only [State.regionWrite, Width.bytes] at hb ⊢
    · rw [hb 0 (by omega)]
    · rw [hb 0 (by omega), hb 1 (by omega)]
    · rw [hb 0 (by omega), hb 1 (by omega), hb 2 (by omega), hb 3 (by omega)]
  unfold memWrite
  split
  · split
    · rfl
    · split
      · rw [hr]
      · split
        · rfl
        · rename_i hf
          rw [hp _ _ (findReg_some hf).2.2]
  · rfl

end Sys2Proof.Machine
end

