-- ==== Sys2Proof/Laws/Decode.lean ====
section
/-! SUPPORT. The fields of an encoded word, format by format, its immediate, and the opcode-table masks read
as fields. -/

namespace Sys2Proof

/-! ### Fields and encoded words as arithmetic -/

theorem opcodeOf_toNat (w : Word) : (opcodeOf w).toNat = w.toNat % 2 ^ 7 := by
  simp [opcodeOf, BitVec.extractLsb'_toNat, Nat.shiftRight_eq_div_pow]

theorem rdOf_toNat (w : Word) : (rdOf w).toNat = w.toNat / 2 ^ 7 % 2 ^ 5 := by
  simp [rdOf, BitVec.extractLsb'_toNat, Nat.shiftRight_eq_div_pow]

theorem funct3Of_toNat (w : Word) : (funct3Of w).toNat = w.toNat / 2 ^ 12 % 2 ^ 3 := by
  simp [funct3Of, BitVec.extractLsb'_toNat, Nat.shiftRight_eq_div_pow]

theorem rs1Of_toNat (w : Word) : (rs1Of w).toNat = w.toNat / 2 ^ 15 % 2 ^ 5 := by
  simp [rs1Of, BitVec.extractLsb'_toNat, Nat.shiftRight_eq_div_pow]

theorem rs2Of_toNat (w : Word) : (rs2Of w).toNat = w.toNat / 2 ^ 20 % 2 ^ 5 := by
  simp [rs2Of, BitVec.extractLsb'_toNat, Nat.shiftRight_eq_div_pow]

theorem funct7Of_toNat (w : Word) : (funct7Of w).toNat = w.toNat / 2 ^ 25 % 2 ^ 7 := by
  simp [funct7Of, BitVec.extractLsb'_toNat, Nat.shiftRight_eq_div_pow]

theorem shamtOf_toNat (w : Word) : (shamtOf w).toNat = w.toNat / 2 ^ 20 % 2 ^ 5 := by
  simp [shamtOf, BitVec.extractLsb'_toNat, Nat.shiftRight_eq_div_pow]

/-- The fields of `encR` do not overlap: the word is their sum. -/
theorem encR_toNat (f7 : BitVec 7) (f3 : BitVec 3) (op : BitVec 7) (rd rs1 rs2 : RegIdx) :
    (encR f7 f3 op rd rs1 rs2).toNat = f7.toNat * 2 ^ 25 + (rs2.toNat * 2 ^ 20 + (rs1.toNat * 2 ^ 15 + (f3.toNat * 2 ^ 12 + (rd.toNat * 2 ^ 7 + (op.toNat))))) := by
  have h0 := f7.isLt
  have h1 := rs2.isLt
  have h2 := rs1.isLt
  have h3 := f3.isLt
  have h4 := rd.isLt
  have h5 := op.isLt
  have e0 : (place op 0).toNat = op.toNat := by rw [place_toNat _ (by omega)]; simp
  have e1 := place_or_toNat rd (place op 0) (lo := 7) (by omega) (by omega)
  have e2 := place_or_toNat f3 (place rd 7 ||| (place op 0)) (lo := 12) (by omega) (by omega)
  have e3 := place_or_toNat rs1 (place f3 12 ||| (place rd 7 ||| (place op 0))) (lo := 15) (by omega) (by omega)
  have e4 := place_or_toNat rs2 (place rs1 15 ||| (place f3 12 ||| (place rd 7 ||| (place op 0)))) (lo := 20) (by omega) (by omega)
  have e5 := place_or_toNat f7 (place rs2 20 ||| (place rs1 15 ||| (place f3 12 ||| (place rd 7 ||| (place op 0))))) (lo := 25) (by omega) (by omega)
  simp only [encR, BitVec.or_assoc]
  omega

@[simp] theorem opcodeOf_encR (f7 : BitVec 7) (f3 : BitVec 3) (op : BitVec 7) (rd rs1 rs2 : RegIdx) :
    opcodeOf (encR f7 f3 op rd rs1 rs2) = op := by
  apply BitVec.eq_of_toNat_eq
  have h0 := f7.isLt
  have h1 := rs2.isLt
  have h2 := rs1.isLt
  have h3 := f3.isLt
  have h4 := rd.isLt
  have h5 := op.isLt
  rw [opcodeOf_toNat, encR_toNat]
  omega

@[simp] theorem funct3Of_encR (f7 : BitVec 7) (f3 : BitVec 3) (op : BitVec 7) (rd rs1 rs2 : RegIdx) :
    funct3Of (encR f7 f3 op rd rs1 rs2) = f3 := by
  apply BitVec.eq_of_toNat_eq
  have h0 := f7.isLt
  have h1 := rs2.isLt
  have h2 := rs1.isLt
  have h3 := f3.isLt
  have h4 := rd.isLt
  have h5 := op.isLt
  rw [funct3Of_toNat, encR_toNat]
  omega

@[simp] theorem funct7Of_encR (f7 : BitVec 7) (f3 : BitVec 3) (op : BitVec 7) (rd rs1 rs2 : RegIdx) :
    funct7Of (encR f7 f3 op rd rs1 rs2) = f7 := by
  apply BitVec.eq_of_toNat_eq
  have h0 := f7.isLt
  have h1 := rs2.isLt
  have h2 := rs1.isLt
  have h3 := f3.isLt
  have h4 := rd.isLt
  have h5 := op.isLt
  rw [funct7Of_toNat, encR_toNat]
  omega

@[simp] theorem rdOf_encR (f7 : BitVec 7) (f3 : BitVec 3) (op : BitVec 7) (rd rs1 rs2 : RegIdx) :
    rdOf (encR f7 f3 op rd rs1 rs2) = rd := by
  apply BitVec.eq_of_toNat_eq
  have h0 := f7.isLt
  have h1 := rs2.isLt
  have h2 := rs1.isLt
  have h3 := f3.isLt
  have h4 := rd.isLt
  have h5 := op.isLt
  rw [rdOf_toNat, encR_toNat]
  omega

@[simp] theorem rs1Of_encR (f7 : BitVec 7) (f3 : BitVec 3) (op : BitVec 7) (rd rs1 rs2 : RegIdx) :
    rs1Of (encR f7 f3 op rd rs1 rs2) = rs1 := by
  apply BitVec.eq_of_toNat_eq
  have h0 := f7.isLt
  have h1 := rs2.isLt
  have h2 := rs1.isLt
  have h3 := f3.isLt
  have h4 := rd.isLt
  have h5 := op.isLt
  rw [rs1Of_toNat, encR_toNat]
  omega

@[simp] theorem rs2Of_encR (f7 : BitVec 7) (f3 : BitVec 3) (op : BitVec 7) (rd rs1 rs2 : RegIdx) :
    rs2Of (encR f7 f3 op rd rs1 rs2) = rs2 := by
  apply BitVec.eq_of_toNat_eq
  have h0 := f7.isLt
  have h1 := rs2.isLt
  have h2 := rs1.isLt
  have h3 := f3.isLt
  have h4 := rd.isLt
  have h5 := op.isLt
  rw [rs2Of_toNat, encR_toNat]
  omega

@[simp] theorem shamtOf_encR (f7 : BitVec 7) (f3 : BitVec 3) (op : BitVec 7) (rd rs1 rs2 : RegIdx) :
    shamtOf (encR f7 f3 op rd rs1 rs2) = rs2 := by
  apply BitVec.eq_of_toNat_eq
  have h0 := f7.isLt
  have h1 := rs2.isLt
  have h2 := rs1.isLt
  have h3 := f3.isLt
  have h4 := rd.isLt
  have h5 := op.isLt
  rw [shamtOf_toNat, encR_toNat]
  omega

/-- The fields of `encI` do not overlap: the word is their sum. -/
theorem encI_toNat (f3 : BitVec 3) (op : BitVec 7) (rd rs1 : RegIdx) (imm : Word) :
    (encI f3 op rd rs1 imm).toNat = (imm.extractLsb' 0 12).toNat * 2 ^ 20 + (rs1.toNat * 2 ^ 15 + (f3.toNat * 2 ^ 12 + (rd.toNat * 2 ^ 7 + (op.toNat)))) := by
  have h0 := (imm.extractLsb' 0 12).isLt
  have h1 := rs1.isLt
  have h2 := f3.isLt
  have h3 := rd.isLt
  have h4 := op.isLt
  have e0 : (place op 0).toNat = op.toNat := by rw [place_toNat _ (by omega)]; simp
  have e1 := place_or_toNat rd (place op 0) (lo := 7) (by omega) (by omega)
  have e2 := place_or_toNat f3 (place rd 7 ||| (place op 0)) (lo := 12) (by omega) (by omega)
  have e3 := place_or_toNat rs1 (place f3 12 ||| (place rd 7 ||| (place op 0))) (lo := 15) (by omega) (by omega)
  have e4 := place_or_toNat (imm.extractLsb' 0 12) (place rs1 15 ||| (place f3 12 ||| (place rd 7 ||| (place op 0)))) (lo := 20) (by omega) (by omega)
  simp only [encI, BitVec.or_assoc]
  omega

@[simp] theorem opcodeOf_encI (f3 : BitVec 3) (op : BitVec 7) (rd rs1 : RegIdx) (imm : Word) :
    opcodeOf (encI f3 op rd rs1 imm) = op := by
  apply BitVec.eq_of_toNat_eq
  have h0 := (imm.extractLsb' 0 12).isLt
  have h1 := rs1.isLt
  have h2 := f3.isLt
  have h3 := rd.isLt
  have h4 := op.isLt
  rw [opcodeOf_toNat, encI_toNat]
  omega

@[simp] theorem funct3Of_encI (f3 : BitVec 3) (op : BitVec 7) (rd rs1 : RegIdx) (imm : Word) :
    funct3Of (encI f3 op rd rs1 imm) = f3 := by
  apply BitVec.eq_of_toNat_eq
  have h0 := (imm.extractLsb' 0 12).isLt
  have h1 := rs1.isLt
  have h2 := f3.isLt
  have h3 := rd.isLt
  have h4 := op.isLt
  rw [funct3Of_toNat, encI_toNat]
  omega

@[simp] theorem rdOf_encI (f3 : BitVec 3) (op : BitVec 7) (rd rs1 : RegIdx) (imm : Word) :
    rdOf (encI f3 op rd rs1 imm) = rd := by
  apply BitVec.eq_of_toNat_eq
  have h0 := (imm.extractLsb' 0 12).isLt
  have h1 := rs1.isLt
  have h2 := f3.isLt
  have h3 := rd.isLt
  have h4 := op.isLt
  rw [rdOf_toNat, encI_toNat]
  omega

@[simp] theorem rs1Of_encI (f3 : BitVec 3) (op : BitVec 7) (rd rs1 : RegIdx) (imm : Word) :
    rs1Of (encI f3 op rd rs1 imm) = rs1 := by
  apply BitVec.eq_of_toNat_eq
  have h0 := (imm.extractLsb' 0 12).isLt
  have h1 := rs1.isLt
  have h2 := f3.isLt
  have h3 := rd.isLt
  have h4 := op.isLt
  rw [rs1Of_toNat, encI_toNat]
  omega

/-- The fields of `encS` do not overlap: the word is their sum. -/
theorem encS_toNat (f3 : BitVec 3) (op : BitVec 7) (rs1 rs2 : RegIdx) (imm : Word) :
    (encS f3 op rs1 rs2 imm).toNat = (imm.extractLsb' 5 7).toNat * 2 ^ 25 + (rs2.toNat * 2 ^ 20 + (rs1.toNat * 2 ^ 15 + (f3.toNat * 2 ^ 12 + ((imm.extractLsb' 0 5).toNat * 2 ^ 7 + (op.toNat))))) := by
  have h0 := (imm.extractLsb' 5 7).isLt
  have h1 := rs2.isLt
  have h2 := rs1.isLt
  have h3 := f3.isLt
  have h4 := (imm.extractLsb' 0 5).isLt
  have h5 := op.isLt
  have e0 : (place op 0).toNat = op.toNat := by rw [place_toNat _ (by omega)]; simp
  have e1 := place_or_toNat (imm.extractLsb' 0 5) (place op 0) (lo := 7) (by omega) (by omega)
  have e2 := place_or_toNat f3 (place (imm.extractLsb' 0 5) 7 ||| (place op 0)) (lo := 12) (by omega) (by omega)
  have e3 := place_or_toNat rs1 (place f3 12 ||| (place (imm.extractLsb' 0 5) 7 ||| (place op 0))) (lo := 15) (by omega) (by omega)
  have e4 := place_or_toNat rs2 (place rs1 15 ||| (place f3 12 ||| (place (imm.extractLsb' 0 5) 7 ||| (place op 0)))) (lo := 20) (by omega) (by omega)
  have e5 := place_or_toNat (imm.extractLsb' 5 7) (place rs2 20 ||| (place rs1 15 ||| (place f3 12 ||| (place (imm.extractLsb' 0 5) 7 ||| (place op 0))))) (lo := 25) (by omega) (by omega)
  simp only [encS, BitVec.or_assoc]
  omega

@[simp] theorem opcodeOf_encS (f3 : BitVec 3) (op : BitVec 7) (rs1 rs2 : RegIdx) (imm : Word) :
    opcodeOf (encS f3 op rs1 rs2 imm) = op := by
  apply BitVec.eq_of_toNat_eq
  have h0 := (imm.extractLsb' 5 7).isLt
  have h1 := rs2.isLt
  have h2 := rs1.isLt
  have h3 := f3.isLt
  have h4 := (imm.extractLsb' 0 5).isLt
  have h5 := op.isLt
  rw [opcodeOf_toNat, encS_toNat]
  omega

@[simp] theorem funct3Of_encS (f3 : BitVec 3) (op : BitVec 7) (rs1 rs2 : RegIdx) (imm : Word) :
    funct3Of (encS f3 op rs1 rs2 imm) = f3 := by
  apply BitVec.eq_of_toNat_eq
  have h0 := (imm.extractLsb' 5 7).isLt
  have h1 := rs2.isLt
  have h2 := rs1.isLt
  have h3 := f3.isLt
  have h4 := (imm.extractLsb' 0 5).isLt
  have h5 := op.isLt
  rw [funct3Of_toNat, encS_toNat]
  omega

@[simp] theorem rs1Of_encS (f3 : BitVec 3) (op : BitVec 7) (rs1 rs2 : RegIdx) (imm : Word) :
    rs1Of (encS f3 op rs1 rs2 imm) = rs1 := by
  apply BitVec.eq_of_toNat_eq
  have h0 := (imm.extractLsb' 5 7).isLt
  have h1 := rs2.isLt
  have h2 := rs1.isLt
  have h3 := f3.isLt
  have h4 := (imm.extractLsb' 0 5).isLt
  have h5 := op.isLt
  rw [rs1Of_toNat, encS_toNat]
  omega

@[simp] theorem rs2Of_encS (f3 : BitVec 3) (op : BitVec 7) (rs1 rs2 : RegIdx) (imm : Word) :
    rs2Of (encS f3 op rs1 rs2 imm) = rs2 := by
  apply BitVec.eq_of_toNat_eq
  have h0 := (imm.extractLsb' 5 7).isLt
  have h1 := rs2.isLt
  have h2 := rs1.isLt
  have h3 := f3.isLt
  have h4 := (imm.extractLsb' 0 5).isLt
  have h5 := op.isLt
  rw [rs2Of_toNat, encS_toNat]
  omega

/-- The fields of `encB` do not overlap: the word is their sum. -/
theorem encB_toNat (f3 : BitVec 3) (op : BitVec 7) (rs1 rs2 : RegIdx) (imm : Word) :
    (encB f3 op rs1 rs2 imm).toNat = (imm.extractLsb' 12 1).toNat * 2 ^ 31 + ((imm.extractLsb' 5 6).toNat * 2 ^ 25 + (rs2.toNat * 2 ^ 20 + (rs1.toNat * 2 ^ 15 + (f3.toNat * 2 ^ 12 + ((imm.extractLsb' 1 4).toNat * 2 ^ 8 + ((imm.extractLsb' 11 1).toNat * 2 ^ 7 + (op.toNat))))))) := by
  have h0 := (imm.extractLsb' 12 1).isLt
  have h1 := (imm.extractLsb' 5 6).isLt
  have h2 := rs2.isLt
  have h3 := rs1.isLt
  have h4 := f3.isLt
  have h5 := (imm.extractLsb' 1 4).isLt
  have h6 := (imm.extractLsb' 11 1).isLt
  have h7 := op.isLt
  have e0 : (place op 0).toNat = op.toNat := by rw [place_toNat _ (by omega)]; simp
  have e1 := place_or_toNat (imm.extractLsb' 11 1) (place op 0) (lo := 7) (by omega) (by omega)
  have e2 := place_or_toNat (imm.extractLsb' 1 4) (place (imm.extractLsb' 11 1) 7 ||| (place op 0)) (lo := 8) (by omega) (by omega)
  have e3 := place_or_toNat f3 (place (imm.extractLsb' 1 4) 8 ||| (place (imm.extractLsb' 11 1) 7 ||| (place op 0))) (lo := 12) (by omega) (by omega)
  have e4 := place_or_toNat rs1 (place f3 12 ||| (place (imm.extractLsb' 1 4) 8 ||| (place (imm.extractLsb' 11 1) 7 ||| (place op 0)))) (lo := 15) (by omega) (by omega)
  have e5 := place_or_toNat rs2 (place rs1 15 ||| (place f3 12 ||| (place (imm.extractLsb' 1 4) 8 ||| (place (imm.extractLsb' 11 1) 7 ||| (place op 0))))) (lo := 20) (by omega) (by omega)
  have e6 := place_or_toNat (imm.extractLsb' 5 6) (place rs2 20 ||| (place rs1 15 ||| (place f3 12 ||| (place (imm.extractLsb' 1 4) 8 ||| (place (imm.extractLsb' 11 1) 7 ||| (place op 0)))))) (lo := 25) (by omega) (by omega)
  have e7 := place_or_toNat (imm.extractLsb' 12 1) (place (imm.extractLsb' 5 6) 25 ||| (place rs2 20 ||| (place rs1 15 ||| (place f3 12 ||| (place (imm.extractLsb' 1 4) 8 ||| (place (imm.extractLsb' 11 1) 7 ||| (place op 0))))))) (lo := 31) (by omega) (by omega)
  simp only [encB, BitVec.or_assoc]
  omega

@[simp] theorem opcodeOf_encB (f3 : BitVec 3) (op : BitVec 7) (rs1 rs2 : RegIdx) (imm : Word) :
    opcodeOf (encB f3 op rs1 rs2 imm) = op := by
  apply BitVec.eq_of_toNat_eq
  have h0 := (imm.extractLsb' 12 1).isLt
  have h1 := (imm.extractLsb' 5 6).isLt
  have h2 := rs2.isLt
  have h3 := rs1.isLt
  have h4 := f3.isLt
  have h5 := (imm.extractLsb' 1 4).isLt
  have h6 := (imm.extractLsb' 11 1).isLt
  have h7 := op.isLt
  rw [opcodeOf_toNat, encB_toNat]
  omega

@[simp] theorem funct3Of_encB (f3 : BitVec 3) (op : BitVec 7) (rs1 rs2 : RegIdx) (imm : Word) :
    funct3Of (encB f3 op rs1 rs2 imm) = f3 := by
  apply BitVec.eq_of_toNat_eq
  have h0 := (imm.extractLsb' 12 1).isLt
  have h1 := (imm.extractLsb' 5 6).isLt
  have h2 := rs2.isLt
  have h3 := rs1.isLt
  have h4 := f3.isLt
  have h5 := (imm.extractLsb' 1 4).isLt
  have h6 := (imm.extractLsb' 11 1).isLt
  have h7 := op.isLt
  rw [funct3Of_toNat, encB_toNat]
  omega

@[simp] theorem rs1Of_encB (f3 : BitVec 3) (op : BitVec 7) (rs1 rs2 : RegIdx) (imm : Word) :
    rs1Of (encB f3 op rs1 rs2 imm) = rs1 := by
  apply BitVec.eq_of_toNat_eq
  have h0 := (imm.extractLsb' 12 1).isLt
  have h1 := (imm.extractLsb' 5 6).isLt
  have h2 := rs2.isLt
  have h3 := rs1.isLt
  have h4 := f3.isLt
  have h5 := (imm.extractLsb' 1 4).isLt
  have h6 := (imm.extractLsb' 11 1).isLt
  have h7 := op.isLt
  rw [rs1Of_toNat, encB_toNat]
  omega

@[simp] theorem rs2Of_encB (f3 : BitVec 3) (op : BitVec 7) (rs1 rs2 : RegIdx) (imm : Word) :
    rs2Of (encB f3 op rs1 rs2 imm) = rs2 := by
  apply BitVec.eq_of_toNat_eq
  have h0 := (imm.extractLsb' 12 1).isLt
  have h1 := (imm.extractLsb' 5 6).isLt
  have h2 := rs2.isLt
  have h3 := rs1.isLt
  have h4 := f3.isLt
  have h5 := (imm.extractLsb' 1 4).isLt
  have h6 := (imm.extractLsb' 11 1).isLt
  have h7 := op.isLt
  rw [rs2Of_toNat, encB_toNat]
  omega

/-- The fields of `encU` do not overlap: the word is their sum. -/
theorem encU_toNat (op : BitVec 7) (rd : RegIdx) (imm : Word) :
    (encU op rd imm).toNat = (imm.extractLsb' 12 20).toNat * 2 ^ 12 + (rd.toNat * 2 ^ 7 + (op.toNat)) := by
  have h0 := (imm.extractLsb' 12 20).isLt
  have h1 := rd.isLt
  have h2 := op.isLt
  have e0 : (place op 0).toNat = op.toNat := by rw [place_toNat _ (by omega)]; simp
  have e1 := place_or_toNat rd (place op 0) (lo := 7) (by omega) (by omega)
  have e2 := place_or_toNat (imm.extractLsb' 12 20) (place rd 7 ||| (place op 0)) (lo := 12) (by omega) (by omega)
  simp only [encU, BitVec.or_assoc]
  omega

@[simp] theorem opcodeOf_encU (op : BitVec 7) (rd : RegIdx) (imm : Word) :
    opcodeOf (encU op rd imm) = op := by
  apply BitVec.eq_of_toNat_eq
  have h0 := (imm.extractLsb' 12 20).isLt
  have h1 := rd.isLt
  have h2 := op.isLt
  rw [opcodeOf_toNat, encU_toNat]
  omega

@[simp] theorem rdOf_encU (op : BitVec 7) (rd : RegIdx) (imm : Word) :
    rdOf (encU op rd imm) = rd := by
  apply BitVec.eq_of_toNat_eq
  have h0 := (imm.extractLsb' 12 20).isLt
  have h1 := rd.isLt
  have h2 := op.isLt
  rw [rdOf_toNat, encU_toNat]
  omega

/-- The fields of `encJ` do not overlap: the word is their sum. -/
theorem encJ_toNat (op : BitVec 7) (rd : RegIdx) (imm : Word) :
    (encJ op rd imm).toNat = (imm.extractLsb' 20 1).toNat * 2 ^ 31 + ((imm.extractLsb' 1 10).toNat * 2 ^ 21 + ((imm.extractLsb' 11 1).toNat * 2 ^ 20 + ((imm.extractLsb' 12 8).toNat * 2 ^ 12 + (rd.toNat * 2 ^ 7 + (op.toNat))))) := by
  have h0 := (imm.extractLsb' 20 1).isLt
  have h1 := (imm.extractLsb' 1 10).isLt
  have h2 := (imm.extractLsb' 11 1).isLt
  have h3 := (imm.extractLsb' 12 8).isLt
  have h4 := rd.isLt
  have h5 := op.isLt
  have e0 : (place op 0).toNat = op.toNat := by rw [place_toNat _ (by omega)]; simp
  have e1 := place_or_toNat rd (place op 0) (lo := 7) (by omega) (by omega)
  have e2 := place_or_toNat (imm.extractLsb' 12 8) (place rd 7 ||| (place op 0)) (lo := 12) (by omega) (by omega)
  have e3 := place_or_toNat (imm.extractLsb' 11 1) (place (imm.extractLsb' 12 8) 12 ||| (place rd 7 ||| (place op 0))) (lo := 20) (by omega) (by omega)
  have e4 := place_or_toNat (imm.extractLsb' 1 10) (place (imm.extractLsb' 11 1) 20 ||| (place (imm.extractLsb' 12 8) 12 ||| (place rd 7 ||| (place op 0)))) (lo := 21) (by omega) (by omega)
  have e5 := place_or_toNat (imm.extractLsb' 20 1) (place (imm.extractLsb' 1 10) 21 ||| (place (imm.extractLsb' 11 1) 20 ||| (place (imm.extractLsb' 12 8) 12 ||| (place rd 7 ||| (place op 0))))) (lo := 31) (by omega) (by omega)
  simp only [encJ, BitVec.or_assoc]
  omega

@[simp] theorem opcodeOf_encJ (op : BitVec 7) (rd : RegIdx) (imm : Word) :
    opcodeOf (encJ op rd imm) = op := by
  apply BitVec.eq_of_toNat_eq
  have h0 := (imm.extractLsb' 20 1).isLt
  have h1 := (imm.extractLsb' 1 10).isLt
  have h2 := (imm.extractLsb' 11 1).isLt
  have h3 := (imm.extractLsb' 12 8).isLt
  have h4 := rd.isLt
  have h5 := op.isLt
  rw [opcodeOf_toNat, encJ_toNat]
  omega

@[simp] theorem rdOf_encJ (op : BitVec 7) (rd : RegIdx) (imm : Word) :
    rdOf (encJ op rd imm) = rd := by
  apply BitVec.eq_of_toNat_eq
  have h0 := (imm.extractLsb' 20 1).isLt
  have h1 := (imm.extractLsb' 1 10).isLt
  have h2 := (imm.extractLsb' 11 1).isLt
  have h3 := (imm.extractLsb' 12 8).isLt
  have h4 := rd.isLt
  have h5 := op.isLt
  rw [rdOf_toNat, encJ_toNat]
  omega

/-! ### Immediates -/

theorem sext_toInt {n : Nat} (v : Word) (h : n ≤ 32) : (sext n v).toInt = (v.toNat : Int).bmod (2 ^ n) := by
  rw [sext, BitVec.toInt_signExtend_of_le h, BitVec.toInt_setWidth]

/-- R9: sign extension depends on the low `n` bits only. -/
theorem sext_congr {n : Nat} {v w : Word} (h : v.toNat % 2 ^ n = w.toNat % 2 ^ n) : sext n v = sext n w := by
  unfold sext
  congr 1
  apply BitVec.eq_of_toNat_eq
  simpa using h

/-- A word in the signed range of `n` bits is its own sign extension. -/
theorem sext_of_range {n : Nat} {v : Word} (hn : 1 ≤ n) (h : n ≤ 32) (lo : -(2 ^ (n - 1) : Int) ≤ v.toInt)
    (hi : v.toInt < 2 ^ (n - 1)) : sext n v = v := by
  apply BitVec.eq_of_toInt_eq
  rw [sext_toInt v h, ← Int.bmod_bmod_of_dvd (m := 2 ^ 32) (n := 2 ^ n) (by exact_mod_cast Nat.pow_dvd_pow 2 h)]
  have e : ((2 ^ n : Nat) : Int) = 2 * 2 ^ (n - 1) := by
    push_cast; rw [← pow_succ']; congr 1; omega
  have e' : (v.toNat : Int).bmod (2 ^ 32) = v.toInt := (BitVec.toInt_eq_toNat_bmod v).symm
  rw [e']
  exact Int.bmod_eq_of_le (by omega) (by omega)

/-- R149: the I-format immediate as the sum of its fields. -/
theorem immI_eq (w : Word) : immI w = sext 12 (BitVec.ofNat 32
    (w.toNat / 2 ^ 20 % 2 ^ 12)) := by
  refine sext_congr ?_
  have h0 : (w.extractLsb' 20 12).toNat = w.toNat / 2 ^ 20 % 2 ^ 12 := by
    simp [BitVec.extractLsb'_toNat, Nat.shiftRight_eq_div_pow]
  have e0 := place_toNat (w.extractLsb' 20 12) (lo := 0) (by omega)
  simp only [BitVec.toNat_ofNat]
  omega

/-- R149: the immediate of an encoded I-format word. -/
theorem immI_encI (f3 : BitVec 3) (op : BitVec 7) (rd rs1 : RegIdx) (imm : Word) (h : immFits12 imm = true) :
    immI (encI f3 op rd rs1 imm) = imm := by
  simp only [immFits12, Bool.and_eq_true, decide_eq_true_eq] at h
  refine Eq.trans ?_ (sext_of_range (n := 12) (v := imm) (by omega) (by omega) (by omega) (by omega))
  rw [immI_eq]
  refine sext_congr ?_
  have hw := encI_toNat f3 op rd rs1 imm
  generalize encI f3 op rd rs1 imm = w at hw
  have h0 := f3.isLt
  have h1 := op.isLt
  have h2 := rd.isLt
  have h3 := rs1.isLt
  have k0 := (imm.extractLsb' 0 12).isLt
  have f0 : w.toNat / 2 ^ 20 % 2 ^ 12 = (imm.extractLsb' 0 12).toNat := by omega
  rw [f0]
  simp only [BitVec.extractLsb'_toNat, Nat.shiftRight_eq_div_pow, Nat.pow_zero, Nat.div_one, BitVec.toNat_ofNat]
  omega

/-- R150: the S-format immediate as the sum of its fields. -/
theorem immS_eq (w : Word) : immS w = sext 12 (BitVec.ofNat 32
    (w.toNat / 2 ^ 25 % 2 ^ 7 * 2 ^ 5 + w.toNat / 2 ^ 7 % 2 ^ 5)) := by
  refine sext_congr ?_
  have h0 : (w.extractLsb' 7 5).toNat = w.toNat / 2 ^ 7 % 2 ^ 5 := by
    simp [BitVec.extractLsb'_toNat, Nat.shiftRight_eq_div_pow]
  have e0 := place_toNat (w.extractLsb' 7 5) (lo := 0) (by omega)
  have h1 : (w.extractLsb' 25 7).toNat = w.toNat / 2 ^ 25 % 2 ^ 7 := by
    simp [BitVec.extractLsb'_toNat, Nat.shiftRight_eq_div_pow]
  have e1 := place_or_toNat (w.extractLsb' 25 7) (place (w.extractLsb' 7 5) 0) (lo := 5) (by omega) (by omega)
  simp only [BitVec.toNat_ofNat]
  omega

/-- R150: the immediate of an encoded S-format word. -/
theorem immS_encS (f3 : BitVec 3) (op : BitVec 7) (rs1 rs2 : RegIdx) (imm : Word) (h : immFits12 imm = true) :
    immS (encS f3 op rs1 rs2 imm) = imm := by
  simp only [immFits12, Bool.and_eq_true, decide_eq_true_eq] at h
  refine Eq.trans ?_ (sext_of_range (n := 12) (v := imm) (by omega) (by omega) (by omega) (by omega))
  rw [immS_eq]
  refine sext_congr ?_
  have hw := encS_toNat f3 op rs1 rs2 imm
  generalize encS f3 op rs1 rs2 imm = w at hw
  have h0 := f3.isLt
  have h1 := op.isLt
  have h2 := rs1.isLt
  have h3 := rs2.isLt
  have k0 := (imm.extractLsb' 5 7).isLt
  have k1 := (imm.extractLsb' 0 5).isLt
  have f0 : w.toNat / 2 ^ 25 % 2 ^ 7 = (imm.extractLsb' 5 7).toNat := by omega
  have f1 : w.toNat / 2 ^ 7 % 2 ^ 5 = (imm.extractLsb' 0 5).toNat := by omega
  rw [f0, f1]
  simp only [BitVec.extractLsb'_toNat, Nat.shiftRight_eq_div_pow, Nat.pow_zero, Nat.div_one, BitVec.toNat_ofNat]
  omega

/-- R151: the B-format immediate as the sum of its fields. -/
theorem immB_eq (w : Word) : immB w = sext 13 (BitVec.ofNat 32
    (w.toNat / 2 ^ 31 % 2 ^ 1 * 2 ^ 12 + w.toNat / 2 ^ 7 % 2 ^ 1 * 2 ^ 11 + w.toNat / 2 ^ 25 % 2 ^ 6 * 2 ^ 5 + w.toNat / 2 ^ 8 % 2 ^ 4 * 2 ^ 1)) := by
  refine sext_congr ?_
  have h0 : (w.extractLsb' 8 4).toNat = w.toNat / 2 ^ 8 % 2 ^ 4 := by
    simp [BitVec.extractLsb'_toNat, Nat.shiftRight_eq_div_pow]
  have e0 := place_toNat (w.extractLsb' 8 4) (lo := 1) (by omega)
  have h1 : (w.extractLsb' 25 6).toNat = w.toNat / 2 ^ 25 % 2 ^ 6 := by
    simp [BitVec.extractLsb'_toNat, Nat.shiftRight_eq_div_pow]
  have e1 := place_or_toNat (w.extractLsb' 25 6) (place (w.extractLsb' 8 4) 1) (lo := 5) (by omega) (by omega)
  have h2 : (w.extractLsb' 7 1).toNat = w.toNat / 2 ^ 7 % 2 ^ 1 := by
    simp [BitVec.extractLsb'_toNat, Nat.shiftRight_eq_div_pow]
  have e2 := place_or_toNat (w.extractLsb' 7 1) (place (w.extractLsb' 25 6) 5 ||| (place (w.extractLsb' 8 4) 1)) (lo := 11) (by omega) (by omega)
  have h3 : (w.extractLsb' 31 1).toNat = w.toNat / 2 ^ 31 % 2 ^ 1 := by
    simp [BitVec.extractLsb'_toNat, Nat.shiftRight_eq_div_pow]
  have e3 := place_or_toNat (w.extractLsb' 31 1) (place (w.extractLsb' 7 1) 11 ||| (place (w.extractLsb' 25 6) 5 ||| (place (w.extractLsb' 8 4) 1))) (lo := 12) (by omega) (by omega)
  simp only [BitVec.or_assoc, BitVec.toNat_ofNat]
  omega

/-- R151: the immediate of an encoded B-format word. -/
theorem immB_encB (f3 : BitVec 3) (op : BitVec 7) (rs1 rs2 : RegIdx) (imm : Word) (h : immFitsB imm = true) :
    immB (encB f3 op rs1 rs2 imm) = imm := by
  simp only [immFitsB, Bool.and_eq_true, decide_eq_true_eq] at h
  refine Eq.trans ?_ (sext_of_range (n := 13) (v := imm) (by omega) (by omega) (by omega) (by omega))
  rw [immB_eq]
  refine sext_congr ?_
  have hw := encB_toNat f3 op rs1 rs2 imm
  generalize encB f3 op rs1 rs2 imm = w at hw
  have h0 := f3.isLt
  have h1 := op.isLt
  have h2 := rs1.isLt
  have h3 := rs2.isLt
  have k0 := (imm.extractLsb' 12 1).isLt
  have k1 := (imm.extractLsb' 11 1).isLt
  have k2 := (imm.extractLsb' 5 6).isLt
  have k3 := (imm.extractLsb' 1 4).isLt
  have f0 : w.toNat / 2 ^ 31 % 2 ^ 1 = (imm.extractLsb' 12 1).toNat := by omega
  have f1 : w.toNat / 2 ^ 7 % 2 ^ 1 = (imm.extractLsb' 11 1).toNat := by omega
  have f2 : w.toNat / 2 ^ 25 % 2 ^ 6 = (imm.extractLsb' 5 6).toNat := by omega
  have f3 : w.toNat / 2 ^ 8 % 2 ^ 4 = (imm.extractLsb' 1 4).toNat := by omega
  rw [f0, f1, f2, f3]
  simp only [BitVec.extractLsb'_toNat, Nat.shiftRight_eq_div_pow, BitVec.toNat_ofNat]
  omega

/-- R153: the J-format immediate as the sum of its fields. -/
theorem immJ_eq (w : Word) : immJ w = sext 21 (BitVec.ofNat 32
    (w.toNat / 2 ^ 31 % 2 ^ 1 * 2 ^ 20 + w.toNat / 2 ^ 12 % 2 ^ 8 * 2 ^ 12 + w.toNat / 2 ^ 20 % 2 ^ 1 * 2 ^ 11 + w.toNat / 2 ^ 21 % 2 ^ 10 * 2 ^ 1)) := by
  refine sext_congr ?_
  have h0 : (w.extractLsb' 21 10).toNat = w.toNat / 2 ^ 21 % 2 ^ 10 := by
    simp [BitVec.extractLsb'_toNat, Nat.shiftRight_eq_div_pow]
  have e0 := place_toNat (w.extractLsb' 21 10) (lo := 1) (by omega)
  have h1 : (w.extractLsb' 20 1).toNat = w.toNat / 2 ^ 20 % 2 ^ 1 := by
    simp [BitVec.extractLsb'_toNat, Nat.shiftRight_eq_div_pow]
  have e1 := place_or_toNat (w.extractLsb' 20 1) (place (w.extractLsb' 21 10) 1) (lo := 11) (by omega) (by omega)
  have h2 : (w.extractLsb' 12 8).toNat = w.toNat / 2 ^ 12 % 2 ^ 8 := by
    simp [BitVec.extractLsb'_toNat, Nat.shiftRight_eq_div_pow]
  have e2 := place_or_toNat (w.extractLsb' 12 8) (place (w.extractLsb' 20 1) 11 ||| (place (w.extractLsb' 21 10) 1)) (lo := 12) (by omega) (by omega)
  have h3 : (w.extractLsb' 31 1).toNat = w.toNat / 2 ^ 31 % 2 ^ 1 := by
    simp [BitVec.extractLsb'_toNat, Nat.shiftRight_eq_div_pow]
  have e3 := place_or_toNat (w.extractLsb' 31 1) (place (w.extractLsb' 12 8) 12 ||| (place (w.extractLsb' 20 1) 11 ||| (place (w.extractLsb' 21 10) 1))) (lo := 20) (by omega) (by omega)
  simp only [BitVec.or_assoc, BitVec.toNat_ofNat]
  omega

/-- R153: the immediate of an encoded J-format word. -/
theorem immJ_encJ (op : BitVec 7) (rd : RegIdx) (imm : Word) (h : immFitsJ imm = true) :
    immJ (encJ op rd imm) = imm := by
  simp only [immFitsJ, Bool.and_eq_true, decide_eq_true_eq] at h
  refine Eq.trans ?_ (sext_of_range (n := 21) (v := imm) (by omega) (by omega) (by omega) (by omega))
  rw [immJ_eq]
  refine sext_congr ?_
  have hw := encJ_toNat op rd imm
  generalize encJ op rd imm = w at hw
  have h0 := op.isLt
  have h1 := rd.isLt
  have k0 := (imm.extractLsb' 20 1).isLt
  have k1 := (imm.extractLsb' 12 8).isLt
  have k2 := (imm.extractLsb' 11 1).isLt
  have k3 := (imm.extractLsb' 1 10).isLt
  have f0 : w.toNat / 2 ^ 31 % 2 ^ 1 = (imm.extractLsb' 20 1).toNat := by omega
  have f1 : w.toNat / 2 ^ 12 % 2 ^ 8 = (imm.extractLsb' 12 8).toNat := by omega
  have f2 : w.toNat / 2 ^ 20 % 2 ^ 1 = (imm.extractLsb' 11 1).toNat := by omega
  have f3 : w.toNat / 2 ^ 21 % 2 ^ 10 = (imm.extractLsb' 1 10).toNat := by omega
  rw [f0, f1, f2, f3]
  simp only [BitVec.extractLsb'_toNat, Nat.shiftRight_eq_div_pow, BitVec.toNat_ofNat]
  omega

/-- R152: the U-format immediate as a number. -/
theorem immU_toNat (w : Word) : (immU w).toNat = w.toNat / 2 ^ 12 * 2 ^ 12 := by
  have h := w.isLt
  rw [immU, place_toNat _ (by omega), BitVec.extractLsb'_toNat, Nat.shiftRight_eq_div_pow]
  omega

/-- R152: the immediate of an encoded U-format word. -/
theorem immU_encU (op : BitVec 7) (rd : RegIdx) (imm : Word) (h : immFitsU imm = true) :
    immU (encU op rd imm) = imm := by
  simp only [immFitsU, decide_eq_true_eq] at h
  apply BitVec.eq_of_toNat_eq
  have h0 := op.isLt
  have h1 := rd.isLt
  have h2 := imm.isLt
  rw [immU_toNat, encU_toNat]
  simp only [BitVec.extractLsb'_toNat, Nat.shiftRight_eq_div_pow]
  omega

/-! ### The immediates of any word -/

/-- R9: the low `n` bits survive sign extension. -/
theorem sext_toNat_mod {n : Nat} (v : Word) (h : n ≤ 32) : (sext n v).toNat % 2 ^ n = v.toNat % 2 ^ n := by
  have e : (sext n v).setWidth n = v.setWidth n := by
    apply BitVec.eq_of_getLsbD_eq
    intro i hi
    have : i < 32 := by omega
    rw [BitVec.getLsbD_setWidth, BitVec.getLsbD_setWidth, sext, BitVec.getLsbD_signExtend, BitVec.getLsbD_setWidth]
    simp only [hi, this, decide_true, Bool.true_and, if_true]
  simpa using congrArg BitVec.toNat e

/-- R9: an `n`-bit sign extension lies in the signed range of `n` bits. -/
theorem sext_range {n : Nat} (v : Word) (hn : 1 ≤ n) (h : n ≤ 32) :
    -(2 ^ (n - 1) : Int) ≤ (sext n v).toInt ∧ (sext n v).toInt < 2 ^ (n - 1) := by
  rw [sext_toInt v h]
  have e : ((2 ^ n : Nat) : Int) = 2 * 2 ^ (n - 1) := by
    push_cast; rw [← pow_succ']; congr 1; omega
  have hp : (0 : Int) < ((2 ^ n : Nat) : Int) := by positivity
  have h1 := Int.le_bmod (x := (v.toNat : Int)) (m := 2 ^ n) (by positivity)
  have h2 := Int.bmod_lt (x := (v.toNat : Int)) (m := 2 ^ n) (by positivity)
  omega

theorem immI_fits (w : Word) : immFits12 (immI w) = true := by
  have h := sext_range (n := 12) (place (w.extractLsb' 20 12) 0) (by omega) (by omega)
  rw [immFits12, Bool.and_eq_true, decide_eq_true_eq, decide_eq_true_eq, immI]
  omega

theorem immS_fits (w : Word) : immFits12 (immS w) = true := by
  have h := sext_range (n := 12) (place (w.extractLsb' 25 7) 5 ||| place (w.extractLsb' 7 5) 0) (by omega) (by omega)
  rw [immFits12, Bool.and_eq_true, decide_eq_true_eq, decide_eq_true_eq, immS]
  omega

theorem immU_fits (w : Word) : immFitsU (immU w) = true := by
  have h := immU_toNat w
  simp only [immFitsU, decide_eq_true_eq]
  omega

/-- The low bits of the signed immediates, as the sum of their fields. -/
theorem immI_mod (w : Word) : (immI w).toNat % 2 ^ 12 = w.toNat / 2 ^ 20 % 2 ^ 12 := by
  rw [immI_eq, sext_toNat_mod _ (by omega), BitVec.toNat_ofNat]
  omega

theorem immS_mod (w : Word) :
    (immS w).toNat % 2 ^ 12 = w.toNat / 2 ^ 25 % 2 ^ 7 * 2 ^ 5 + w.toNat / 2 ^ 7 % 2 ^ 5 := by
  rw [immS_eq, sext_toNat_mod _ (by omega), BitVec.toNat_ofNat]
  omega

theorem immB_mod (w : Word) : (immB w).toNat % 2 ^ 13 = w.toNat / 2 ^ 31 % 2 ^ 1 * 2 ^ 12
    + w.toNat / 2 ^ 7 % 2 ^ 1 * 2 ^ 11 + w.toNat / 2 ^ 25 % 2 ^ 6 * 2 ^ 5 + w.toNat / 2 ^ 8 % 2 ^ 4 * 2 ^ 1 := by
  rw [immB_eq, sext_toNat_mod _ (by omega), BitVec.toNat_ofNat]
  omega

theorem immJ_mod (w : Word) : (immJ w).toNat % 2 ^ 21 = w.toNat / 2 ^ 31 % 2 ^ 1 * 2 ^ 20
    + w.toNat / 2 ^ 12 % 2 ^ 8 * 2 ^ 12 + w.toNat / 2 ^ 20 % 2 ^ 1 * 2 ^ 11
    + w.toNat / 2 ^ 21 % 2 ^ 10 * 2 ^ 1 := by
  rw [immJ_eq, sext_toNat_mod _ (by omega), BitVec.toNat_ofNat]
  omega

theorem immB_fits (w : Word) : immFitsB (immB w) = true := by
  have h := sext_range (n := 13) (place (w.extractLsb' 31 1) 12 ||| place (w.extractLsb' 7 1) 11
    ||| place (w.extractLsb' 25 6) 5 ||| place (w.extractLsb' 8 4) 1) (by omega) (by omega)
  have h0 := immB_mod w
  have e : (immB w).toNat % 2 = 0 := by omega
  simp only [immFitsB, Bool.and_eq_true, decide_eq_true_eq]
  have e' : (immB w).toInt = (immB w).toNat ∨ (immB w).toInt = (immB w).toNat - 4294967296 := by
    rw [BitVec.toInt_eq_toNat_cond]; split <;> simp
  rw [immB] at h0 e e' ⊢
  omega

theorem immJ_fits (w : Word) : immFitsJ (immJ w) = true := by
  have h := sext_range (n := 21) (place (w.extractLsb' 31 1) 20 ||| place (w.extractLsb' 12 8) 12
    ||| place (w.extractLsb' 20 1) 11 ||| place (w.extractLsb' 21 10) 1) (by omega) (by omega)
  have h0 := immJ_mod w
  have e : (immJ w).toNat % 2 = 0 := by omega
  simp only [immFitsJ, Bool.and_eq_true, decide_eq_true_eq]
  have e' : (immJ w).toInt = (immJ w).toNat ∨ (immJ w).toInt = (immJ w).toNat - 4294967296 := by
    rw [BitVec.toInt_eq_toNat_cond]; split <;> simp
  rw [immJ] at h0 e e' ⊢
  omega

/-! ### A word is the encoding of its fields -/

theorem div_two_pow_add (n a b : Nat) : n / 2 ^ (a + b) = n / 2 ^ a / 2 ^ b := by
  rw [Nat.div_div_eq_div_mul, Nat.pow_add]

theorem mod_two_pow_slice (x : Nat) {n d k : Nat} (h : d + k ≤ n) :
    x % 2 ^ n / 2 ^ d % 2 ^ k = x / 2 ^ d % 2 ^ k := by
  apply Nat.eq_of_testBit_eq
  intro i
  simp only [Nat.testBit_mod_two_pow, Nat.testBit_div_two_pow]
  by_cases hi : i < k
  · simp [show i + d < n by omega]
  · simp [hi]

theorem immB_slices {a b c d : Nat} (ha : a < 2 ^ 1) (hb : b < 2 ^ 1) (hc : c < 2 ^ 6) (hd : d < 2 ^ 4) :
    (a * 2 ^ 12 + b * 2 ^ 11 + c * 2 ^ 5 + d * 2 ^ 1) / 2 ^ 12 % 2 ^ 1 = a
    ∧ (a * 2 ^ 12 + b * 2 ^ 11 + c * 2 ^ 5 + d * 2 ^ 1) / 2 ^ 11 % 2 ^ 1 = b
    ∧ (a * 2 ^ 12 + b * 2 ^ 11 + c * 2 ^ 5 + d * 2 ^ 1) / 2 ^ 5 % 2 ^ 6 = c
    ∧ (a * 2 ^ 12 + b * 2 ^ 11 + c * 2 ^ 5 + d * 2 ^ 1) / 2 ^ 1 % 2 ^ 4 = d := by
  omega

theorem immJ_slices {a b c d : Nat} (ha : a < 2 ^ 1) (hb : b < 2 ^ 8) (hc : c < 2 ^ 1) (hd : d < 2 ^ 10) :
    (a * 2 ^ 20 + b * 2 ^ 12 + c * 2 ^ 11 + d * 2 ^ 1) / 2 ^ 20 % 2 ^ 1 = a
    ∧ (a * 2 ^ 20 + b * 2 ^ 12 + c * 2 ^ 11 + d * 2 ^ 1) / 2 ^ 12 % 2 ^ 8 = b
    ∧ (a * 2 ^ 20 + b * 2 ^ 12 + c * 2 ^ 11 + d * 2 ^ 1) / 2 ^ 11 % 2 ^ 1 = c
    ∧ (a * 2 ^ 20 + b * 2 ^ 12 + c * 2 ^ 11 + d * 2 ^ 1) / 2 ^ 1 % 2 ^ 10 = d := by
  omega

/-- R142: a word is the R-format encoding of its fields. -/
theorem encR_fields (w : Word) : encR (funct7Of w) (funct3Of w) (opcodeOf w) (rdOf w) (rs1Of w) (rs2Of w) = w := by
  apply BitVec.eq_of_toNat_eq
  have hw := w.isLt
  rw [encR_toNat, funct7Of_toNat, funct3Of_toNat, opcodeOf_toNat, rdOf_toNat, rs1Of_toNat, rs2Of_toNat]
  have q12 : w.toNat / 2 ^ 12 = w.toNat / 2 ^ 7 / 2 ^ 5 := div_two_pow_add _ 7 5
  have q15 : w.toNat / 2 ^ 15 = w.toNat / 2 ^ 12 / 2 ^ 3 := div_two_pow_add _ 12 3
  have q20 : w.toNat / 2 ^ 20 = w.toNat / 2 ^ 15 / 2 ^ 5 := div_two_pow_add _ 15 5
  have q25 : w.toNat / 2 ^ 25 = w.toNat / 2 ^ 20 / 2 ^ 5 := div_two_pow_add _ 20 5
  omega

/-- R143: a word is the I-format encoding of its fields. -/
theorem encI_fields (w : Word) : encI (funct3Of w) (opcodeOf w) (rdOf w) (rs1Of w) (immI w) = w := by
  apply BitVec.eq_of_toNat_eq
  have hw := w.isLt
  have h := immI_mod w
  have b20 := Nat.mod_lt (w.toNat / 2 ^ 20) (show 0 < 2 ^ 12 by omega)
  generalize k20 : w.toNat / 2 ^ 20 % 2 ^ 12 = x20 at h b20
  have s20 : (immI w).toNat / 2 ^ 0 % 2 ^ 12 = x20 := by
    rw [← mod_two_pow_slice _ (show 0 + 12 ≤ 12 by omega), h]; omega
  rw [encI_toNat]
  simp only [BitVec.extractLsb'_toNat, Nat.shiftRight_eq_div_pow, s20, funct3Of_toNat, opcodeOf_toNat, rdOf_toNat, rs1Of_toNat]
  rw [← k20]
  clear h b20 s20 k20
  have q12 : w.toNat / 2 ^ 12 = w.toNat / 2 ^ 7 / 2 ^ 5 := div_two_pow_add _ 7 5
  have q15 : w.toNat / 2 ^ 15 = w.toNat / 2 ^ 12 / 2 ^ 3 := div_two_pow_add _ 12 3
  have q20 : w.toNat / 2 ^ 20 = w.toNat / 2 ^ 15 / 2 ^ 5 := div_two_pow_add _ 15 5
  omega

/-- R144: a word is the S-format encoding of its fields. -/
theorem encS_fields (w : Word) : encS (funct3Of w) (opcodeOf w) (rs1Of w) (rs2Of w) (immS w) = w := by
  apply BitVec.eq_of_toNat_eq
  have hw := w.isLt
  have h := immS_mod w
  have b25 := Nat.mod_lt (w.toNat / 2 ^ 25) (show 0 < 2 ^ 7 by omega)
  have b7 := Nat.mod_lt (w.toNat / 2 ^ 7) (show 0 < 2 ^ 5 by omega)
  generalize k25 : w.toNat / 2 ^ 25 % 2 ^ 7 = x25 at h b25
  generalize k7 : w.toNat / 2 ^ 7 % 2 ^ 5 = x7 at h b7
  have s25 : (immS w).toNat / 2 ^ 5 % 2 ^ 7 = x25 := by
    rw [← mod_two_pow_slice _ (show 5 + 7 ≤ 12 by omega), h]; omega
  have s7 : (immS w).toNat / 2 ^ 0 % 2 ^ 5 = x7 := by
    rw [← mod_two_pow_slice _ (show 0 + 5 ≤ 12 by omega), h]; omega
  rw [encS_toNat]
  simp only [BitVec.extractLsb'_toNat, Nat.shiftRight_eq_div_pow, s25, s7, funct3Of_toNat, opcodeOf_toNat, rs2Of_toNat, rs1Of_toNat]
  rw [← k25, ← k7]
  clear h b25 s25 k25 b7 s7 k7
  have q12 : w.toNat / 2 ^ 12 = w.toNat / 2 ^ 7 / 2 ^ 5 := div_two_pow_add _ 7 5
  have q15 : w.toNat / 2 ^ 15 = w.toNat / 2 ^ 12 / 2 ^ 3 := div_two_pow_add _ 12 3
  have q20 : w.toNat / 2 ^ 20 = w.toNat / 2 ^ 15 / 2 ^ 5 := div_two_pow_add _ 15 5
  have q25 : w.toNat / 2 ^ 25 = w.toNat / 2 ^ 20 / 2 ^ 5 := div_two_pow_add _ 20 5
  omega

/-- R145: a word is the B-format encoding of its fields. -/
theorem encB_fields (w : Word) : encB (funct3Of w) (opcodeOf w) (rs1Of w) (rs2Of w) (immB w) = w := by
  apply BitVec.eq_of_toNat_eq
  have hw := w.isLt
  have h := immB_mod w
  have b31 := Nat.mod_lt (w.toNat / 2 ^ 31) (show 0 < 2 ^ 1 by omega)
  have b7 := Nat.mod_lt (w.toNat / 2 ^ 7) (show 0 < 2 ^ 1 by omega)
  have b25 := Nat.mod_lt (w.toNat / 2 ^ 25) (show 0 < 2 ^ 6 by omega)
  have b8 := Nat.mod_lt (w.toNat / 2 ^ 8) (show 0 < 2 ^ 4 by omega)
  generalize k31 : w.toNat / 2 ^ 31 % 2 ^ 1 = x31 at h b31
  generalize k7 : w.toNat / 2 ^ 7 % 2 ^ 1 = x7 at h b7
  generalize k25 : w.toNat / 2 ^ 25 % 2 ^ 6 = x25 at h b25
  generalize k8 : w.toNat / 2 ^ 8 % 2 ^ 4 = x8 at h b8
  have s31 : (immB w).toNat / 2 ^ 12 % 2 ^ 1 = x31 := by
    rw [← mod_two_pow_slice _ (show 12 + 1 ≤ 13 by omega), h]; exact (immB_slices b31 b7 b25 b8).1
  have s7 : (immB w).toNat / 2 ^ 11 % 2 ^ 1 = x7 := by
    rw [← mod_two_pow_slice _ (show 11 + 1 ≤ 13 by omega), h]; exact (immB_slices b31 b7 b25 b8).2.1
  have s25 : (immB w).toNat / 2 ^ 5 % 2 ^ 6 = x25 := by
    rw [← mod_two_pow_slice _ (show 5 + 6 ≤ 13 by omega), h]; exact (immB_slices b31 b7 b25 b8).2.2.1
  have s8 : (immB w).toNat / 2 ^ 1 % 2 ^ 4 = x8 := by
    rw [← mod_two_pow_slice _ (show 1 + 4 ≤ 13 by omega), h]; exact (immB_slices b31 b7 b25 b8).2.2.2
  rw [encB_toNat]
  simp only [BitVec.extractLsb'_toNat, Nat.shiftRight_eq_div_pow, s31, s7, s25, s8, funct3Of_toNat, opcodeOf_toNat, rs2Of_toNat, rs1Of_toNat]
  rw [← k31, ← k7, ← k25, ← k8]
  clear h b31 s31 k31 b7 s7 k7 b25 s25 k25 b8 s8 k8
  have q8 : w.toNat / 2 ^ 8 = w.toNat / 2 ^ 7 / 2 ^ 1 := div_two_pow_add _ 7 1
  have q12 : w.toNat / 2 ^ 12 = w.toNat / 2 ^ 8 / 2 ^ 4 := div_two_pow_add _ 8 4
  have q15 : w.toNat / 2 ^ 15 = w.toNat / 2 ^ 12 / 2 ^ 3 := div_two_pow_add _ 12 3
  have q20 : w.toNat / 2 ^ 20 = w.toNat / 2 ^ 15 / 2 ^ 5 := div_two_pow_add _ 15 5
  have q25 : w.toNat / 2 ^ 25 = w.toNat / 2 ^ 20 / 2 ^ 5 := div_two_pow_add _ 20 5
  have q31 : w.toNat / 2 ^ 31 = w.toNat / 2 ^ 25 / 2 ^ 6 := div_two_pow_add _ 25 6
  omega

/-- R146: a word is the U-format encoding of its fields. -/
theorem encU_fields (w : Word) : encU (opcodeOf w) (rdOf w) (immU w) = w := by
  apply BitVec.eq_of_toNat_eq
  have hw := w.isLt
  rw [encU_toNat, opcodeOf_toNat, rdOf_toNat]
  simp only [BitVec.extractLsb'_toNat, Nat.shiftRight_eq_div_pow, immU_toNat]
  have q12 : w.toNat / 2 ^ 12 = w.toNat / 2 ^ 7 / 2 ^ 5 := div_two_pow_add _ 7 5
  omega

/-- R147: a word is the J-format encoding of its fields. -/
theorem encJ_fields (w : Word) : encJ (opcodeOf w) (rdOf w) (immJ w) = w := by
  apply BitVec.eq_of_toNat_eq
  have hw := w.isLt
  have h := immJ_mod w
  have b31 := Nat.mod_lt (w.toNat / 2 ^ 31) (show 0 < 2 ^ 1 by omega)
  have b12 := Nat.mod_lt (w.toNat / 2 ^ 12) (show 0 < 2 ^ 8 by omega)
  have b20 := Nat.mod_lt (w.toNat / 2 ^ 20) (show 0 < 2 ^ 1 by omega)
  have b21 := Nat.mod_lt (w.toNat / 2 ^ 21) (show 0 < 2 ^ 10 by omega)
  generalize k31 : w.toNat / 2 ^ 31 % 2 ^ 1 = x31 at h b31
  generalize k12 : w.toNat / 2 ^ 12 % 2 ^ 8 = x12 at h b12
  generalize k20 : w.toNat / 2 ^ 20 % 2 ^ 1 = x20 at h b20
  generalize k21 : w.toNat / 2 ^ 21 % 2 ^ 10 = x21 at h b21
  have s31 : (immJ w).toNat / 2 ^ 20 % 2 ^ 1 = x31 := by
    rw [← mod_two_pow_slice _ (show 20 + 1 ≤ 21 by omega), h]; exact (immJ_slices b31 b12 b20 b21).1
  have s12 : (immJ w).toNat / 2 ^ 12 % 2 ^ 8 = x12 := by
    rw [← mod_two_pow_slice _ (show 12 + 8 ≤ 21 by omega), h]; exact (immJ_slices b31 b12 b20 b21).2.1
  have s20 : (immJ w).toNat / 2 ^ 11 % 2 ^ 1 = x20 := by
    rw [← mod_two_pow_slice _ (show 11 + 1 ≤ 21 by omega), h]; exact (immJ_slices b31 b12 b20 b21).2.2.1
  have s21 : (immJ w).toNat / 2 ^ 1 % 2 ^ 10 = x21 := by
    rw [← mod_two_pow_slice _ (show 1 + 10 ≤ 21 by omega), h]; exact (immJ_slices b31 b12 b20 b21).2.2.2
  rw [encJ_toNat]
  simp only [BitVec.extractLsb'_toNat, Nat.shiftRight_eq_div_pow, s31, s12, s20, s21, opcodeOf_toNat, rdOf_toNat]
  rw [← k31, ← k12, ← k20, ← k21]
  clear h b31 s31 k31 b12 s12 k12 b20 s20 k20 b21 s21 k21
  have q12 : w.toNat / 2 ^ 12 = w.toNat / 2 ^ 7 / 2 ^ 5 := div_two_pow_add _ 7 5
  have q20 : w.toNat / 2 ^ 20 = w.toNat / 2 ^ 12 / 2 ^ 8 := div_two_pow_add _ 12 8
  have q21 : w.toNat / 2 ^ 21 = w.toNat / 2 ^ 20 / 2 ^ 1 := div_two_pow_add _ 20 1
  have q31 : w.toNat / 2 ^ 31 = w.toNat / 2 ^ 21 / 2 ^ 10 := div_two_pow_add _ 21 10
  omega

/-! ### The masks of the opcode table (R158), read as fields -/

/-- Mask `0000007F` keeps the opcode. -/
theorem and_opcodeMask (w : Word) : w &&& 0x0000007F#32 = place (opcodeOf w) 0 := by
  apply BitVec.eq_of_toNat_eq
  rw [place_toNat _ (by omega), opcodeOf_toNat]
  exact (BitVec.toNat_and _ _).trans ((Nat.and_two_pow_sub_one_eq_mod w.toNat 7).trans (by simp))

/-- Mask `0000707F` keeps the opcode and funct3. -/
theorem and_funct3Mask (w : Word) :
    w &&& 0x0000707F#32 = place (funct3Of w) 12 ||| place (opcodeOf w) 0 := by
  apply BitVec.eq_of_getLsbD_eq
  intro i hi
  simp (disch := omega) only [BitVec.getLsbD_and, BitVec.getLsbD_or, place_getLsbD, opcodeOf, funct3Of,
    BitVec.getLsbD_extractLsb']
  interval_cases i <;> simp

/-- Mask `FE00707F` keeps the opcode, funct3 and funct7. -/
theorem and_funct7Mask (w : Word) :
    w &&& 0xFE00707F#32 = place (funct7Of w) 25 ||| (place (funct3Of w) 12 ||| place (opcodeOf w) 0) := by
  apply BitVec.eq_of_getLsbD_eq
  intro i hi
  simp (disch := omega) only [BitVec.getLsbD_and, BitVec.getLsbD_or, place_getLsbD, opcodeOf, funct3Of, funct7Of,
    BitVec.getLsbD_extractLsb']
  interval_cases i <;> simp

theorem place_opcode_toNat (op : BitVec 7) : (place op 0).toNat = op.toNat := by
  rw [place_toNat _ (by omega)]; simp

theorem place_funct3_toNat (f3 : BitVec 3) (op : BitVec 7) :
    (place f3 12 ||| place op 0).toNat = f3.toNat * 2 ^ 12 + op.toNat := by
  have h := op.isLt
  have e := place_opcode_toNat op
  rw [place_or_toNat _ _ (by omega) (by omega), e]

theorem place_funct7_toNat (f7 : BitVec 7) (f3 : BitVec 3) (op : BitVec 7) :
    (place f7 25 ||| (place f3 12 ||| place op 0)).toNat
      = f7.toNat * 2 ^ 25 + (f3.toNat * 2 ^ 12 + op.toNat) := by
  have h := op.isLt
  have h' := f3.isLt
  have e := place_funct3_toNat f3 op
  rw [place_or_toNat _ _ (by omega) (by omega), e]

/-- Mask `0000007F` selects by the opcode. -/
theorem and_opcodeMask_iff (w : Word) (op : BitVec 7) : w &&& 0x0000007F#32 = place op 0 ↔ opcodeOf w = op := by
  rw [and_opcodeMask]
  refine ⟨fun h => ?_, fun h => by rw [h]⟩
  have h := congrArg BitVec.toNat h
  rw [place_opcode_toNat, place_opcode_toNat] at h
  exact BitVec.eq_of_toNat_eq h

/-- Mask `0000707F` selects by the opcode and funct3. -/
theorem and_funct3Mask_iff (w : Word) (f3 : BitVec 3) (op : BitVec 7) :
    w &&& 0x0000707F#32 = place f3 12 ||| place op 0 ↔ opcodeOf w = op ∧ funct3Of w = f3 := by
  rw [and_funct3Mask]
  refine ⟨fun h => ?_, fun ⟨h, h'⟩ => by rw [h, h']⟩
  have h := congrArg BitVec.toNat h
  rw [place_funct3_toNat, place_funct3_toNat] at h
  have h1 := op.isLt
  have h2 := (opcodeOf w).isLt
  exact ⟨BitVec.eq_of_toNat_eq (by omega), BitVec.eq_of_toNat_eq (by omega)⟩

/-- Mask `FE00707F` selects by the opcode, funct3 and funct7. -/
theorem and_funct7Mask_iff (w : Word) (f7 : BitVec 7) (f3 : BitVec 3) (op : BitVec 7) :
    w &&& 0xFE00707F#32 = place f7 25 ||| (place f3 12 ||| place op 0)
      ↔ opcodeOf w = op ∧ funct3Of w = f3 ∧ funct7Of w = f7 := by
  rw [and_funct7Mask]
  refine ⟨fun h => ?_, fun ⟨h, h', h''⟩ => by rw [h, h', h'']⟩
  have h := congrArg BitVec.toNat h
  rw [place_funct7_toNat, place_funct7_toNat] at h
  have h1 := op.isLt
  have h2 := (opcodeOf w).isLt
  have h3 := f3.isLt
  have h4 := (funct3Of w).isLt
  exact ⟨BitVec.eq_of_toNat_eq (by omega), BitVec.eq_of_toNat_eq (by omega), BitVec.eq_of_toNat_eq (by omega)⟩

/-- Everything the decoder can accept, by opcode (R157). -/
theorem decode_ok_cases {w : Word} {i : Instr} (h : decode w = .ok i) :
    (opcodeOf w = 0b0110111#7 ∧ i = .lui (rdOf w) (immU w))
    ∨ (opcodeOf w = 0b0010111#7 ∧ i = .auipc (rdOf w) (immU w))
    ∨ (opcodeOf w = 0b1101111#7 ∧ i = .jal (rdOf w) (immJ w))
    ∨ (opcodeOf w = 0b1100111#7 ∧ decodeJalr w = .ok i)
    ∨ (opcodeOf w = 0b1100011#7 ∧ decodeBranch w = .ok i)
    ∨ (opcodeOf w = 0b0000011#7 ∧ decodeLoad w = .ok i)
    ∨ (opcodeOf w = 0b0100011#7 ∧ decodeStore w = .ok i)
    ∨ (opcodeOf w = 0b0010011#7 ∧ decodeOpImm w = .ok i)
    ∨ (opcodeOf w = 0b0110011#7 ∧ decodeOp w = .ok i) := by
  unfold decode at h
  split at h <;> first | (cases h; simp [*]) | simp [*] | cases h

end Sys2Proof
end

