-- ==== Sys2Proof/Laws/Setup.lean ====
section
/-! SUPPORT. What setup and lookup can do: ports and peripheral registers are found uniquely in a valid
configuration, where the bus answers, and what attaching ports leaves. -/

namespace Sys2Proof.Machine

/-! ### Ranges, ports and registers -/

theorem portsOverlap_iff (p q : Port) :
    portsOverlap p q = true ↔ p.base < q.base + q.size ∧ q.base < p.base + p.size := by
  simp [portsOverlap, rangesOverlap]

theorem portsOverlap_comm (p q : Port) : portsOverlap p q = portsOverlap q p := Bool.and_comm _ _

theorem portSizeOk_iff (p : Port) : portSizeOk p = true ↔ 0 < p.size ∧ p.base + p.size ≤ 2 ^ 32 := by
  simp [portSizeOk]

theorem portContains_iff (p : Port) (a : Nat) (n : Width) :
    portContains p a n = true ↔ p.base ≤ a ∧ a + n.bytes ≤ p.base + p.size := by
  simp [portContains]

theorem eq_or_of_pairwise {α : Type} {R : α → α → Prop} {l : List α} (h : l.Pairwise R) {x y : α} (hx : x ∈ l)
    (hy : y ∈ l) : x = y ∨ R x y ∨ R y x := by
  induction l with
  | nil => cases hx
  | cons z rest ih =>
    obtain ⟨h1, h2⟩ := List.pairwise_cons.mp h
    rcases List.mem_cons.mp hx with rfl | hx' <;> rcases List.mem_cons.mp hy with rfl | hy'
    · exact .inl rfl
    · exact .inr (.inl (h1 _ hy'))
    · exact .inr (.inr (h1 _ hx'))
    · exact ih h2 hx' hy'

/-- Two ports of a valid configuration that share an address are one (R71). -/
theorem Config.Valid.eq_of_contains {c : Config} (h : Config.Valid c) {p q : Port} (hp : p ∈ c.ports)
    (hq : q ∈ c.ports) {a : Nat} (ap : p.base ≤ a ∧ a < p.base + p.size) (aq : q.base ≤ a ∧ a < q.base + q.size) :
    p = q := by
  have e : portsOverlap p q = true := (portsOverlap_iff p q).mpr (by omega)
  rcases eq_or_of_pairwise h.1 hp hq with h | h | h
  · exact h
  · rw [e] at h; cases h
  · rw [portsOverlap_comm, e] at h; cases h

/-- R73: the lookup finds the one port that contains the access. -/
theorem Config.lookup_eq {c : Config} (h : Config.Valid c) {p : Port} (hp : p ∈ c.ports) {a : Nat} {n : Width}
    (h1 : p.base ≤ a) (h2 : a + n.bytes ≤ p.base + p.size) : Config.lookup c a n = some p := by
  have hn := n.bytes_pos
  cases hl : Config.lookup c a n with
  | none =>
    have := List.find?_eq_none.mp hl p hp
    rw [portContains_iff] at this
    exact absurd ⟨h1, h2⟩ this
  | some q =>
    obtain ⟨hq, h3, h4⟩ := Config.lookup_some hl
    rw [h.eq_of_contains hp hq (a := a) (by omega) (by omega)]

/-- R73: the lookup finds nothing exactly where no single port contains the access. -/
theorem Config.lookup_none_iff (s : State) (a : Nat) (n : Width) :
    Config.lookup s.cfg a n = none ↔ Unmapped s a n := by
  unfold Config.lookup Unmapped
  rw [List.find?_eq_none]
  simp only [portContains_iff]

theorem rangesOverlap_iff (b1 n1 b2 n2 : Nat) : rangesOverlap b1 n1 b2 n2 = true ↔ b1 < b2 + n2 ∧ b2 < b1 + n1 := by
  simp [rangesOverlap]

/-- R110, R112: in a legal register map a register is found by its offset and width. -/
theorem findReg_eq {size : Nat} {regs : List PeriphReg} (h : regMapOk size regs = true) {r : PeriphReg}
    (hr : r ∈ regs) : findReg regs r.offset r.width = some r ∧ r.offset + r.width.bytes ≤ size := by
  induction regs with
  | nil => cases hr
  | cons q rest ih =>
    simp only [regMapOk, Bool.and_eq_true, decide_eq_true_eq] at h
    rcases List.mem_cons.mp hr with rfl | hr'
    · exact ⟨by simp [findReg], h.1.1⟩
    · refine ⟨?_, (ih h.2 hr').2⟩
      have hno := List.all_eq_true.mp h.1.2 r hr'
      have hne : ¬ (q.offset = r.offset ∧ q.width = r.width) := by
        rintro ⟨e, -⟩
        have h1 := q.width.bytes_pos
        have h2 := r.width.bytes_pos
        have : rangesOverlap q.offset q.width.bytes r.offset r.width.bytes = true :=
          (rangesOverlap_iff _ _ _ _).mpr (by omega)
        simp [this] at hno
      have := (ih h.2 hr').1
      unfold findReg at this ⊢
      rw [List.find?_cons_of_neg (by simpa using hne)]
      exact this

/-! ### Where the bus answers -/

variable (s : State)

theorem aligned_iff (a : Word) (n : Width) : aligned a n = true ↔ a.toNat % n.bytes = 0 := by simp [aligned]

theorem memRead_misaligned (access : Access) {a : Word} {n : Width} (h : a.toNat % n.bytes ≠ 0) :
    memRead access a n s = .error (.misalignedAccess a n access) := by
  simp [memRead, aligned, h]

theorem memWrite_misaligned {a : Word} {n : Width} (v : Word) (h : a.toNat % n.bytes ≠ 0) :
    memWrite a n v s = .error (.misalignedAccess a n .store) := by
  simp [memWrite, aligned, h]

theorem memRead_unmapped (access : Access) {a : Word} {n : Width} (h : a.toNat % n.bytes = 0)
    (hu : Unmapped s a.toNat n) : memRead access a n s = .error (.unmappedAccess a n access) := by
  simp [memRead, aligned, h, (Config.lookup_none_iff s _ _).mpr hu]

theorem memWrite_unmapped {a : Word} {n : Width} (v : Word) (h : a.toNat % n.bytes = 0)
    (hu : Unmapped s a.toNat n) : memWrite a n v s = .error (.unmappedAccess a n .store) := by
  simp [memWrite, aligned, h, (Config.lookup_none_iff s _ _).mpr hu]

theorem memRead_memory (access : Access) {a : Word} {n : Width} (hv : Config.Valid s.cfg)
    (hr : InRegion s a.toNat n) (h : a.toNat % n.bytes = 0) :
    memRead access a n s = .ok (s.regionRead a.toNat n, s) := by
  obtain ⟨p, hp, ht, h1, h2⟩ := hr
  simp [memRead, aligned, h, Config.lookup_eq hv hp h1 h2, ht]

theorem memWrite_memory {a : Word} {n : Width} (v : Word) (hv : Config.Valid s.cfg)
    (hr : InRegion s a.toNat n) (h : a.toNat % n.bytes = 0) :
    memWrite a n v s = .ok (s.regionWrite a.toNat n v) := by
  obtain ⟨p, hp, ht, h1, h2⟩ := hr
  simp [memWrite, aligned, h, Config.lookup_eq hv hp h1 h2, ht]

/-- The register map of a port of a valid configuration is legal. -/
theorem Config.Valid.regMapOk {c : Config} (h : Config.Valid c) {p : Port} (hp : p ∈ c.ports)
    {regs : List PeriphReg} (ht : p.target = .peripheral regs) : regMapOk p.size regs = true := by
  have := (h.2 p hp).2
  rwa [portRegMapOk, ht] at this

theorem memRead_periph (access : Access) {a : Word} {p : Port} {regs : List PeriphReg} {r : PeriphReg}
    (hv : Config.Valid s.cfg) (hp : p ∈ s.cfg.ports) (ht : p.target = .peripheral regs) (hr : r ∈ regs)
    (ha : a.toNat = p.base + r.offset) (h : a.toNat % r.width.bytes = 0) :
    memRead access a r.width s = .ok (s.periphRead p.base r, s.afterRead p.base r) := by
  obtain ⟨hf, hs⟩ := findReg_eq (hv.regMapOk hp ht) hr
  have hl := Config.lookup_eq hv hp (a := a.toNat) (n := r.width) (by omega) (by omega)
  have ho : a.toNat - p.base = r.offset := by omega
  simp [memRead, aligned, h, hl, ht, ho, hf]

theorem memWrite_periph {a : Word} {p : Port} {regs : List PeriphReg} {r : PeriphReg} (v : Word)
    (hv : Config.Valid s.cfg) (hp : p ∈ s.cfg.ports) (ht : p.target = .peripheral regs) (hr : r ∈ regs)
    (ha : a.toNat = p.base + r.offset) (h : a.toNat % r.width.bytes = 0) :
    memWrite a r.width v s = .ok (s.periphWrite p.base r v) := by
  obtain ⟨hf, hs⟩ := findReg_eq (hv.regMapOk hp ht) hr
  have hl := Config.lookup_eq hv hp (a := a.toNat) (n := r.width) (by omega) (by omega)
  have ho : a.toNat - p.base = r.offset := by omega
  simp [memWrite, aligned, h, hl, ht, ho, hf]

/-- R112, R131: inside a peripheral's window, an access that matches no register exactly is unmapped. -/
theorem bus_no_register (access : Access) {a : Word} {n : Width} {p : Port} {regs : List PeriphReg} (v : Word)
    (hv : Config.Valid s.cfg) (hp : p ∈ s.cfg.ports) (ht : p.target = .peripheral regs)
    (h : a.toNat % n.bytes = 0) (h1 : p.base ≤ a.toNat) (h2 : a.toNat + n.bytes ≤ p.base + p.size)
    (hr : ∀ r ∈ regs, ¬ (p.base + r.offset = a.toNat ∧ r.width = n)) :
    memRead access a n s = .error (.unmappedAccess a n access)
      ∧ memWrite a n v s = .error (.unmappedAccess a n .store) := by
  have hl := Config.lookup_eq hv hp h1 h2
  have hf : findReg regs (a.toNat - p.base) n = none := by
    refine List.find?_eq_none.mpr fun r hm => ?_
    have := hr r hm
    simp only [Bool.and_eq_true, decide_eq_true_eq]
    rintro ⟨e1, e2⟩
    exact this ⟨by omega, e2⟩
  constructor
  · simp [memRead, aligned, h, hl, ht, hf]
  · simp [memWrite, aligned, h, hl, ht, hf]

/-! ### Adding triggers -/

/-- Where `addTrigger` refuses: no register has the offset. -/
theorem addTrigger_none_iff {regs : List PeriphReg} {offset : Nat} {t : Trigger} :
    addTrigger regs offset t = none ↔ ∀ r ∈ regs, r.offset ≠ offset := by
  induction regs with
  | nil => simp [addTrigger]
  | cons r rest ih =>
    unfold addTrigger
    split <;> simp_all

/-- R119: `addTrigger` appends to the list of one register at that offset and changes nothing else of the map. -/
theorem addTrigger_some {regs out : List PeriphReg} {offset : Nat} {t : Trigger}
    (h : addTrigger regs offset t = some out) :
    ∃ before r after, regs = before ++ r :: after ∧ r.offset = offset
      ∧ (∀ q ∈ before, q.offset ≠ offset)
      ∧ out = before ++ { r with triggers := r.triggers ++ [t] } :: after := by
  induction regs generalizing out with
  | nil => cases h
  | cons q rest ih =>
    unfold addTrigger at h
    split at h
    · cases h; exact ⟨[], q, rest, rfl, ‹_›, by simp, rfl⟩
    · obtain ⟨o, ho, rfl⟩ := Option.map_eq_some_iff.mp h
      obtain ⟨before, r, after, rfl, h1, h2, rfl⟩ := ih ho
      refine ⟨q :: before, r, after, rfl, h1, fun p hp => ?_, rfl⟩
      rcases List.mem_cons.mp hp with rfl | hp
      · assumption
      · exact h2 p hp

/-- A legal register map stays legal. -/
theorem regMapOk_addTrigger {size : Nat} {regs out : List PeriphReg} {offset : Nat} {t : Trigger}
    (h : addTrigger regs offset t = some out) (hr : regMapOk size regs = true) : regMapOk size out = true := by
  have hall : ∀ {l o : List PeriphReg} (b n : Nat), addTrigger l offset t = some o →
      o.all (fun q => !rangesOverlap b n q.offset q.width.bytes)
        = l.all (fun q => !rangesOverlap b n q.offset q.width.bytes) := by
    intro l o b n ho
    obtain ⟨before, r, after, rfl, -, -, rfl⟩ := addTrigger_some ho
    simp
  induction regs generalizing out with
  | nil => cases h
  | cons q rest ih =>
    unfold addTrigger at h
    split at h
    · cases h; exact hr
    · obtain ⟨o, ho, rfl⟩ := Option.map_eq_some_iff.mp h
      simp only [regMapOk, Bool.and_eq_true] at hr ⊢
      exact ⟨⟨hr.1.1, by rw [hall _ _ ho]; exact hr.1.2⟩, ih ho hr.2⟩

/-! ### Attaching -/

/-- R71: the sorted insertion holds the new port and the old ones. -/
theorem mem_insertPort {p q : Port} {ports : List Port} : q ∈ insertPort p ports ↔ q = p ∨ q ∈ ports := by
  induction ports with
  | nil => simp [insertPort]
  | cons r rest ih =>
    unfold insertPort
    split
    · simp
    · simp only [List.mem_cons, ih]
      tauto

theorem pairwise_insertPort {p : Port} {ports : List Port}
    (h : ports.Pairwise fun x y => portsOverlap x y = false) (hp : ∀ q ∈ ports, portsOverlap p q = false) :
    (insertPort p ports).Pairwise fun x y => portsOverlap x y = false := by
  induction ports with
  | nil => simp [insertPort]
  | cons r rest ih =>
    obtain ⟨h1, h2⟩ := List.pairwise_cons.mp h
    unfold insertPort
    split
    · exact List.pairwise_cons.mpr ⟨hp, h⟩
    · refine List.pairwise_cons.mpr ⟨fun q hq => ?_, ih h2 fun q hq => hp q (by simp [hq])⟩
      rcases mem_insertPort.mp hq with rfl | hq
      · rw [portsOverlap_comm]; exact hp r (by simp)
      · exact h1 q hq

/-- Everything `attach` can do (R72, R275). -/
theorem attach_cases (ports : List Port) (p : Port) :
    (portSizeOk p = false ∧ attach ports p = .error .badPortSize)
    ∨ (portSizeOk p = true ∧ (∃ q ∈ ports, portsOverlap p q = true) ∧ attach ports p = .error .busOverlap)
    ∨ (portSizeOk p = true ∧ (∀ q ∈ ports, portsOverlap p q = false) ∧ attach ports p = .ok (insertPort p ports)) := by
  unfold attach
  cases hs : portSizeOk p
  · exact .inl ⟨rfl, rfl⟩
  · cases ha : ports.any (portsOverlap p)
    · refine .inr (.inr ⟨rfl, fun q hq => ?_, rfl⟩)
      simpa using List.any_eq_false.mp ha q hq
    · exact .inr (.inl ⟨rfl, by simpa using ha, rfl⟩)

/-- What attaching a list of ports leaves: those of before and the new ones, disjoint and of legal size. -/
theorem attachAll_ok {ports new out : List Port} (h : attachAll ports new = .ok out)
    (hd : ports.Pairwise fun x y => portsOverlap x y = false) (hs : ∀ p ∈ ports, portSizeOk p = true) :
    (out.Pairwise fun x y => portsOverlap x y = false) ∧ (∀ p ∈ out, portSizeOk p = true)
      ∧ ∀ p, p ∈ out ↔ p ∈ ports ∨ p ∈ new := by
  induction new generalizing ports with
  | nil =>
    rw [attachAll, Except.ok.injEq] at h
    subst h
    exact ⟨hd, hs, by simp⟩
  | cons p rest ih =>
    rcases attach_cases ports p with ⟨-, e⟩ | ⟨-, -, e⟩ | ⟨hp, hq, e⟩
    · simp [attachAll, e] at h
    · simp [attachAll, e] at h
    · simp only [attachAll, e] at h
      obtain ⟨h1, h2, h3⟩ := ih h (pairwise_insertPort hd hq) fun q hm => by
        rcases mem_insertPort.mp hm with rfl | hm
        · exact hp
        · exact hs q hm
      exact ⟨h1, h2, fun q => by rw [h3, mem_insertPort, List.mem_cons]; tauto⟩

/-- Everything `powerOn` can do (R275, R300, R306). -/
theorem powerOn_next {c : Config} {s : State} (h : powerOn c = .next s) :
    ∃ ports, attachAll [] c.ports = .ok ports ∧ ports.all portRegMapOk = true ∧ imageOk ports c.initImage = true
      ∧ s = State.resetWith { c with ports := ports } := by
  unfold powerOn at h
  cases ha : attachAll [] c.ports with
  | error e => simp [ha] at h
  | ok ports =>
    simp only [ha] at h
    split at h
    · split at h
      · cases h; exact ⟨ports, rfl, ‹_›, ‹_›, rfl⟩
      · cases h
    · cases h

end Sys2Proof.Machine
end

