-- ==== Sys2Proof/Laws/Exec.lean ====
section
/-! SUPPORT. What executing an instruction and taking a step can do: one inversion lemma each. -/

namespace Sys2Proof.Machine

variable (s : State)

/-- Everything a load can do (R200). -/
theorem loadFrom_cases (n : Width) (e : LoadExt) (rd rs1 : RegIdx) (imm : Word) :
    (∃ v t, memRead .load (effectiveAddress s rs1 imm) n s = .ok (v, t)
        ∧ loadFrom n e rd rs1 imm s = .next (t.writeReg rd (e.apply v)).advance)
    ∨ ∃ info, memRead .load (effectiveAddress s rs1 imm) n s = .error info
        ∧ loadFrom n e rd rs1 imm s = .next (s.enterFault info) := by
  unfold loadFrom
  cases h : memRead .load (effectiveAddress s rs1 imm) n s with
  | ok r => exact .inl ⟨r.1, r.2, rfl, rfl⟩
  | error info => exact .inr ⟨info, rfl, rfl⟩

/-- Everything a store can do (R210). -/
theorem storeTo_cases (n : Width) (rs1 rs2 : RegIdx) (imm : Word) :
    (∃ t, memWrite (effectiveAddress s rs1 imm) n (s.readReg rs2) s = .ok t
        ∧ storeTo n rs1 rs2 imm s = .next t.advance)
    ∨ ∃ info, memWrite (effectiveAddress s rs1 imm) n (s.readReg rs2) s = .error info
        ∧ storeTo n rs1 rs2 imm s = .next (s.enterFault info) := by
  unfold storeTo
  cases h : memWrite (effectiveAddress s rs1 imm) n (s.readReg rs2) s with
  | ok t => exact .inl ⟨t, rfl, rfl⟩
  | error info => exact .inr ⟨info, rfl, rfl⟩

/-- A branch moves the pc and does nothing else (R190). -/
theorem branchOn_cases (c : Cond) (rs1 rs2 : RegIdx) (imm : Word) :
    branchOn c rs1 rs2 imm s
      = .next (s.setPc (if branchTest c (s.readReg rs1) (s.readReg rs2) then s.pc + imm else s.pc + 4#32)) := by
  unfold branchOn
  split <;> rfl

/-- What executing an instruction can do: write its destination register and the pc (after the side effect of its
bus read on a peripheral's local state, for a load); move the pc only; make the one bus write of a store and
advance; or take a fault. -/
abbrev ExecShape (i : Instr) : Prop :=
  (∃ rd v npc l, i.dest? = some rd ∧ storeOf? i = none
      ∧ (isTransfer i = false → npc = s.pc + 4#32)
      ∧ (loadOf? i = none → l = s.locals) ∧ (Cells.wf s.locals → Cells.wf l)
      ∧ exec i s = .next ((State.writeReg { s with locals := l } rd v).setPc npc))
  ∨ (∃ npc, i.dest? = none ∧ storeOf? i = none ∧ isTransfer i = true ∧ exec i s = .next (s.setPc npc))
  ∨ (∃ n rs1 rs2 imm t, i.dest? = none ∧ storeOf? i = some (n, rs1, rs2, imm) ∧ isTransfer i = false
      ∧ memWrite (effectiveAddress s rs1 imm) n (s.readReg rs2) s = .ok t ∧ exec i s = .next t.advance)
  ∨ (∃ info, isTransfer i = false ∧ exec i s = .next (s.enterFault info))

theorem State.writeReg_advance (rd : RegIdx) (v : Word) :
    (s.writeReg rd v).advance = (s.writeReg rd v).setPc (s.pc + 4#32) := by
  simp [State.advance]

theorem execShape_of_load {i : Instr} {n : Width} {e : LoadExt} {rd rs1 : RegIdx} {imm : Word}
    (hd : i.dest? = some rd) (hs : storeOf? i = none) (hl : (loadOf? i).isSome = true) (ht : isTransfer i = false)
    (he : exec i s = loadFrom n e rd rs1 imm s) : ExecShape s i := by
  rcases loadFrom_cases s n e rd rs1 imm with ⟨v, t, hm, h⟩ | ⟨info, -, h⟩
  · obtain ⟨ht', hw⟩ := memRead_frame s hm
    have hpc : t.pc = s.pc := by rw [ht']
    refine .inl ⟨rd, e.apply v, _, t.locals, hd, hs, fun _ => rfl, fun hn => absurd hl (by simp [hn]), hw, ?_⟩
    rw [← ht', he, h, State.writeReg_advance, hpc]
  · exact .inr (.inr (.inr ⟨info, ht, by rw [he, h]⟩))

theorem execShape_of_store {i : Instr} {n : Width} {rs1 rs2 : RegIdx} {imm : Word}
    (hd : i.dest? = none) (hs : storeOf? i = some (n, rs1, rs2, imm)) (ht : isTransfer i = false)
    (he : exec i s = storeTo n rs1 rs2 imm s) : ExecShape s i := by
  rcases storeTo_cases s n rs1 rs2 imm with ⟨t, hw, h⟩ | ⟨info, -, h⟩
  · exact .inr (.inr (.inl ⟨n, rs1, rs2, imm, t, hd, hs, ht, hw, by rw [he, h]⟩))
  · exact .inr (.inr (.inr ⟨info, ht, by rw [he, h]⟩))

/-- Every instruction does one of these. -/
theorem exec_cases (i : Instr) : ExecShape s i := by
  cases i with
  | lb rd rs1 imm => exact execShape_of_load s rfl rfl rfl rfl (e := .sext8) rfl
  | lh rd rs1 imm => exact execShape_of_load s rfl rfl rfl rfl (e := .sext16) rfl
  | lw rd rs1 imm => exact execShape_of_load s rfl rfl rfl rfl (e := .copy) rfl
  | lbu rd rs1 imm => exact execShape_of_load s rfl rfl rfl rfl (e := .zext8) rfl
  | lhu rd rs1 imm => exact execShape_of_load s rfl rfl rfl rfl (e := .zext16) rfl
  | sb rs1 rs2 imm => exact execShape_of_store s rfl rfl rfl rfl
  | sh rs1 rs2 imm => exact execShape_of_store s rfl rfl rfl rfl
  | sw rs1 rs2 imm => exact execShape_of_store s rfl rfl rfl rfl
  | beq rs1 rs2 imm => exact .inr (.inl ⟨_, rfl, rfl, rfl, branchOn_cases s .eq rs1 rs2 imm⟩)
  | bne rs1 rs2 imm => exact .inr (.inl ⟨_, rfl, rfl, rfl, branchOn_cases s .ne rs1 rs2 imm⟩)
  | blt rs1 rs2 imm => exact .inr (.inl ⟨_, rfl, rfl, rfl, branchOn_cases s .lt rs1 rs2 imm⟩)
  | bge rs1 rs2 imm => exact .inr (.inl ⟨_, rfl, rfl, rfl, branchOn_cases s .ge rs1 rs2 imm⟩)
  | bltu rs1 rs2 imm => exact .inr (.inl ⟨_, rfl, rfl, rfl, branchOn_cases s .ltu rs1 rs2 imm⟩)
  | bgeu rs1 rs2 imm => exact .inr (.inl ⟨_, rfl, rfl, rfl, branchOn_cases s .geu rs1 rs2 imm⟩)
  | jal rd imm => exact .inl ⟨rd, _, _, s.locals, rfl, rfl, by simp [isTransfer], fun _ => rfl, id, rfl⟩
  | jalr rd rs1 imm => exact .inl ⟨rd, _, _, s.locals, rfl, rfl, by simp [isTransfer], fun _ => rfl, id, rfl⟩
  | _ => exact .inl ⟨_, _, _, s.locals, rfl, rfl, fun _ => rfl, fun _ => rfl, id,
      congrArg _ (State.writeReg_advance s _ _)⟩

/-- Executing an instruction always answers a next state. -/
theorem exec_next (i : Instr) : ∃ t, exec i s = .next t := by
  rcases exec_cases s i with ⟨_, _, _, _, -, -, -, -, -, e⟩ | ⟨_, -, -, -, e⟩ | ⟨_, _, _, _, _, -, -, -, -, e⟩ | ⟨_, -, e⟩ <;>
    exact ⟨_, e⟩

/-- Executing an instruction in a running hart leaves it running, or takes a fault. -/
theorem exec_running {s t : State} {i : Instr} (h : exec i s = .next t) (hs : s.hartState = .running) :
    t.hartState = .running ∨ ∃ info, t = s.enterFault info := by
  rcases exec_cases s i with ⟨_, _, _, _, -, -, -, -, -, e⟩ | ⟨_, -, -, -, e⟩ | ⟨_, _, _, _, u, -, -, -, hw, e⟩ | ⟨info, -, e⟩ <;>
    rw [e] at h <;> cases h
  · exact .inl (by simpa using hs)
  · exact .inl (by simpa using hs)
  · exact .inl (by simp [(memWrite_frame s hw).2.2.1, hs])
  · exact .inr ⟨_, rfl⟩

/-- What a successful fetch leaves: the state as it is, with one peripheral's local state updated at most. -/
theorem fetch_frame {raw : Word} {u : State} (h : fetch s = .ok (raw, u)) :
    u = { s with locals := u.locals } ∧ (Cells.wf s.locals → Cells.wf u.locals) := by
  unfold fetch at h
  split at h
  · exact memRead_frame s h
  · cases h

/-- Everything a step of a running hart can do: fault in the fetch, the decode or the execute stage, having changed
nothing; or execute and poll. -/
theorem step_running_cases (h : s.hartState = .running) :
    (∃ info, fetch s = .error info ∧ step s = .next (s.enterFault info))
    ∨ (∃ raw u why, fetch s = .ok (raw, u) ∧ decode raw = .error why
        ∧ step s = .next (s.enterFault (.illegalInstruction raw)))
    ∨ (∃ raw u i info, fetch s = .ok (raw, u) ∧ decode raw = .ok i ∧ exec i u = .next (u.enterFault info)
        ∧ step s = .next (s.enterFault info))
    ∨ (∃ raw u i t, fetch s = .ok (raw, u) ∧ decode raw = .ok i ∧ exec i u = .next t ∧ t.hartState = .running
        ∧ step s = .next t.pollHalt) := by
  have hs : step s = runningStep s := by simp [step, hartStep, h]
  rw [hs]
  unfold runningStep
  cases hf : fetch s with
  | error info => exact .inl ⟨info, rfl, rfl⟩
  | ok r =>
    obtain ⟨raw, u⟩ := r
    cases hd : decode raw with
    | error why => exact .inr (.inl ⟨raw, u, why, rfl, hd, by simp only [hd]⟩)
    | ok i =>
      obtain ⟨hu, -⟩ := fetch_frame s hf
      obtain ⟨t, ht⟩ := exec_next u i
      rcases exec_running ht (by rw [hu]; exact h) with hr | ⟨info, rfl⟩
      · refine .inr (.inr (.inr ⟨raw, u, i, t, rfl, hd, ht, hr, ?_⟩))
        simp only [hd, executeAndPoll, ht, State.unlessFaulted_of_ne s (show t.hartState ≠ .faulted by simp [hr])]
      · refine .inr (.inr (.inl ⟨raw, u, i, info, rfl, hd, ht, ?_⟩))
        have hpc : u.pc = s.pc := by rw [hu]
        simp only [hd, executeAndPoll, ht, State.unlessFaulted_enterFault s u info hpc]
        rfl

/-- In a terminal state a step changes nothing (R285). -/
theorem step_terminal (h : s.hartState ≠ .running) : step s = .next s := by
  cases hh : s.hartState <;> simp_all [step, hartStep]

/-- Every step answers a next state. -/
theorem step_next : ∃ t, step s = .next t := by
  by_cases hs : s.hartState = .running
  · rcases step_running_cases s hs with
      ⟨_, -, e⟩ | ⟨_, _, _, -, -, e⟩ | ⟨_, _, _, _, -, -, -, e⟩ | ⟨_, _, _, _, -, -, -, -, e⟩ <;> exact ⟨_, e⟩
  · exact ⟨_, step_terminal s hs⟩

/-- What fault entry leaves alone (R283). -/
theorem faultsWith_enterFault (info : FaultInfo) : FaultsWith s (s.enterFault info) info :=
  ⟨rfl, rfl, rfl, rfl, fun _ => rfl, fun _ => rfl, fun _ => rfl, fun _ => rfl, rfl⟩

/-- What writing a register and moving the pc leaves alone. -/
theorem writesOnly_writeReg_setPc (rd : RegIdx) (v npc : Word) :
    WritesOnly s ((s.writeReg rd v).setPc npc) rd v npc :=
  ⟨by rw [State.readReg_setPc, State.readReg_writeReg_same],
    fun r h => by rw [State.readReg_setPc, State.readReg_writeReg_ne _ _ h], rfl, fun a => by simp,
    ⟨fun a => by simp, fun a => by simp, by simp⟩, by simp, by simp, by simp⟩

theorem writesOnly_writeReg_advance (rd : RegIdx) (v : Word) :
    WritesOnly s (s.writeReg rd v).advance rd v (s.pc + 4#32) := by
  rw [State.writeReg_advance]; exact writesOnly_writeReg_setPc ..

/-- What moving the pc leaves alone. -/
theorem movesPcOnly_setPc (npc : Word) : MovesPcOnly s (s.setPc npc) npc :=
  ⟨fun _ => rfl, rfl, fun _ => rfl, ⟨fun _ => rfl, fun _ => rfl, rfl⟩, rfl, rfl, rfl⟩

/-- A hart ready to fetch fetches the word at its pc, and that changes nothing. -/
theorem fetch_of_ready {s : State} (h : ReadyToFetch s) : fetch s = .ok (wordAtPc s, s) := by
  obtain ⟨-, hv, ha, hr⟩ := h
  rw [fetch, if_pos ((aligned_iff _ _).mpr ha), memRead_memory s .fetch hv hr ha]
  rfl

/-- One step of the host's run. -/
theorem run_succ_of_next {M : Host.Core} {s t : M.State} (h : M.step s = .next t) (k : Nat) :
    M.run (k + 1) s = M.run k t := by
  simp only [Host.Core.run, h]

theorem core_run_succ {s t : State} (h : step s = .next t) (k : Nat) :
    Host.Core.run Sys2Proof.core (k + 1) s = Host.Core.run Sys2Proof.core k t :=
  run_succ_of_next (M := Sys2Proof.core) h k

/-- A hart ready to fetch executes the instruction at its pc and polls (R40). -/
theorem step_of_ready {s t : State} {i : Instr} (h : ReadyToFetch s) (hd : decode (wordAtPc s) = .ok i)
    (he : exec i s = .next t) : step s = .next t.pollHalt := by
  rcases step_running_cases s h.1 with
    ⟨_, hf, -⟩ | ⟨_, _, _, hf, hd', -⟩ | ⟨_, _, _, _, hf, hd', he', e⟩ | ⟨_, _, _, _, hf, hd', he', -, e⟩ <;>
    rw [fetch_of_ready h] at hf <;> cases hf <;> rw [hd] at hd' <;> cases hd' <;> rw [he] at he' <;> cases he' <;>
    rw [e]
  rfl

/-- What holds after each kind of effect holds after a step, up to the halt poll: the one case analysis of the
whole-machine statements. `l` and `u.locals` are what the side effects of the step's bus reads leave. -/
theorem step_running_elim {s t : State} {Q : State → Prop} (hs : s.hartState = .running) (h : step s = .next t)
    (hfault : ∀ info, Q (s.enterFault info))
    (hreg : ∀ rd v npc l, (Cells.wf s.locals → Cells.wf l) →
      Q ((State.writeReg { s with locals := l } rd v).setPc npc))
    (hpc : ∀ npc l, (Cells.wf s.locals → Cells.wf l) → Q (State.setPc { s with locals := l } npc))
    (hmem : ∀ a n v l u, (Cells.wf s.locals → Cells.wf l) → memWrite a n v { s with locals := l } = .ok u →
      Q u.advance) :
    ∃ u, t = u.pollHalt ∧ Q u := by
  rcases step_running_cases s hs with
    ⟨_, -, e⟩ | ⟨_, _, _, -, -, e⟩ | ⟨_, _, _, _, -, -, -, e⟩ | ⟨raw, u, i, w, hf, -, hi, hr, e⟩ <;>
    rw [e] at h <;> cases h
  · exact ⟨_, rfl, hfault _⟩
  · exact ⟨_, rfl, hfault _⟩
  · exact ⟨_, rfl, hfault _⟩
  · refine ⟨w, rfl, ?_⟩
    obtain ⟨hu, hw⟩ := fetch_frame s hf
    rw [hu] at hi
    rcases exec_cases { s with locals := u.locals } i with
      ⟨_, _, _, l, -, -, -, -, hl, e⟩ | ⟨_, -, -, -, e⟩ | ⟨_, _, _, _, _, -, -, -, hm, e⟩ | ⟨_, -, e⟩ <;>
      rw [e] at hi <;> cases hi
    · exact hreg _ _ _ l fun hs => hl (hw hs)
    · exact hpc _ _ hw
    · exact hmem _ _ _ _ _ hw hm
    · cases hr

end Sys2Proof.Machine
end

