-- ==== Sys2Proof/Laws/PerInstr.lean ====
section
/-! SUPPORT. The family `Encoding`: the word of every instruction is selected by the instruction's row of the
opcode table. -/

namespace Sys2Proof.Laws

/-- Rows whose mask keeps the opcode only. -/
theorem selects_of_opcode {w f : Word} {op : BitVec 7} (m : String) (fmt : Format) (hf : f = place op 0)
    (h : opcodeOf w = op) : OpcodeRow.selects ⟨m, fmt, f, 0x0000007F#32⟩ w = true :=
  decide_eq_true (by rw [hf]; exact (and_opcodeMask_iff w op).mpr h)

/-- Rows whose mask keeps the opcode and funct3. -/
theorem selects_of_funct3 {w f : Word} {op : BitVec 7} {f3 : BitVec 3} (m : String) (fmt : Format)
    (hf : f = place f3 12 ||| place op 0) (h : opcodeOf w = op) (h3 : funct3Of w = f3) :
    OpcodeRow.selects ⟨m, fmt, f, 0x0000707F#32⟩ w = true :=
  decide_eq_true (by rw [hf]; exact (and_funct3Mask_iff w f3 op).mpr ⟨h, h3⟩)

/-- Rows whose mask keeps the opcode, funct3 and funct7. -/
theorem selects_of_funct7 {w f : Word} {op : BitVec 7} {f3 : BitVec 3} {f7 : BitVec 7} (m : String) (fmt : Format)
    (hf : f = place f7 25 ||| (place f3 12 ||| place op 0)) (h : opcodeOf w = op) (h3 : funct3Of w = f3)
    (h7 : funct7Of w = f7) : OpcodeRow.selects ⟨m, fmt, f, 0xFE00707F#32⟩ w = true :=
  decide_eq_true (by rw [hf]; exact (and_funct7Mask_iff w f7 f3 op).mpr ⟨h, h3, h7⟩)

/-- R158: some row of the opcode table has the instruction's mnemonic and format, and selects its word. -/
def Encoding.Statement (i : Instr) : Prop :=
  ∃ r ∈ opcodeTable, r.mnemonic = i.mnemonic ∧ r.format = i.format ∧ r.selects (encode i) = true

theorem Encoding.lui (rd : RegIdx) (imm : Word) : Encoding.Statement (.lui rd imm) :=
  ⟨⟨"LUI", .u, 0x00000037#32, 0x0000007F#32⟩, by simp [opcodeTable, opcodeRowsControl, opcodeRowsMemory, opcodeRowsOpImm,
    opcodeRowsOp], rfl, rfl, selects_of_opcode _ _ rfl (opcodeOf_encU ..)⟩

theorem Encoding.auipc (rd : RegIdx) (imm : Word) : Encoding.Statement (.auipc rd imm) :=
  ⟨⟨"AUIPC", .u, 0x00000017#32, 0x0000007F#32⟩, by simp [opcodeTable, opcodeRowsControl, opcodeRowsMemory, opcodeRowsOpImm,
    opcodeRowsOp], rfl, rfl, selects_of_opcode _ _ rfl (opcodeOf_encU ..)⟩

theorem Encoding.jal (rd : RegIdx) (imm : Word) : Encoding.Statement (.jal rd imm) :=
  ⟨⟨"JAL", .j, 0x0000006F#32, 0x0000007F#32⟩, by simp [opcodeTable, opcodeRowsControl, opcodeRowsMemory, opcodeRowsOpImm,
    opcodeRowsOp], rfl, rfl, selects_of_opcode _ _ rfl (opcodeOf_encJ ..)⟩

theorem Encoding.jalr (rd rs1 : RegIdx) (imm : Word) : Encoding.Statement (.jalr rd rs1 imm) :=
  ⟨⟨"JALR", .i, 0x00000067#32, 0x0000707F#32⟩, by simp [opcodeTable, opcodeRowsControl, opcodeRowsMemory, opcodeRowsOpImm,
    opcodeRowsOp], rfl, rfl, selects_of_funct3 _ _ rfl (opcodeOf_encI ..) (funct3Of_encI ..)⟩

theorem Encoding.beq (rs1 rs2 : RegIdx) (imm : Word) : Encoding.Statement (.beq rs1 rs2 imm) :=
  ⟨⟨"BEQ", .b, 0x00000063#32, 0x0000707F#32⟩, by simp [opcodeTable, opcodeRowsControl, opcodeRowsMemory, opcodeRowsOpImm,
    opcodeRowsOp], rfl, rfl, selects_of_funct3 _ _ rfl (opcodeOf_encB ..) (funct3Of_encB ..)⟩

theorem Encoding.bne (rs1 rs2 : RegIdx) (imm : Word) : Encoding.Statement (.bne rs1 rs2 imm) :=
  ⟨⟨"BNE", .b, 0x00001063#32, 0x0000707F#32⟩, by simp [opcodeTable, opcodeRowsControl, opcodeRowsMemory, opcodeRowsOpImm,
    opcodeRowsOp], rfl, rfl, selects_of_funct3 _ _ rfl (opcodeOf_encB ..) (funct3Of_encB ..)⟩

theorem Encoding.blt (rs1 rs2 : RegIdx) (imm : Word) : Encoding.Statement (.blt rs1 rs2 imm) :=
  ⟨⟨"BLT", .b, 0x00004063#32, 0x0000707F#32⟩, by simp [opcodeTable, opcodeRowsControl, opcodeRowsMemory, opcodeRowsOpImm,
    opcodeRowsOp], rfl, rfl, selects_of_funct3 _ _ rfl (opcodeOf_encB ..) (funct3Of_encB ..)⟩

theorem Encoding.bge (rs1 rs2 : RegIdx) (imm : Word) : Encoding.Statement (.bge rs1 rs2 imm) :=
  ⟨⟨"BGE", .b, 0x00005063#32, 0x0000707F#32⟩, by simp [opcodeTable, opcodeRowsControl, opcodeRowsMemory, opcodeRowsOpImm,
    opcodeRowsOp], rfl, rfl, selects_of_funct3 _ _ rfl (opcodeOf_encB ..) (funct3Of_encB ..)⟩

theorem Encoding.bltu (rs1 rs2 : RegIdx) (imm : Word) : Encoding.Statement (.bltu rs1 rs2 imm) :=
  ⟨⟨"BLTU", .b, 0x00006063#32, 0x0000707F#32⟩, by simp [opcodeTable, opcodeRowsControl, opcodeRowsMemory, opcodeRowsOpImm,
    opcodeRowsOp], rfl, rfl, selects_of_funct3 _ _ rfl (opcodeOf_encB ..) (funct3Of_encB ..)⟩

theorem Encoding.bgeu (rs1 rs2 : RegIdx) (imm : Word) : Encoding.Statement (.bgeu rs1 rs2 imm) :=
  ⟨⟨"BGEU", .b, 0x00007063#32, 0x0000707F#32⟩, by simp [opcodeTable, opcodeRowsControl, opcodeRowsMemory, opcodeRowsOpImm,
    opcodeRowsOp], rfl, rfl, selects_of_funct3 _ _ rfl (opcodeOf_encB ..) (funct3Of_encB ..)⟩

theorem Encoding.lb (rd rs1 : RegIdx) (imm : Word) : Encoding.Statement (.lb rd rs1 imm) :=
  ⟨⟨"LB", .i, 0x00000003#32, 0x0000707F#32⟩, by simp [opcodeTable, opcodeRowsControl, opcodeRowsMemory, opcodeRowsOpImm,
    opcodeRowsOp], rfl, rfl, selects_of_funct3 _ _ rfl (opcodeOf_encI ..) (funct3Of_encI ..)⟩

theorem Encoding.lh (rd rs1 : RegIdx) (imm : Word) : Encoding.Statement (.lh rd rs1 imm) :=
  ⟨⟨"LH", .i, 0x00001003#32, 0x0000707F#32⟩, by simp [opcodeTable, opcodeRowsControl, opcodeRowsMemory, opcodeRowsOpImm,
    opcodeRowsOp], rfl, rfl, selects_of_funct3 _ _ rfl (opcodeOf_encI ..) (funct3Of_encI ..)⟩

theorem Encoding.lw (rd rs1 : RegIdx) (imm : Word) : Encoding.Statement (.lw rd rs1 imm) :=
  ⟨⟨"LW", .i, 0x00002003#32, 0x0000707F#32⟩, by simp [opcodeTable, opcodeRowsControl, opcodeRowsMemory, opcodeRowsOpImm,
    opcodeRowsOp], rfl, rfl, selects_of_funct3 _ _ rfl (opcodeOf_encI ..) (funct3Of_encI ..)⟩

theorem Encoding.lbu (rd rs1 : RegIdx) (imm : Word) : Encoding.Statement (.lbu rd rs1 imm) :=
  ⟨⟨"LBU", .i, 0x00004003#32, 0x0000707F#32⟩, by simp [opcodeTable, opcodeRowsControl, opcodeRowsMemory, opcodeRowsOpImm,
    opcodeRowsOp], rfl, rfl, selects_of_funct3 _ _ rfl (opcodeOf_encI ..) (funct3Of_encI ..)⟩

theorem Encoding.lhu (rd rs1 : RegIdx) (imm : Word) : Encoding.Statement (.lhu rd rs1 imm) :=
  ⟨⟨"LHU", .i, 0x00005003#32, 0x0000707F#32⟩, by simp [opcodeTable, opcodeRowsControl, opcodeRowsMemory, opcodeRowsOpImm,
    opcodeRowsOp], rfl, rfl, selects_of_funct3 _ _ rfl (opcodeOf_encI ..) (funct3Of_encI ..)⟩

theorem Encoding.sb (rs1 rs2 : RegIdx) (imm : Word) : Encoding.Statement (.sb rs1 rs2 imm) :=
  ⟨⟨"SB", .s, 0x00000023#32, 0x0000707F#32⟩, by simp [opcodeTable, opcodeRowsControl, opcodeRowsMemory, opcodeRowsOpImm,
    opcodeRowsOp], rfl, rfl, selects_of_funct3 _ _ rfl (opcodeOf_encS ..) (funct3Of_encS ..)⟩

theorem Encoding.sh (rs1 rs2 : RegIdx) (imm : Word) : Encoding.Statement (.sh rs1 rs2 imm) :=
  ⟨⟨"SH", .s, 0x00001023#32, 0x0000707F#32⟩, by simp [opcodeTable, opcodeRowsControl, opcodeRowsMemory, opcodeRowsOpImm,
    opcodeRowsOp], rfl, rfl, selects_of_funct3 _ _ rfl (opcodeOf_encS ..) (funct3Of_encS ..)⟩

theorem Encoding.sw (rs1 rs2 : RegIdx) (imm : Word) : Encoding.Statement (.sw rs1 rs2 imm) :=
  ⟨⟨"SW", .s, 0x00002023#32, 0x0000707F#32⟩, by simp [opcodeTable, opcodeRowsControl, opcodeRowsMemory, opcodeRowsOpImm,
    opcodeRowsOp], rfl, rfl, selects_of_funct3 _ _ rfl (opcodeOf_encS ..) (funct3Of_encS ..)⟩

theorem Encoding.addi (rd rs1 : RegIdx) (imm : Word) : Encoding.Statement (.addi rd rs1 imm) :=
  ⟨⟨"ADDI", .i, 0x00000013#32, 0x0000707F#32⟩, by simp [opcodeTable, opcodeRowsControl, opcodeRowsMemory, opcodeRowsOpImm,
    opcodeRowsOp], rfl, rfl, selects_of_funct3 _ _ rfl (opcodeOf_encI ..) (funct3Of_encI ..)⟩

theorem Encoding.slti (rd rs1 : RegIdx) (imm : Word) : Encoding.Statement (.slti rd rs1 imm) :=
  ⟨⟨"SLTI", .i, 0x00002013#32, 0x0000707F#32⟩, by simp [opcodeTable, opcodeRowsControl, opcodeRowsMemory, opcodeRowsOpImm,
    opcodeRowsOp], rfl, rfl, selects_of_funct3 _ _ rfl (opcodeOf_encI ..) (funct3Of_encI ..)⟩

theorem Encoding.sltiu (rd rs1 : RegIdx) (imm : Word) : Encoding.Statement (.sltiu rd rs1 imm) :=
  ⟨⟨"SLTIU", .i, 0x00003013#32, 0x0000707F#32⟩, by simp [opcodeTable, opcodeRowsControl, opcodeRowsMemory, opcodeRowsOpImm,
    opcodeRowsOp], rfl, rfl, selects_of_funct3 _ _ rfl (opcodeOf_encI ..) (funct3Of_encI ..)⟩

theorem Encoding.xori (rd rs1 : RegIdx) (imm : Word) : Encoding.Statement (.xori rd rs1 imm) :=
  ⟨⟨"XORI", .i, 0x00004013#32, 0x0000707F#32⟩, by simp [opcodeTable, opcodeRowsControl, opcodeRowsMemory, opcodeRowsOpImm,
    opcodeRowsOp], rfl, rfl, selects_of_funct3 _ _ rfl (opcodeOf_encI ..) (funct3Of_encI ..)⟩

theorem Encoding.ori (rd rs1 : RegIdx) (imm : Word) : Encoding.Statement (.ori rd rs1 imm) :=
  ⟨⟨"ORI", .i, 0x00006013#32, 0x0000707F#32⟩, by simp [opcodeTable, opcodeRowsControl, opcodeRowsMemory, opcodeRowsOpImm,
    opcodeRowsOp], rfl, rfl, selects_of_funct3 _ _ rfl (opcodeOf_encI ..) (funct3Of_encI ..)⟩

theorem Encoding.andi (rd rs1 : RegIdx) (imm : Word) : Encoding.Statement (.andi rd rs1 imm) :=
  ⟨⟨"ANDI", .i, 0x00007013#32, 0x0000707F#32⟩, by simp [opcodeTable, opcodeRowsControl, opcodeRowsMemory, opcodeRowsOpImm,
    opcodeRowsOp], rfl, rfl, selects_of_funct3 _ _ rfl (opcodeOf_encI ..) (funct3Of_encI ..)⟩

theorem Encoding.slli (rd rs1 : RegIdx) (shamt : BitVec 5) : Encoding.Statement (.slli rd rs1 shamt) :=
  ⟨⟨"SLLI", .iShift, 0x00001013#32, 0xFE00707F#32⟩, by simp [opcodeTable, opcodeRowsControl, opcodeRowsMemory, opcodeRowsOpImm,
    opcodeRowsOp], rfl, rfl, selects_of_funct7 _ _ rfl (opcodeOf_encR ..) (funct3Of_encR ..) (funct7Of_encR ..)⟩

theorem Encoding.srli (rd rs1 : RegIdx) (shamt : BitVec 5) : Encoding.Statement (.srli rd rs1 shamt) :=
  ⟨⟨"SRLI", .iShift, 0x00005013#32, 0xFE00707F#32⟩, by simp [opcodeTable, opcodeRowsControl, opcodeRowsMemory, opcodeRowsOpImm,
    opcodeRowsOp], rfl, rfl, selects_of_funct7 _ _ rfl (opcodeOf_encR ..) (funct3Of_encR ..) (funct7Of_encR ..)⟩

theorem Encoding.srai (rd rs1 : RegIdx) (shamt : BitVec 5) : Encoding.Statement (.srai rd rs1 shamt) :=
  ⟨⟨"SRAI", .iShift, 0x40005013#32, 0xFE00707F#32⟩, by simp [opcodeTable, opcodeRowsControl, opcodeRowsMemory, opcodeRowsOpImm,
    opcodeRowsOp], rfl, rfl, selects_of_funct7 _ _ rfl (opcodeOf_encR ..) (funct3Of_encR ..) (funct7Of_encR ..)⟩

theorem Encoding.add (rd rs1 rs2 : RegIdx) : Encoding.Statement (.add rd rs1 rs2) :=
  ⟨⟨"ADD", .r, 0x00000033#32, 0xFE00707F#32⟩, by simp [opcodeTable, opcodeRowsControl, opcodeRowsMemory, opcodeRowsOpImm,
    opcodeRowsOp], rfl, rfl, selects_of_funct7 _ _ rfl (opcodeOf_encR ..) (funct3Of_encR ..) (funct7Of_encR ..)⟩

theorem Encoding.sub (rd rs1 rs2 : RegIdx) : Encoding.Statement (.sub rd rs1 rs2) :=
  ⟨⟨"SUB", .r, 0x40000033#32, 0xFE00707F#32⟩, by simp [opcodeTable, opcodeRowsControl, opcodeRowsMemory, opcodeRowsOpImm,
    opcodeRowsOp], rfl, rfl, selects_of_funct7 _ _ rfl (opcodeOf_encR ..) (funct3Of_encR ..) (funct7Of_encR ..)⟩

theorem Encoding.sll (rd rs1 rs2 : RegIdx) : Encoding.Statement (.sll rd rs1 rs2) :=
  ⟨⟨"SLL", .r, 0x00001033#32, 0xFE00707F#32⟩, by simp [opcodeTable, opcodeRowsControl, opcodeRowsMemory, opcodeRowsOpImm,
    opcodeRowsOp], rfl, rfl, selects_of_funct7 _ _ rfl (opcodeOf_encR ..) (funct3Of_encR ..) (funct7Of_encR ..)⟩

theorem Encoding.slt (rd rs1 rs2 : RegIdx) : Encoding.Statement (.slt rd rs1 rs2) :=
  ⟨⟨"SLT", .r, 0x00002033#32, 0xFE00707F#32⟩, by simp [opcodeTable, opcodeRowsControl, opcodeRowsMemory, opcodeRowsOpImm,
    opcodeRowsOp], rfl, rfl, selects_of_funct7 _ _ rfl (opcodeOf_encR ..) (funct3Of_encR ..) (funct7Of_encR ..)⟩

theorem Encoding.sltu (rd rs1 rs2 : RegIdx) : Encoding.Statement (.sltu rd rs1 rs2) :=
  ⟨⟨"SLTU", .r, 0x00003033#32, 0xFE00707F#32⟩, by simp [opcodeTable, opcodeRowsControl, opcodeRowsMemory, opcodeRowsOpImm,
    opcodeRowsOp], rfl, rfl, selects_of_funct7 _ _ rfl (opcodeOf_encR ..) (funct3Of_encR ..) (funct7Of_encR ..)⟩

theorem Encoding.xor (rd rs1 rs2 : RegIdx) : Encoding.Statement (.xor rd rs1 rs2) :=
  ⟨⟨"XOR", .r, 0x00004033#32, 0xFE00707F#32⟩, by simp [opcodeTable, opcodeRowsControl, opcodeRowsMemory, opcodeRowsOpImm,
    opcodeRowsOp], rfl, rfl, selects_of_funct7 _ _ rfl (opcodeOf_encR ..) (funct3Of_encR ..) (funct7Of_encR ..)⟩

theorem Encoding.srl (rd rs1 rs2 : RegIdx) : Encoding.Statement (.srl rd rs1 rs2) :=
  ⟨⟨"SRL", .r, 0x00005033#32, 0xFE00707F#32⟩, by simp [opcodeTable, opcodeRowsControl, opcodeRowsMemory, opcodeRowsOpImm,
    opcodeRowsOp], rfl, rfl, selects_of_funct7 _ _ rfl (opcodeOf_encR ..) (funct3Of_encR ..) (funct7Of_encR ..)⟩

theorem Encoding.sra (rd rs1 rs2 : RegIdx) : Encoding.Statement (.sra rd rs1 rs2) :=
  ⟨⟨"SRA", .r, 0x40005033#32, 0xFE00707F#32⟩, by simp [opcodeTable, opcodeRowsControl, opcodeRowsMemory, opcodeRowsOpImm,
    opcodeRowsOp], rfl, rfl, selects_of_funct7 _ _ rfl (opcodeOf_encR ..) (funct3Of_encR ..) (funct7Of_encR ..)⟩

theorem Encoding.or (rd rs1 rs2 : RegIdx) : Encoding.Statement (.or rd rs1 rs2) :=
  ⟨⟨"OR", .r, 0x00006033#32, 0xFE00707F#32⟩, by simp [opcodeTable, opcodeRowsControl, opcodeRowsMemory, opcodeRowsOpImm,
    opcodeRowsOp], rfl, rfl, selects_of_funct7 _ _ rfl (opcodeOf_encR ..) (funct3Of_encR ..) (funct7Of_encR ..)⟩

theorem Encoding.and (rd rs1 rs2 : RegIdx) : Encoding.Statement (.and rd rs1 rs2) :=
  ⟨⟨"AND", .r, 0x00007033#32, 0xFE00707F#32⟩, by simp [opcodeTable, opcodeRowsControl, opcodeRowsMemory, opcodeRowsOpImm,
    opcodeRowsOp], rfl, rfl, selects_of_funct7 _ _ rfl (opcodeOf_encR ..) (funct3Of_encR ..) (funct7Of_encR ..)⟩

end Sys2Proof.Laws
end

