-- ==== Sys2Proof/Tests/Slice0.lean ====
section
/-! SUPPORT. The model's own tests. Expected values are the spec's: 95_test_vectors.md by section, or a hand
calculation from the rule named. Each test is about one step, or one operation, on a small state. The last
part shows, for each statement with hypotheses, a concrete case that meets them. -/

namespace Sys2Proof.Tests

open Sys2Proof.Machine

/-! ### Helpers -/

/-- The reference system right after reset, with this pc, these registers and these bytes of memory. -/
def start (pc : Word) (regs : List (RegIdx × Word)) (mem : List Host.Cell) : State :=
  mem.foldl (fun s c => s.writeByte c.1 c.2)
    (regs.foldl (fun s r => s.writeReg r.1 r.2) { State.reset with pc := pc })

/-- One step, with this word placed at the pc. -/
def stepWord (s : State) (w : Nat) : State :=
  match step (s.withFetchWord 32 w) with
  | .next t => t
  | .fault _ => s
  | .refused _ => s

/-- `x1` and `x2`, as the vectors of sections 2.4 to 2.8 use them. -/
def with12 (a b : Word) : State := start 0#32 [(1#5, a), (2#5, b)] []

/-- Data memory of section 2.5, `x1` at its base and `x3` marked. -/
def loadState : State :=
  start 0#32 [(1#5, 0x10000000#32), (3#5, 0x55555555#32)]
    [(0x10000000, 0x80#8), (0x10000001, 0xFF#8), (0x10000002, 0x7F#8), (0x10000004, 0xEF#8),
     (0x10000005, 0xCD#8), (0x10000006, 0xAB#8), (0x10000007, 0x89#8)]

/-- Data memory of section 2.6. -/
def storeState : State :=
  start 0#32 [(1#5, 0x10000000#32), (2#5, 0x89ABCDEF#32)]
    [(0x10000000, 0x11#8), (0x10000001, 0x11#8), (0x10000002, 0x11#8), (0x10000003, 0x11#8),
     (0x10000004, 0x11#8), (0x10000005, 0x11#8), (0x10000006, 0x11#8), (0x10000007, 0x11#8)]

/-- The eight bytes at `0x1000_0000`. -/
def dataBytes (s : State) : List Byte :=
  [s.readByte 0x10000000, s.readByte 0x10000001, s.readByte 0x10000002, s.readByte 0x10000003,
   s.readByte 0x10000004, s.readByte 0x10000005, s.readByte 0x10000006, s.readByte 0x10000007]

/-! ### WellFormed refuses ill-formed terms (one per check) -/

theorem test_wf_imm12_too_big : (Instr.addi 1#5 1#5 2048#32).wellFormed = false := by decide
theorem test_wf_imm12_too_small : (Instr.lw 1#5 1#5 0xFFFFF7FF#32).wellFormed = false := by decide
theorem test_wf_store_imm12 : (Instr.sw 1#5 1#5 0x00001000#32).wellFormed = false := by decide
theorem test_wf_branch_odd : (Instr.beq 1#5 1#5 7#32).wellFormed = false := by decide
theorem test_wf_branch_too_big : (Instr.bne 1#5 1#5 4096#32).wellFormed = false := by decide
theorem test_wf_branch_too_small : (Instr.blt 1#5 1#5 0xFFFFEFFE#32).wellFormed = false := by decide
theorem test_wf_upper_low_bits : (Instr.lui 1#5 1#32).wellFormed = false := by decide
theorem test_wf_jal_odd : (Instr.jal 1#5 3#32).wellFormed = false := by decide
theorem test_wf_jal_too_big : (Instr.jal 1#5 1048576#32).wellFormed = false := by decide
theorem test_wf_jal_too_small : (Instr.jal 1#5 0xFFEFFFFE#32).wellFormed = false := by decide
theorem test_wf_accepts_the_ends :
    (Instr.addi 1#5 1#5 2047#32).wellFormed = true ∧ (Instr.addi 1#5 1#5 0xFFFFF800#32).wellFormed = true
    ∧ (Instr.beq 1#5 1#5 4094#32).wellFormed = true ∧ (Instr.beq 1#5 1#5 0xFFFFF000#32).wellFormed = true
    ∧ (Instr.jal 1#5 1048574#32).wellFormed = true ∧ (Instr.jal 1#5 0xFFF00000#32).wellFormed = true := by
  decide

/-! ### Decoding: every constructor, from words of 95_test_vectors.md sections 2.1 to 2.8 -/

theorem test_decode_upper_and_jumps :
    decode 0xDEADB2B7#32 = .ok (.lui 5#5 0xDEADB000#32)
    ∧ decode 0x12345317#32 = .ok (.auipc 6#5 0x12345000#32)
    ∧ decode 0x7FFFF0EF#32 = .ok (.jal 1#5 0x000FFFFE#32)
    ∧ decode 0x800000EF#32 = .ok (.jal 1#5 0xFFF00000#32)
    ∧ decode 0x001000EF#32 = .ok (.jal 1#5 0x00000800#32)
    ∧ decode 0xFFD302E7#32 = .ok (.jalr 5#5 6#5 0xFFFFFFFD#32) := by decide

/-- The words of section 2.4, and `BNE x5, x0, -8` bit by bit:
imm[12] 1, imm[10:5] 111111, rs2 00000, rs1 00101, funct3 001, imm[4:1] 1100, imm[11] 1, opcode 1100011. -/
theorem test_decode_branches :
    decode 0x7E208FE3#32 = .ok (.beq 1#5 2#5 0x00000FFE#32)
    ∧ decode 0b1_111111_00000_00101_001_1100_1_1100011#32 = .ok (.bne 5#5 0#5 0xFFFFFFF8#32)
    ∧ decode 0xFE20CCE3#32 = .ok (.blt 1#5 2#5 0xFFFFFFF8#32)
    ∧ decode 0x8020D063#32 = .ok (.bge 1#5 2#5 0xFFFFF000#32)
    ∧ decode 0x0020E463#32 = .ok (.bltu 1#5 2#5 8#32)
    ∧ decode 0x0020F363#32 = .ok (.bgeu 1#5 2#5 6#32) := by decide

theorem test_decode_loads :
    decode 0xFFF08183#32 = .ok (.lb 3#5 1#5 0xFFFFFFFF#32)
    ∧ decode 0x00609183#32 = .ok (.lh 3#5 1#5 6#32)
    ∧ decode 0x7FC0A183#32 = .ok (.lw 3#5 1#5 2044#32)
    ∧ decode 0x0000C203#32 = .ok (.lbu 4#5 1#5 0#32)
    ∧ decode 0x0030D183#32 = .ok (.lhu 3#5 1#5 3#32) := by decide

/-- `SW x5, 12(x6)` bit by bit: imm[11:5] 0000000, rs2 00101, rs1 00110, funct3 010, imm[4:0] 01100,
opcode 0100011. -/
theorem test_decode_stores :
    decode 0xFE208FA3#32 = .ok (.sb 1#5 2#5 0xFFFFFFFF#32)
    ∧ decode 0x002091A3#32 = .ok (.sh 1#5 2#5 3#32)
    ∧ decode 0b0000000_00101_00110_010_01100_0100011#32 = .ok (.sw 6#5 5#5 12#32)
    ∧ decode 0x7E20AFA3#32 = .ok (.sw 1#5 2#5 2047#32) := by decide

theorem test_decode_alu_immediate :
    decode 0x80008193#32 = .ok (.addi 3#5 1#5 0xFFFFF800#32)
    ∧ decode 0xFFF0A193#32 = .ok (.slti 3#5 1#5 0xFFFFFFFF#32)
    ∧ decode 0x7FF0B193#32 = .ok (.sltiu 3#5 1#5 2047#32)
    ∧ decode 0xFF00C193#32 = .ok (.xori 3#5 1#5 0xFFFFFFF0#32)
    ∧ decode 0x0010E193#32 = .ok (.ori 3#5 1#5 1#32)
    ∧ decode 0x0000F193#32 = .ok (.andi 3#5 1#5 0#32)
    ∧ decode 0x01009193#32 = .ok (.slli 3#5 1#5 16#5)
    ∧ decode 0x01F0D193#32 = .ok (.srli 3#5 1#5 31#5)
    ∧ decode 0x40395893#32 = .ok (.srai 17#5 18#5 3#5) := by decide

theorem test_decode_alu_register :
    decode 0x002081B3#32 = .ok (.add 3#5 1#5 2#5) ∧ decode 0x402081B3#32 = .ok (.sub 3#5 1#5 2#5)
    ∧ decode 0x002091B3#32 = .ok (.sll 3#5 1#5 2#5) ∧ decode 0x0020A1B3#32 = .ok (.slt 3#5 1#5 2#5)
    ∧ decode 0x0020B1B3#32 = .ok (.sltu 3#5 1#5 2#5) ∧ decode 0x0020C1B3#32 = .ok (.xor 3#5 1#5 2#5)
    ∧ decode 0x0020D1B3#32 = .ok (.srl 3#5 1#5 2#5) ∧ decode 0x4020D1B3#32 = .ok (.sra 3#5 1#5 2#5)
    ∧ decode 0x0020E1B3#32 = .ok (.or 3#5 1#5 2#5) ∧ decode 0x0020F1B3#32 = .ok (.and 3#5 1#5 2#5) := by
  decide

/-- Section 2.9, the whole table. -/
def illegalWords : List Word :=
  [0x00000000#32, 0xFFFFFFFF#32, 0x00000001#32, 0x00008082#32, 0x0FF0000F#32, 0x0000100F#32, 0x00000073#32,
   0x00100073#32, 0xC00020F3#32, 0x30200073#32, 0x10500073#32, 0x022081B3#32, 0x402091B3#32, 0x4020F1B3#32,
   0x202081B3#32, 0x802081B3#32, 0x40109193#32, 0x0210D193#32, 0x6010D193#32, 0x000090E7#32, 0x0020A463#32,
   0x0020B463#32, 0x0000B183#32, 0x0000E183#32, 0x0000F183#32, 0x0020B023#32, 0x0020C023#32, 0x0000202F#32,
   0x00002007#32, 0x0000001B#32, 0x0000000B#32]

theorem test_decode_illegal_words :
    illegalWords.all (fun w => match decode w with | .ok _ => false | .error _ => true) = true := by decide

theorem test_decode_names_the_reason :
    decode 0x00000073#32 = .error .unknownOpcode ∧ decode 0x000090E7#32 = .error .unknownFunct3
    ∧ decode 0x40109193#32 = .error .shiftFunct7 ∧ decode 0x022081B3#32 = .error .opFunct7 := by decide

/-- Section 2.9, the legal neighbours. -/
theorem test_decode_legal_neighbours :
    decode 0x00000003#32 = .ok (.lb 0#5 0#5 0#32) ∧ decode 0x00000023#32 = .ok (.sb 0#5 0#5 0#32)
    ∧ decode 0x00000033#32 = .ok (.add 0#5 0#5 0#5) ∧ decode 0x00000063#32 = .ok (.beq 0#5 0#5 0#32)
    ∧ decode 0x4000D193#32 = .ok (.srai 3#5 1#5 0#5) := by decide

theorem test_decodeBytes_is_little_endian :
    decodeBytes [0xB7#8, 0xB2#8, 0xAD#8, 0xDE#8, 0x01#8] = .ok (.lui 5#5 0xDEADB000#32, [0x01#8])
    ∧ decodeBytes [0xB7#8, 0xB2#8, 0xAD#8] = .error .truncated := by decide

theorem test_decodeTableWord :
    decodeTableWord 32 0x00008067 = some (.jalr 0#5 1#5 0#32) ∧ decodeTableWord 32 0x73 = none := by decide

theorem test_encode_words :
    encode (.bne 5#5 0#5 0xFFFFFFF8#32) = 0xFE029CE3#32 ∧ encode (.sw 1#5 2#5 0xFFFFF800#32) = 0x8020A023#32
    ∧ encode (.jal 0#5 0xFFFFFFFC#32) = 0xFFDFF06F#32 ∧ encode (.srai 17#5 18#5 3#5) = 0x40395893#32
    ∧ encodeBytes (.lui 5#5 0xDEADB000#32) = [0xB7#8, 0xB2#8, 0xAD#8, 0xDE#8] := by decide

/-! ### One step, by instruction -/

theorem test_lui : (stepWord (start 0x40#32 [(5#5, 0x55555555#32)] []) 0xDEADB2B7).readReg 5#5 = 0xDEADB000#32 := by
  decide
theorem test_auipc_wraps : (stepWord (start 0xFFC#32 [] []) 0xFFFFF097).readReg 1#5 = 0xFFFFFFFC#32 := by decide
theorem test_auipc_pc : (stepWord (start 0x100#32 [] []) 0x12345317).pc = 0x104#32 := by decide

theorem test_jal_backwards :
    (stepWord (start 0x100#32 [] []) 0xF01FF0EF).pc = 0#32
    ∧ (stepWord (start 0x100#32 [] []) 0xF01FF0EF).readReg 1#5 = 0x104#32 := by decide
/-- `JAL x1, -256` at pc 0 wraps to `0xFFFFFF00`; the link is 4. -/
theorem test_jal_wraps : (stepWord (start 0#32 [] []) 0xF01FF0EF).pc = 0xFFFFFF00#32 := by decide
theorem test_jalr_rd_is_rs1 :
    (stepWord (start 0x100#32 [(5#5, 0x200#32)] []) 0x004282E7).pc = 0x204#32
    ∧ (stepWord (start 0x100#32 [(5#5, 0x200#32)] []) 0x004282E7).readReg 5#5 = 0x104#32 := by decide
theorem test_jalr_clears_bit_0_only :
    (stepWord (start 0x100#32 [(2#5, 0x100#32)] []) 0x007100E7).pc = 0x106#32
    ∧ (stepWord (start 0x100#32 [] []) 0xFFF100E7).pc = 0xFFFFFFFE#32 := by decide
/-- Section 2.3: the jump retires, the next step raises MisalignedFetch. -/
theorem test_misaligned_target_faults_next :
    step (stepWord (start 4#32 [] []) 0x006002EF)
      = .next ((stepWord (start 4#32 [] []) 0x006002EF).enterFault .misalignedFetch) := by rfl

/-- Section 2.4, the row `0x80000000`, `0x7FFFFFFF` (imm = +8): N T T N N T. -/
theorem test_branches_signed_against_unsigned :
    (stepWord (with12 0x80000000#32 0x7FFFFFFF#32) 0x00208463).pc = 4#32
    ∧ (stepWord (with12 0x80000000#32 0x7FFFFFFF#32) 0x00209463).pc = 8#32
    ∧ (stepWord (with12 0x80000000#32 0x7FFFFFFF#32) 0x0020C463).pc = 8#32
    ∧ (stepWord (with12 0x80000000#32 0x7FFFFFFF#32) 0x0020D463).pc = 4#32
    ∧ (stepWord (with12 0x80000000#32 0x7FFFFFFF#32) 0x0020E463).pc = 4#32
    ∧ (stepWord (with12 0x80000000#32 0x7FFFFFFF#32) 0x0020F463).pc = 8#32 := by decide
/-- Section 2.4, the row `0x80000000`, `0x80000000`: T N N T N T. -/
theorem test_branches_equal_operands :
    (stepWord (with12 0x80000000#32 0x80000000#32) 0x00208463).pc = 8#32
    ∧ (stepWord (with12 0x80000000#32 0x80000000#32) 0x00209463).pc = 4#32
    ∧ (stepWord (with12 0x80000000#32 0x80000000#32) 0x0020C463).pc = 4#32
    ∧ (stepWord (with12 0x80000000#32 0x80000000#32) 0x0020D463).pc = 8#32
    ∧ (stepWord (with12 0x80000000#32 0x80000000#32) 0x0020E463).pc = 4#32
    ∧ (stepWord (with12 0x80000000#32 0x80000000#32) 0x0020F463).pc = 8#32 := by decide
theorem test_branch_ends_of_range :
    (stepWord (start 0x100#32 [] []) 0x7E208FE3).pc = 0x10FE#32
    ∧ (stepWord (start 0x1000#32 [] []) 0x80208063).pc = 0#32 := by decide

theorem test_lb : (stepWord loadState 0x00708183).readReg 3#5 = 0xFFFFFF89#32 := by decide
theorem test_lbu : (stepWord loadState 0x0010C183).readReg 3#5 = 0x000000FF#32 := by decide
theorem test_lh : (stepWord loadState 0x00609183).readReg 3#5 = 0xFFFF89AB#32 := by decide
theorem test_lhu : (stepWord loadState 0x0000D183).readReg 3#5 = 0x0000FF80#32 := by decide
theorem test_lw : (stepWord loadState 0x0040A183).readReg 3#5 = 0x89ABCDEF#32 := by decide
/-- `LW x3, 1(x1)` with `x1 = 0xFFFFFFFF`: the address wraps to 0 and reads the instruction itself. -/
theorem test_lw_address_wraps : (stepWord (with12 0xFFFFFFFF#32 0#32) 0x0010A183).readReg 3#5 = 0x0010A183#32 := by
  decide
theorem test_lh_misaligned :
    (stepWord loadState 0x00109183).faultRecord
      = some { pc := 0#32, info := .misalignedAccess 0x10000001#32 .half .load }
    ∧ (stepWord loadState 0x00109183).readReg 3#5 = 0x55555555#32 := by decide
theorem test_lb_unmapped :
    (stepWord loadState 0xFFF08183).faultRecord
      = some { pc := 0#32, info := .unmappedAccess 0x0FFFFFFF#32 .byte .load } := by decide
/-- The read is made for `rd = x0` too: `LW x0, 2(x1)`. -/
theorem test_lw_x0_still_reads : (stepWord loadState 0x0020A003).hartState = .faulted := by decide
theorem test_lbu_inside_control_window :
    (stepWord (with12 0x20000003#32 0#32) 0x0000C183).faultRecord
      = some { pc := 0#32, info := .unmappedAccess 0x20000003#32 .byte .load } := by decide

theorem test_sb : dataBytes (stepWord storeState 0x002083A3)
    = [0x11#8, 0x11#8, 0x11#8, 0x11#8, 0x11#8, 0x11#8, 0x11#8, 0xEF#8] := by decide
theorem test_sh : dataBytes (stepWord storeState 0x00209323)
    = [0x11#8, 0x11#8, 0x11#8, 0x11#8, 0x11#8, 0x11#8, 0xEF#8, 0xCD#8] := by decide
theorem test_sw : dataBytes (stepWord storeState 0x0020A223)
    = [0x11#8, 0x11#8, 0x11#8, 0x11#8, 0xEF#8, 0xCD#8, 0xAB#8, 0x89#8] := by decide
theorem test_sw_misaligned_changes_nothing :
    dataBytes (stepWord storeState 0x0020A0A3) = dataBytes storeState
    ∧ (stepWord storeState 0x0020A0A3).faultRecord
      = some { pc := 0#32, info := .misalignedAccess 0x10000001#32 .word .store } := by decide
theorem test_sh_misaligned : (stepWord storeState 0x002090A3).hartState = .faulted := by decide
theorem test_sb_unmapped :
    (stepWord storeState 0xFE208FA3).faultRecord
      = some { pc := 0#32, info := .unmappedAccess 0x0FFFFFFF#32 .byte .store } := by decide
theorem test_sw_instruction_memory : (stepWord (with12 0x40#32 0x00100093#32) 0x0020A023).readByte 0x42 = 0x10#8 := by
  decide

/-! SimControl, section 2.6 -/

theorem test_control_halts :
    (stepWord (with12 0x20000000#32 3#32) 0x0020A023).hartState = .halted
    ∧ (stepWord (with12 0x20000000#32 3#32) 0x0020A023).control = 3#32
    ∧ (stepWord (with12 0x20000000#32 3#32) 0x0020A023).pc = 4#32 := by decide
theorem test_control_bit_0_clear :
    (stepWord (with12 0x20000000#32 2#32) 0x0020A023).hartState = .running
    ∧ (stepWord (with12 0x20000000#32 2#32) 0x0020A023).control = 2#32 := by decide
theorem test_control_narrow_store :
    (stepWord (with12 0x20000000#32 1#32) 0x00209023).faultRecord
      = some { pc := 0#32, info := .unmappedAccess 0x20000000#32 .half .store }
    ∧ (stepWord (with12 0x20000000#32 1#32) 0x00209023).control = 0#32 := by decide
theorem test_control_past_the_window : (stepWord (with12 0x20000004#32 1#32) 0x0020A023).hartState = .faulted := by
  decide

/-! ALU, sections 2.7 and 2.8 -/

theorem test_addi_wraps : (stepWord (with12 0x80000000#32 0#32) 0xFFF08193).readReg 3#5 = 0x7FFFFFFF#32 := by decide
theorem test_addi_rd_is_rs1 : (stepWord (with12 7#32 0#32) 0x00108093).readReg 1#5 = 8#32 := by decide
theorem test_addi_x0 : (stepWord (with12 7#32 0#32) 0x00108013).readReg 0#5 = 0#32 := by decide
theorem test_slti : (stepWord (with12 0x80000000#32 0#32) 0xFFF0A193).readReg 3#5 = 1#32 := by decide
theorem test_sltiu_sign_extends : (stepWord (with12 0x7FFFFFFF#32 0#32) 0xFFF0B193).readReg 3#5 = 1#32 := by decide
theorem test_sltiu_against_slti : (stepWord (with12 0xFFFFFFFF#32 0#32) 0x0010B193).readReg 3#5 = 0#32 := by decide
theorem test_xori : (stepWord (with12 0xFFFFF800#32 0#32) 0x7FF0C193).readReg 3#5 = 0xFFFFFFFF#32 := by decide
theorem test_ori : (stepWord (with12 0x80000000#32 0#32) 0x8000E193).readReg 3#5 = 0xFFFFF800#32 := by decide
theorem test_andi : (stepWord (with12 0xFFFFFFFF#32 0#32) 0x7FF0F193).readReg 3#5 = 0x000007FF#32 := by decide
theorem test_slli : (stepWord (with12 0x12345678#32 0#32) 0x01009193).readReg 3#5 = 0x56780000#32 := by decide
theorem test_srli : (stepWord (with12 0x80000000#32 0#32) 0x01F0D193).readReg 3#5 = 1#32 := by decide
theorem test_srai : (stepWord (with12 0x80000000#32 0#32) 0x4100D193).readReg 3#5 = 0xFFFF8000#32 := by decide

theorem test_add : (stepWord (with12 0x80000000#32 0xFFFFFFFF#32) 0x002081B3).readReg 3#5 = 0x7FFFFFFF#32 := by decide
theorem test_add_one_register : (stepWord (with12 0x40000000#32 0#32) 0x001080B3).readReg 1#5 = 0x80000000#32 := by
  decide
theorem test_sub : (stepWord (with12 5#32 0xFFFFFFFB#32) 0x402081B3).readReg 3#5 = 0x0000000A#32 := by decide
theorem test_sll_low_bits : (stepWord (with12 5#32 0xFFFFFFFB#32) 0x002091B3).readReg 3#5 = 0x28000000#32 := by decide
theorem test_slt : (stepWord (with12 0x80000000#32 0x7FFFFFFF#32) 0x0020A1B3).readReg 3#5 = 1#32 := by decide
theorem test_sltu : (stepWord (with12 0x80000000#32 0x7FFFFFFF#32) 0x0020B1B3).readReg 3#5 = 0#32 := by decide
theorem test_xor : (stepWord (with12 0xF0F0F0F0#32 0x0FF00FF0#32) 0x0020C1B3).readReg 3#5 = 0xFF00FF00#32 := by decide
theorem test_srl : (stepWord (with12 0xF0F0F0F0#32 0x0FF00FF0#32) 0x0020D1B3).readReg 3#5 = 0x0000F0F0#32 := by decide
theorem test_srl_by_32_is_by_0 : (stepWord (with12 1#32 0x20#32) 0x0020D1B3).readReg 3#5 = 1#32 := by decide
theorem test_sra : (stepWord (with12 0xF0F0F0F0#32 0x0FF00FF0#32) 0x4020D1B3).readReg 3#5 = 0xFFFFF0F0#32 := by decide
theorem test_or : (stepWord (with12 0xF0F0F0F0#32 0x0FF00FF0#32) 0x0020E1B3).readReg 3#5 = 0xFFF0FFF0#32 := by decide
theorem test_and : (stepWord (with12 0xF0F0F0F0#32 0x0FF00FF0#32) 0x0020F1B3).readReg 3#5 = 0x00F000F0#32 := by decide

/-! ### Fetch, faults and hart states (section 2.10) -/

theorem test_empty_memory_is_illegal :
    step State.reset = .next (State.reset.enterFault (.illegalInstruction 0#32)) := by rfl
theorem test_terminal_states_step_to_themselves :
    step (State.reset.enterFault (.illegalInstruction 0#32)) = .next (State.reset.enterFault (.illegalInstruction 0#32))
    := by rfl
theorem test_fetch_misaligned_before_unmapped :
    step (start 0x30000001#32 [] []) = .next ((start 0x30000001#32 [] []).enterFault .misalignedFetch) := by rfl
theorem test_fetch_past_instruction_memory :
    step (start 0x00010000#32 [] [])
      = .next ((start 0x00010000#32 [] []).enterFault (.unmappedAccess 0x00010000#32 .word .fetch)) := by rfl
theorem test_fetch_from_data_memory :
    (stepWord (start 0x10000000#32 [] []) 0x00100093).readReg 1#5 = 1#32 := by decide
theorem test_fetch_from_control :
    step (start 0x20000000#32 [] [])
      = .next ((start 0x20000000#32 [] []).enterFault (.illegalInstruction 0#32)) := by rfl
theorem test_ecall_is_illegal :
    (stepWord State.reset 0x00000073).faultRecord = some { pc := 0#32, info := .illegalInstruction 0x73#32 } := by
  decide

/-! ### Ports, peripherals and reset (sections 2.11, 2.12) -/

/-- A memory-region port. -/
def region (base size : Nat) : Port := { name := "R", base := base, size := size, target := .memory }

theorem test_attach_adjacent : (attach [region 0 0x1000] (region 0x1000 0x1000)).isOk = true := by decide
theorem test_attach_overlap : attach [region 0 0x1000] (region 0x0FFF 0x10) = .error .busOverlap := by decide
theorem test_attach_containing : attach [region 0x1000 0x1000] (region 0x0800 0x2000) = .error .busOverlap := by decide
theorem test_attach_empty : attach [] (region 0 0) = .error .badPortSize := by decide
theorem test_attach_top :
    (attach [] (region 0xFFFFF000 0x1000)).isOk = true ∧ attach [] (region 0xFFFFF000 0x1001) = .error .badPortSize := by
  decide

/-- Section 2.11: two regions that meet at `0x1002`. -/
def splitState : State :=
  State.resetWith { ports := [region 0 0x1002, region 0x1002 0x0FFE], resetVector := 0#32, initImage := [],
                    maxSteps := none }

theorem test_access_across_two_ports :
    memRead .load 0x1000#32 .word splitState = .error (.unmappedAccess 0x1000#32 .word .load)
    ∧ memRead .load 0x1000#32 .half splitState = .ok (0#32, splitState)
    ∧ memRead .load 0x1002#32 .half splitState = .ok (0#32, splitState) := by
  decide

theorem test_reset_image :
    (State.resetWith { referenceConfig with initImage := [(0, 0x93#8), (1, 0x00#8), (2, 0x10#8), (3, 0x00#8)] }).regionRead
      0 .word = 0x00100093#32 := by decide
theorem test_image_outside_memory :
    powerOn { referenceConfig with initImage := [(0x20000000, 1#8)] } = .fault .imageOutsideMemory := by rfl

/-- Two 32-bit registers: a write-one-to-clear register with a trigger that counts in the local state, and a
halfword register. -/
def counterPort : Port :=
  { name := "CNT", base := 0x40000000, size := 8,
    target := .peripheral
      [{ offset := 0, width := .word, readHandler := .xor .x (.lit 0x80000000#32), writeHandler := .sub .y (.and .x .y),
         triggers := [{ predicate := .eq .x (.lit 0#32), callback := .setLocal (.add .z (.lit 1#32)) },
                      { predicate := .ltu .x .y, callback := .setLocal (.shl .z 4) }] },
       { offset := 4, width := .half, readHandler := .x, writeHandler := .x, triggers := [] }] }

/-- The reference system with that port added, `x1` at its base, `x2 = 3`, and 3 in its first register. -/
def counterState : State :=
  { start 0#32 [(1#5, 0x40000000#32), (2#5, 3#32)] [] with
    cfg := { referenceConfig with ports := referenceConfig.ports ++ [counterPort] }
    storage := [(0x40000000, 3#32)] }

/-- R114, R117: storage first, then both triggers in order: (0 + 1) shifted left by 4. -/
theorem test_triggers_run_in_order :
    (stepWord counterState 0x0020A023).readStorage 0x40000000 = 0#32
    ∧ (stepWord counterState 0x0020A023).readLocal 0x40000000 = 0x10#32 := by decide
theorem test_read_handler : (stepWord counterState 0x0000A183).readReg 3#5 = 0x80000003#32 := by decide
theorem test_peripheral_width_must_match :
    (stepWord counterState 0x0040A183).faultRecord
      = some { pc := 0#32, info := .unmappedAccess 0x40000004#32 .word .load } := by decide

/-- A mailbox: a write is kept in the local state (and fires on every value), a read gives it back and empties the
box: a read handler with a side effect (R121). -/
def mailboxPort : Port :=
  { name := "BOX", base := 0x50000000, size := 4,
    target := .peripheral
      [{ offset := 0, width := .word, readHandler := .z, readEffect := some (.lit 0#32), writeHandler := .x,
         triggers := [{ predicate := .lit 1#32, callback := .setLocal .x }] }] }

/-- The reference system with the mailbox holding `v`, the pc at `pc`, `x1` at its base. -/
def mailboxState (pc v : Word) : State :=
  { start pc [(1#5, 0x50000000#32)] [] with
    cfg := { referenceConfig with ports := referenceConfig.ports ++ [mailboxPort] }
    locals := [(0x50000000, v)] }

/-- R89, R121: `LW x3, 0(x1)` takes the word out; with `rd = x0` too (D21). -/
theorem test_read_with_side_effect :
    (stepWord (mailboxState 0#32 5#32) 0x0000A183).readReg 3#5 = 5#32
    ∧ (stepWord (mailboxState 0#32 5#32) 0x0000A183).readLocal 0x50000000 = 0#32
    ∧ (stepWord (mailboxState 0#32 5#32) 0x0000A003).readLocal 0x50000000 = 0#32 := by decide
/-- R89: a fetch from the window has the read's effect: the word `ADDI x1, x0, 1` runs and is gone. -/
theorem test_fetch_with_side_effect :
    ∃ t, step (mailboxState 0x50000000#32 0x00100093#32) = .next t ∧ t.readReg 1#5 = 1#32
      ∧ t.readLocal 0x50000000 = 0#32 := ⟨_, rfl, by decide⟩
/-- R281: an illegal word fetched from the window, and a load that faults: the faulting step has changed nothing,
the box keeps its word. -/
theorem test_faulting_step_undoes_its_fetch :
    (∃ t, step (mailboxState 0x50000000#32 5#32) = .next t ∧ t.hartState = .faulted
      ∧ t.readLocal 0x50000000 = 5#32)
    ∧ ∃ t, step (mailboxState 0x50000000#32 0x0020A103#32) = .next t
      ∧ t.faultRecord = some { pc := 0x50000000#32, info := .misalignedAccess 0x50000002#32 .word .load }
      ∧ t.readLocal 0x50000000 = 0x0020A103#32 := ⟨⟨_, rfl, by decide⟩, ⟨_, rfl, by decide⟩⟩

/-- R119, R124: SimControl is its register with the trigger added; a second one goes after it; no register, no call. -/
theorem test_add_trigger :
    addTrigger [{ offset := 0, width := .word, readHandler := .x, writeHandler := .x, triggers := [] }] 0
        simControlTrigger = some simControl
    ∧ (addTrigger simControl 0 { predicate := .x, callback := .setLocal .x }).map
        (fun regs => regs.map (fun r => r.triggers))
        = some [[simControlTrigger, { predicate := .x, callback := .setLocal .x }]]
    ∧ addTrigger simControl 4 simControlTrigger = none := by decide

/-- The host's first question, on one word: the step after reset runs the placed instruction. -/
theorem test_withFetchWord : (stepWord State.reset 0xFFF00093).readReg 1#5 = 0xFFFFFFFF#32 := by decide

/-! ### Witnesses: for each statement with hypotheses, concrete values that meet them all -/

/-- The reference system with a word placed at the pc and the registers of `with12`. -/
def placed (a b : Word) (w : Nat) : State := (with12 a b).withFetchWord 32 w

theorem witness_DecodeOfEncode :
    (Instr.addi 31#5 31#5 0xFFFFF800#32).wellFormed = true ∧ (Instr.sw 31#5 0#5 2047#32).wellFormed = true
    ∧ (Instr.beq 0#5 31#5 0xFFFFF000#32).wellFormed = true ∧ (Instr.lui 31#5 0xFFFFF000#32).wellFormed = true
    ∧ (Instr.jal 31#5 0x000FFFFE#32).wellFormed = true := by decide

theorem witness_EncodeOfDecode : decode 0xFE029CE3#32 = .ok (.bne 5#5 0#5 0xFFFFFFF8#32) := by decide

/-- All three clauses, on the word of `SRAI x17, x18, 3`. -/
theorem witness_DecoderFollowsOpcodeTable :
    decode 0x40395893#32 = .ok (.srai 17#5 18#5 3#5)
    ∧ ∃ r ∈ opcodeTable, r.selects 0x40395893#32 = true := by decide

theorem witness_ImmediateShiftsNeedTheirFunct7 :
    (∀ w ∈ [0x01F09193#32, 0x40109193#32, 0x01F0D193#32, 0x41F0D193#32, 0x6010D193#32],
      BitVec.extractLsb' 0 7 w = 0b0010011#7)
    ∧ (BitVec.extractLsb' 12 3 0x01F09193#32 = 0b001#3 ∧ BitVec.extractLsb' 25 7 0x01F09193#32 = 0b0000000#7)
    ∧ (BitVec.extractLsb' 12 3 0x40109193#32 = 0b001#3 ∧ BitVec.extractLsb' 25 7 0x40109193#32 ≠ 0b0000000#7)
    ∧ (BitVec.extractLsb' 12 3 0x01F0D193#32 = 0b101#3 ∧ BitVec.extractLsb' 25 7 0x01F0D193#32 = 0b0000000#7)
    ∧ (BitVec.extractLsb' 12 3 0x41F0D193#32 = 0b101#3 ∧ BitVec.extractLsb' 25 7 0x41F0D193#32 = 0b0100000#7)
    ∧ (BitVec.extractLsb' 12 3 0x6010D193#32 = 0b101#3 ∧ BitVec.extractLsb' 25 7 0x6010D193#32 ≠ 0b0000000#7
        ∧ BitVec.extractLsb' 25 7 0x6010D193#32 ≠ 0b0100000#7) := by
  refine ⟨fun w hw => ?_, by decide, by decide, by decide, by decide, by decide⟩
  fin_cases hw <;> rfl

theorem witness_RegisterWordsNeedTheirFunct7 :
    (∀ w ∈ [0x0020F1B3#32, 0x402081B3#32, 0x4020D1B3#32, 0x4020F1B3#32, 0x022081B3#32],
      BitVec.extractLsb' 0 7 w = 0b0110011#7)
    ∧ BitVec.extractLsb' 25 7 0x0020F1B3#32 = 0b0000000#7
    ∧ (BitVec.extractLsb' 25 7 0x402081B3#32 = 0b0100000#7 ∧ BitVec.extractLsb' 12 3 0x402081B3#32 = 0b000#3)
    ∧ (BitVec.extractLsb' 25 7 0x4020D1B3#32 = 0b0100000#7 ∧ BitVec.extractLsb' 12 3 0x4020D1B3#32 = 0b101#3)
    ∧ (BitVec.extractLsb' 25 7 0x4020F1B3#32 = 0b0100000#7 ∧ BitVec.extractLsb' 12 3 0x4020F1B3#32 ≠ 0b000#3
        ∧ BitVec.extractLsb' 12 3 0x4020F1B3#32 ≠ 0b101#3)
    ∧ (BitVec.extractLsb' 25 7 0x022081B3#32 ≠ 0b0000000#7 ∧ BitVec.extractLsb' 25 7 0x022081B3#32 ≠ 0b0100000#7) := by
  refine ⟨fun w hw => ?_, by decide, by decide, by decide, by decide, by decide⟩
  fin_cases hw <;> rfl

/-- One word per format, each with its most negative immediate (all ones above for U). -/
theorem witness_DecodedImmediates :
    decode 0x80008193#32 = .ok (.addi 3#5 1#5 0xFFFFF800#32) ∧ decode 0x8020A023#32 = .ok (.sw 1#5 2#5 0xFFFFF800#32)
    ∧ decode 0x80208063#32 = .ok (.beq 1#5 2#5 0xFFFFF000#32) ∧ decode 0xFFFFF0B7#32 = .ok (.lui 1#5 0xFFFFF000#32)
    ∧ decode 0x800000EF#32 = .ok (.jal 1#5 0xFFF00000#32) := by decide

/-- `ADD x31, x31, x31` and `SRLI x31, x31, 31`: every field at its largest. -/
theorem witness_DecodedRegisterFields :
    decode 0x01FF8FB3#32 = .ok (.add 31#5 31#5 31#5) ∧ decode 0x01FFDF93#32 = .ok (.srli 31#5 31#5 31#5) := by decide

theorem readyToFetch_placed : ReadyToFetch (placed 0x20000000#32 1#32 0x0020A023) := by
  unfold ReadyToFetch InRegion; decide

/-- Both outcomes of the poll: a store that halts, and one that does not. -/
theorem witness_StepRunsDecodedInstruction :
    (∃ t, ReadyToFetch (placed 0x20000000#32 1#32 0x0020A023)
      ∧ decode (wordAtPc (placed 0x20000000#32 1#32 0x0020A023)) = .ok (.sw 1#5 2#5 0#32)
      ∧ exec (.sw 1#5 2#5 0#32) (placed 0x20000000#32 1#32 0x0020A023) = .next t
      ∧ t.hartState = .running ∧ t.haltFlag = true)
    ∧ ∃ t, ReadyToFetch (placed 0x20000000#32 2#32 0x0020A023)
      ∧ decode (wordAtPc (placed 0x20000000#32 2#32 0x0020A023)) = .ok (.sw 1#5 2#5 0#32)
      ∧ exec (.sw 1#5 2#5 0#32) (placed 0x20000000#32 2#32 0x0020A023) = .next t
      ∧ t.haltFlag = false := by
  refine ⟨⟨_, readyToFetch_placed, by decide, rfl, by decide, by decide⟩, ⟨_, ?_, by decide, rfl, by decide⟩⟩
  unfold ReadyToFetch InRegion; decide

/-- The last word of instruction memory, and a pc that is 2 modulo 4. -/
theorem witness_FetchReadsLittleEndianWord :
    ReadyToFetch (start 0x0000FFFC#32 [] []) ∧ (start 0x00000002#32 [] []).pc.toNat % 4 ≠ 0 := by
  unfold ReadyToFetch InRegion; decide

/-- A misaligned pc outside every port; the word just past instruction memory; empty memory. -/
theorem witness_FetchAndDecodeFaults :
    ((start 0x30000001#32 [] []).hartState = .running ∧ (start 0x30000001#32 [] []).pc.toNat % 4 ≠ 0)
    ∧ ((start 0x00010000#32 [] []).hartState = .running ∧ (start 0x00010000#32 [] []).pc.toNat % 4 = 0
        ∧ Unmapped (start 0x00010000#32 [] []) 0x00010000 .word)
    ∧ ReadyToFetch State.reset ∧ ∀ r ∈ opcodeTable, r.selects (wordAtPc State.reset) = false := by
  unfold ReadyToFetch InRegion Unmapped; decide

theorem witness_FenceAndSystemWordsFault :
    (ReadyToFetch (placed 0#32 0#32 0x0FF0000F) ∧ wordAtPc (placed 0#32 0#32 0x0FF0000F) &&& 0x7F#32 = 0x0F#32)
    ∧ ReadyToFetch (placed 0#32 0#32 0x30200073) ∧ wordAtPc (placed 0#32 0#32 0x30200073) &&& 0x7F#32 = 0x73#32 := by
  unfold ReadyToFetch InRegion; decide

/-- A fault of each stage: fetch, decode, execute. -/
theorem witness_FaultingStepChangesNothing :
    (∃ t, (start 2#32 [] []).hartState = .running ∧ step (start 2#32 [] []) = .next t ∧ t.hartState = .faulted)
    ∧ (∃ t, State.reset.hartState = .running ∧ step State.reset = .next t ∧ t.hartState = .faulted)
    ∧ ∃ t, (placed 0x10000001#32 0#32 0x0020A023).hartState = .running
        ∧ step (placed 0x10000001#32 0#32 0x0020A023) = .next t ∧ t.hartState = .faulted :=
  ⟨⟨_, by decide, rfl, by decide⟩, ⟨_, by decide, rfl, by decide⟩, ⟨_, by decide, rfl, by decide⟩⟩

theorem witness_TerminalStatesAreStable :
    (State.reset.enterFault (.illegalInstruction 0#32)).hartState ≠ .running
    ∧ (stepWord (with12 0x20000000#32 1#32) 0x0020A023).hartState ≠ .running := by decide

/-- A step that halts, one that goes on, one that faults. -/
theorem witness_HaltPollEndsTheStep :
    (∃ t, (placed 0x20000000#32 1#32 0x0020A023).hartState = .running
      ∧ step (placed 0x20000000#32 1#32 0x0020A023) = .next t ∧ t.hartState = .halted)
    ∧ (∃ t, (placed 0x20000000#32 2#32 0x0020A023).hartState = .running
      ∧ step (placed 0x20000000#32 2#32 0x0020A023) = .next t ∧ t.hartState = .running)
    ∧ ∃ t, State.reset.hartState = .running ∧ step State.reset = .next t ∧ t.hartState = .faulted :=
  ⟨⟨_, by decide, rfl, by decide⟩, ⟨_, by decide, rfl, by decide⟩, ⟨_, by decide, rfl, by decide⟩⟩

theorem witness_StepKeepsCanonicalForm :
    counterState.Canonical ∧ ∃ t, step (counterState.withFetchWord 32 0x0020A023) = .next t := by
  exact ⟨by decide, _, rfl⟩

theorem witness_StepKeepsSequencerAgreement :
    (placed 0x20000000#32 1#32 0x0020A023).SequencerAgrees
    ∧ (stepWord (with12 0x20000000#32 1#32) 0x0020A023).SequencerAgrees
    ∧ (State.reset.enterFault (.illegalInstruction 0#32)).SequencerAgrees
    ∧ ∃ t, step (placed 0x20000000#32 1#32 0x0020A023) = .next t :=
  ⟨by decide, by decide, by decide, _, rfl⟩

/-- Bytes at both ends of the regions, and a value in `CONTROL`. -/
theorem witness_StepKeepsContentsContained :
    ∃ s t : State, s.mem = [(0, 1#8), (0x1000FFFF, 2#8)] ∧ s.storage = [(0x20000000, 2#32)] ∧ s.Contained
      ∧ step s = .next t := by
  refine ⟨{ start 0#32 [] [(0, 1#8), (0x1000FFFF, 2#8)] with storage := [(0x20000000, 2#32)] }, _, by decide, rfl,
    ⟨by decide, fun c hc => ?_⟩, rfl⟩
  obtain rfl : c = (0x20000000, 2#32) := by simpa using hc
  exact ⟨_, List.mem_cons_of_mem _ (List.mem_cons_of_mem _ List.mem_cons_self), simControl, rfl, _,
    List.mem_singleton.mpr rfl, rfl, by decide⟩

theorem witness_ConfigurationIsFixed : ∃ t, step counterState = .next t := ⟨_, rfl⟩

/-- The three default ports, listed out of order, with an image. -/
theorem witness_BuiltSystemsMeetTheInvariants :
    ∃ s, powerOn { referenceConfig with ports := referenceConfig.ports.reverse, initImage := [(0xFFFF, 0x93#8)] }
      = .next s := ⟨_, rfl⟩

theorem witness_AttachRefusesBadPorts :
    ((region 0 0).size = 0 ∧ 2 ^ 32 < (region 0xFFFFF000 0x1001).base + (region 0xFFFFF000 0x1001).size)
    ∧ (0 < (region 0x0FFF 0x10).size ∧ (region 0x0FFF 0x10).base + (region 0x0FFF 0x10).size ≤ 2 ^ 32
        ∧ ∃ q ∈ [region 0 0x1000], ∃ a, (region 0x0FFF 0x10).base ≤ a
            ∧ a < (region 0x0FFF 0x10).base + (region 0x0FFF 0x10).size ∧ q.base ≤ a ∧ a < q.base + q.size)
    ∧ 0 < (region 0xFFFFF000 0x1000).size
    ∧ (region 0xFFFFF000 0x1000).base + (region 0xFFFFF000 0x1000).size ≤ 2 ^ 32
    ∧ ∀ q ∈ [region 0xFFFFE000 0x1000], 0 < q.size
        ∧ ¬ ∃ a, (region 0xFFFFF000 0x1000).base ≤ a
            ∧ a < (region 0xFFFFF000 0x1000).base + (region 0xFFFFF000 0x1000).size
            ∧ q.base ≤ a ∧ a < q.base + q.size := by
  refine ⟨by decide, ⟨by decide, by decide, region 0 0x1000, by decide, 0x0FFF, by decide⟩, by decide, by decide, ?_⟩
  intro q hq
  obtain rfl : q = region 0xFFFFE000 0x1000 := by simpa using hq
  exact ⟨by decide, fun ⟨a, h1, _, _, h4⟩ => by simp only [region] at h1 h4; omega⟩

/-- An address the image does not name, and one it names twice. -/
theorem witness_ResetMemoryIsTheImageOverZeros :
    (∀ e ∈ [(0, 1#8), (1, 2#8), (0, 3#8)], e.1 ≠ 2)
    ∧ [(0, 1#8), (1, 2#8), (0, 3#8)] = [(0, 1#8), (1, 2#8)] ++ (0, 3#8) :: ([] : List Host.Cell) := by decide

theorem witness_ResetAgainGivesTheResetState :
    ∃ s, Host.Core.run Sys2Proof.core 2 (State.resetWith referenceConfig) = .next s := ⟨_, rfl⟩

/-- The last halfword of one port, the first of the next, and an access that crosses the border. -/
theorem witness_PortLookupIsUnique :
    Config.Valid splitState.cfg ∧ Config.lookup splitState.cfg 0x1000 .half = some (region 0 0x1002)
    ∧ Config.lookup splitState.cfg 0x1002 .half = some (region 0x1002 0x0FFE)
    ∧ Config.lookup splitState.cfg 0x1000 .word = none := by decide

/-- Misaligned and unmapped at once; aligned and unmapped; the halfword window of `CONTROL`. -/
theorem witness_BusChecksInOrder :
    (0x0000FFFE#32).toNat % Width.word.bytes ≠ 0
    ∧ ((0xFFFFFFFC#32).toNat % Width.word.bytes = 0 ∧ Unmapped State.reset (0xFFFFFFFC#32).toNat .word)
    ∧ ∃ p ∈ State.reset.cfg.ports, Config.Valid State.reset.cfg ∧ (0x20000002#32).toNat % Width.half.bytes = 0
        ∧ p.target = .peripheral simControl ∧ p.base ≤ (0x20000002#32).toNat
        ∧ (0x20000002#32).toNat + Width.half.bytes ≤ p.base + p.size
        ∧ ∀ r ∈ simControl, ¬ (p.base + r.offset = (0x20000002#32).toNat ∧ r.width = .half) := by
  unfold Unmapped; decide

/-- The last word of data memory. -/
theorem witness_RegionReadIsTheSumOfItsBytes :
    Config.Valid State.reset.cfg ∧ InRegion State.reset (0x1000FFFC#32).toNat .word
    ∧ (0x1000FFFC#32).toNat % Width.word.bytes = 0 := by
  unfold InRegion; decide

theorem witness_RegionWriteChangesExactlyItsBytes :
    Config.Valid storeState.cfg ∧ Memory.wf storeState.mem ∧ InRegion storeState (0x1000FFFE#32).toNat .half
    ∧ (0x1000FFFE#32).toNat % Width.half.bytes = 0 := by
  unfold InRegion; decide

theorem witness_ReadReturnsTheLastWrite :
    ∃ t, Config.Valid storeState.cfg ∧ Memory.wf storeState.mem ∧ InRegion storeState (0x10000002#32).toNat .half
      ∧ memWrite 0x10000002#32 .half 0x12345678#32 storeState = .ok t := by
  refine ⟨_, by decide, by decide, ?_, rfl⟩
  unfold InRegion; decide

/-- A register whose read has no side effect, and the mailbox's, whose read has one. -/
theorem witness_PeripheralReadGoesThroughItsHandler :
    (Config.Valid counterState.cfg ∧ counterState.Canonical ∧ counterPort ∈ counterState.cfg.ports
    ∧ (0x40000004#32).toNat = counterPort.base + 4 ∧ (0x40000004#32).toNat % Width.half.bytes = 0
    ∧ ∃ regs, counterPort.target = .peripheral regs
        ∧ ({ offset := 4, width := .half, readHandler := .x, writeHandler := .x, triggers := [] } : PeriphReg) ∈ regs)
    ∧ Config.Valid (mailboxState 0#32 5#32).cfg ∧ (mailboxState 0#32 5#32).Canonical
    ∧ mailboxPort ∈ (mailboxState 0#32 5#32).cfg.ports ∧ (0x50000000#32).toNat % Width.word.bytes = 0
    ∧ ∃ regs, mailboxPort.target = .peripheral regs ∧ ∃ r ∈ regs, (0x50000000#32).toNat = mailboxPort.base + r.offset
        ∧ r.width = .word ∧ r.readEffect = some (.lit 0#32) :=
  ⟨⟨by decide, by decide, by decide, by decide, by decide, _, rfl, by decide⟩, by decide, by decide, by decide,
    by decide, _, rfl, by decide⟩

/-- A register with two triggers, both of which fire on a write of 3 over 3. -/
theorem witness_PeripheralWriteThenTriggers :
    Config.Valid counterState.cfg ∧ counterState.Canonical ∧ counterPort ∈ counterState.cfg.ports
    ∧ (0x40000000#32).toNat % Width.word.bytes = 0
    ∧ ∃ regs, counterPort.target = .peripheral regs ∧ ∃ r ∈ regs, (0x40000000#32).toNat = counterPort.base + r.offset
        ∧ r.width = .word ∧ ∀ g ∈ r.triggers, WordFn.eval 0#32 3#32 0#32 g.predicate ≠ 0#32 := by
  exact ⟨by decide, by decide, by decide, by decide, _, rfl, by decide⟩

/-- Bit 0 of the stored value set, and clear. -/
theorem witness_ControlWriteSetsTheHaltFlag :
    (∃ p ∈ (with12 0x20000000#32 0xFFFFFFFF#32).cfg.ports, Config.Valid (with12 0x20000000#32 0xFFFFFFFF#32).cfg
      ∧ (with12 0x20000000#32 0xFFFFFFFF#32).Canonical ∧ p.target = .peripheral simControl
      ∧ ((with12 0x20000000#32 0xFFFFFFFF#32).readReg 1#5 + 0#32).toNat = p.base ∧ p.base % 4 = 0
      ∧ ((with12 0x20000000#32 0xFFFFFFFF#32).readReg 2#5).getLsbD 0 = true)
    ∧ ((with12 0x20000000#32 0xFFFFFFFE#32).readReg 2#5).getLsbD 0 = false := by decide

theorem witness_ControlStoreHaltsInItsOwnStep :
    ReadyToFetch (placed 0x20000000#32 1#32 0x0020A023) ∧ (placed 0x20000000#32 1#32 0x0020A023).Canonical
    ∧ ∃ p ∈ (placed 0x20000000#32 1#32 0x0020A023).cfg.ports, p.target = .peripheral simControl
        ∧ ((placed 0x20000000#32 1#32 0x0020A023).readReg 1#5 + 0#32).toNat = p.base ∧ p.base % 4 = 0
        ∧ decode (wordAtPc (placed 0x20000000#32 1#32 0x0020A023)) = .ok (.sw 1#5 2#5 0#32)
        ∧ ((placed 0x20000000#32 1#32 0x0020A023).readReg 2#5).getLsbD 0 = true :=
  ⟨readyToFetch_placed, by decide, by decide⟩

theorem witness_OnlyControlStoreSetsTheHaltFlag :
    ∃ t, (placed 0x20000000#32 1#32 0x0020A023).cfg = defaultConfig referenceParams
      ∧ Config.Valid (placed 0x20000000#32 1#32 0x0020A023).cfg
      ∧ step (placed 0x20000000#32 1#32 0x0020A023) = .next t
      ∧ (placed 0x20000000#32 1#32 0x0020A023).haltFlag = false ∧ t.haltFlag = true :=
  ⟨_, by decide, by decide, rfl, by decide, by decide⟩

theorem witness_HaltFlagIsSticky :
    (∃ t, step (placed 0x20000000#32 1#32 0x0020A023) = .next t
      ∧ (placed 0x20000000#32 1#32 0x0020A023).hartState = .running
      ∧ (placed 0x20000000#32 1#32 0x0020A023).haltFlag = false ∧ t.haltFlag = true)
    ∧ ∃ t, step (stepWord (with12 0x20000000#32 1#32) 0x0020A023) = .next t
      ∧ (stepWord (with12 0x20000000#32 1#32) 0x0020A023).haltFlag = true :=
  ⟨⟨_, rfl, by decide, by decide, by decide⟩, ⟨_, rfl, by decide⟩⟩

theorem witness_ControlReadsBackTheLastWrite :
    ∃ p ∈ (with12 0x20000000#32 0xA5A5A5A4#32).cfg.ports, Config.Valid (with12 0x20000000#32 0xA5A5A5A4#32).cfg
      ∧ (with12 0x20000000#32 0xA5A5A5A4#32).Canonical ∧ p.target = .peripheral simControl
      ∧ ((with12 0x20000000#32 0xA5A5A5A4#32).readReg 1#5 + 0#32).toNat = p.base ∧ p.base % 4 = 0 := by decide

/-- An aligned halfword load at the window's end, and a misaligned halfword store inside it. -/
theorem witness_NarrowControlAccessesFault :
    ∃ p ∈ State.reset.cfg.ports, Config.Valid State.reset.cfg ∧ p.target = .peripheral simControl ∧ p.size = 4
      ∧ ((with12 0x20000002#32 0#32).readReg 1#5 + 0#32).toNat + Width.half.bytes ≤ p.base + p.size
      ∧ p.base ≤ ((with12 0x20000002#32 0#32).readReg 1#5 + 0#32).toNat
      ∧ loadOf? (.lhu 3#5 1#5 0#32) = some (.half, 3#5, 1#5, 0#32)
      ∧ ((with12 0x20000001#32 0#32).readReg 1#5 + 0#32).toNat + Width.half.bytes ≤ p.base + p.size
      ∧ p.base ≤ ((with12 0x20000001#32 0#32).readReg 1#5 + 0#32).toNat
      ∧ storeOf? (.sh 1#5 2#5 0#32) = some (.half, 1#5, 2#5, 0#32) := by
  refine ⟨_, List.mem_cons_of_mem _ (List.mem_cons_of_mem _ List.mem_cons_self), ?_⟩
  and_intros <;> decide

theorem witness_UpperImmediateInstructions :
    0xFFFFF0B7#32 &&& 0x7F#32 = 0x37#32 ∧ 0x12345317#32 &&& 0x7F#32 = 0x17#32 := by decide

/-- Each condition met and not met, on the row `0x80000000`, `0x7FFFFFFF` of section 2.4. -/
theorem witness_BranchesCompareAndGo :
    branchOf? (.blt 1#5 2#5 8#32) = some (.lt, 1#5, 2#5, 8#32)
    ∧ cmpReading .lt 0x80000000#32 0x7FFFFFFF#32 ∧ ¬ cmpReading .lt 0x7FFFFFFF#32 0x80000000#32
    ∧ cmpReading .ge 0x7FFFFFFF#32 0x80000000#32 ∧ ¬ cmpReading .ge 0x80000000#32 0x7FFFFFFF#32
    ∧ cmpReading .ltu 0x7FFFFFFF#32 0x80000000#32 ∧ ¬ cmpReading .ltu 0x80000000#32 0x7FFFFFFF#32
    ∧ cmpReading .geu 0x80000000#32 0x7FFFFFFF#32 ∧ ¬ cmpReading .geu 0x7FFFFFFF#32 0x80000000#32
    ∧ cmpReading .eq 0x80000000#32 0x80000000#32 ∧ ¬ cmpReading .eq 0x80000000#32 0x7FFFFFFF#32
    ∧ cmpReading .ne 0x80000000#32 0x7FFFFFFF#32 ∧ ¬ cmpReading .ne 0x80000000#32 0x80000000#32 := by decide

theorem witness_MisalignedTargetFaultsOneStepLater :
    ∃ t, ((start 4#32 [] []).withFetchWord 32 0x006002EF).hartState = .running
      ∧ ((start 4#32 [] []).withFetchWord 32 0x006002EF).pc.toNat % 4 = 0
      ∧ step ((start 4#32 [] []).withFetchWord 32 0x006002EF) = .next t ∧ t.hartState = .running
      ∧ t.pc.toNat % 4 ≠ 0 := ⟨_, by decide, by decide, rfl, by decide, by decide⟩

/-- One instruction of each of the four clauses, and a load that faults. -/
theorem witness_NextPcSelection :
    (∃ t, exec (.lw 3#5 1#5 2#32) (with12 0#32 0#32) = .next t ∧ t.hartState = .faulted)
    ∧ ∀ i ∈ [Instr.jal 1#5 8#32, .jalr 1#5 2#5 8#32, .bgeu 1#5 2#5 8#32, .addi 1#5 1#5 8#32],
      (with12 0#32 0#32).hartState ≠ .faulted
      ∧ ∃ t, exec i (with12 0#32 0#32) = .next t ∧ t.hartState ≠ .faulted := by
  refine ⟨⟨_, rfl, by decide⟩, fun i hi => ?_⟩
  simp only [List.mem_cons, List.not_mem_nil, or_false] at hi
  rcases hi with rfl | rfl | rfl | rfl <;> exact ⟨by decide, _, rfl, by decide⟩

/-- The last byte, halfword and word of data memory. -/
theorem witness_LoadsFromMemoryRegions :
    Config.Valid State.reset.cfg ∧ InRegion State.reset ((start 0#32 [(1#5, 0x1000FFFF#32)] []).readReg 1#5 + 0#32).toNat .byte
    ∧ (InRegion State.reset ((start 0#32 [(1#5, 0x1000FFFE#32)] []).readReg 1#5 + 0#32).toNat .half
        ∧ ((start 0#32 [(1#5, 0x1000FFFE#32)] []).readReg 1#5 + 0#32).toNat % 2 = 0)
    ∧ InRegion State.reset ((start 0#32 [(1#5, 0x1000FFFC#32)] []).readReg 1#5 + 0#32).toNat .word
    ∧ ((start 0#32 [(1#5, 0x1000FFFC#32)] []).readReg 1#5 + 0#32).toNat % 4 = 0 := by
  unfold InRegion; decide

theorem witness_StoresToMemoryRegions :
    storeOf? (.sh 1#5 2#5 6#32) = some (.half, 1#5, 2#5, 6#32) ∧ Config.Valid storeState.cfg ∧ storeState.Canonical
    ∧ InRegion storeState (effectiveAddress storeState 1#5 6#32).toNat .half
    ∧ (effectiveAddress storeState 1#5 6#32).toNat % Width.half.bytes = 0 := by
  unfold InRegion; decide

/-- Misaligned (and crossing the end of a region), and aligned just past the end, for a load and a store. -/
theorem witness_LoadAndStoreFaults :
    loadOf? (.lw 3#5 1#5 0#32) = some (.word, 3#5, 1#5, 0#32) ∧ storeOf? (.sw 1#5 3#5 0#32) = some (.word, 1#5, 3#5, 0#32)
    ∧ ((with12 0x0000FFFE#32 0#32).readReg 1#5 + 0#32).toNat % Width.word.bytes ≠ 0
    ∧ ((with12 0x10010000#32 0#32).readReg 1#5 + 0#32).toNat % Width.word.bytes = 0
    ∧ Unmapped (with12 0x10010000#32 0#32) ((with12 0x10010000#32 0#32).readReg 1#5 + 0#32).toNat .word := by
  unfold Unmapped; decide

/-- One successful bus access of each width: reads of memory and of `CONTROL`, writes of memory. -/
theorem witness_WidthAndExtensionByMnemonic :
    memRead .load (BitVec.ofNat 32 ((loadState.readReg 1#5).toNat + (7#32).toNat)) .byte loadState
      = .ok (0x89#32, loadState)
    ∧ memRead .load (BitVec.ofNat 32 ((loadState.readReg 1#5).toNat + (6#32).toNat)) .half loadState
      = .ok (0x89AB#32, loadState)
    ∧ memRead .load (BitVec.ofNat 32 ((loadState.readReg 1#5).toNat + (0x10000000#32).toNat)) .word loadState
      = .ok (0#32, loadState)
    ∧ (∃ t, memWrite (BitVec.ofNat 32 ((storeState.readReg 1#5).toNat + (7#32).toNat)) .byte
          (storeState.readReg 2#5 &&& 0xFF#32) storeState = .ok t)
    ∧ (∃ t, memWrite (BitVec.ofNat 32 ((storeState.readReg 1#5).toNat + (6#32).toNat)) .half
          (storeState.readReg 2#5 &&& 0xFFFF#32) storeState = .ok t)
    ∧ ∃ t, memWrite (BitVec.ofNat 32 ((storeState.readReg 1#5).toNat + (0x10000000#32).toNat)) .word
          (storeState.readReg 2#5) storeState = .ok t :=
  ⟨by decide, by decide, by decide, ⟨_, rfl⟩, ⟨_, rfl⟩, ⟨_, rfl⟩⟩

/-- The byte just below and just above a stored halfword. -/
theorem witness_OnlyTheStoredBytesChange :
    (∃ t, exec (.sh 1#5 2#5 2#32) storeState = .next t)
    ∧ storeOf? (.sh 1#5 2#5 2#32) = some (.half, 1#5, 2#5, 2#32)
    ∧ 0x10000001 < (effectiveAddress storeState 1#5 2#32).toNat
    ∧ (effectiveAddress storeState 1#5 2#32).toNat + Width.half.bytes ≤ 0x10000004 := by
  exact ⟨⟨_, rfl⟩, by decide⟩

/-- `SW x2, 0(x1)` at pc 0 with `x1 = 4` and `x2` the word of `ADDI x1, x0, 1`. -/
theorem witness_StoredInstructionRunsNext :
    ReadyToFetch (placed 4#32 0x00100093#32 0x0020A023) ∧ (placed 4#32 0x00100093#32 0x0020A023).Canonical
    ∧ (placed 4#32 0x00100093#32 0x0020A023).haltFlag = false
    ∧ decode (wordAtPc (placed 4#32 0x00100093#32 0x0020A023)) = .ok (.sw 1#5 2#5 0#32)
    ∧ (placed 4#32 0x00100093#32 0x0020A023).readReg 1#5 + 0#32 = (placed 4#32 0x00100093#32 0x0020A023).pc + 4#32
    ∧ InRegion (placed 4#32 0x00100093#32 0x0020A023) ((placed 4#32 0x00100093#32 0x0020A023).pc + 4#32).toNat .word
    ∧ decode ((placed 4#32 0x00100093#32 0x0020A023).readReg 2#5) = .ok (.addi 1#5 0#5 1#32)
    ∧ ∃ u, exec (.addi 1#5 0#5 1#32) (stepWord (with12 4#32 0x00100093#32) 0x0020A023) = .next u := by
  refine ⟨?_, by decide, by decide, by decide, by decide, ?_, by decide, _, rfl⟩
  · unfold ReadyToFetch InRegion; decide
  · unfold InRegion; decide

theorem witness_ShiftsAreExact : (0xFFFFFFE0#32).toNat % 32 = 0 := by decide

theorem witness_RegisterZeroReadsZeroAndDiscardsWrites :
    (Instr.lb 3#5 1#5 7#32).dest? = some 3#5 ∧ ∃ t, exec (.lb 3#5 1#5 7#32) loadState = .next t := ⟨by decide, _, rfl⟩

/-- A load and a store in two states that differ in `x31` only. -/
theorem witness_OnlyTheNamedRegistersAreTouched :
    ∃ s2 t1 t2 u1 u2 : State, s2 = { loadState with regs := s2.regs } ∧ s2.readReg 31#5 ≠ loadState.readReg 31#5
      ∧ s2.readReg 1#5 = loadState.readReg 1#5 ∧ s2.readReg 2#5 = loadState.readReg 2#5
      ∧ exec (.lb 3#5 1#5 7#32) loadState = .next t1 ∧ exec (.lb 3#5 1#5 7#32) s2 = .next t2
      ∧ loadState.hartState = .running ∧ t1.hartState = .running
      ∧ exec (.sb 1#5 2#5 7#32) loadState = .next u1 ∧ exec (.sb 1#5 2#5 7#32) s2 = .next u2 :=
  ⟨loadState.writeReg 31#5 1#32, _, _, _, _, rfl, by decide, by decide, by decide, rfl, rfl, by decide, by decide,
    rfl, rfl⟩

end Sys2Proof.Tests
end

section
/-! PROOF. `x0` as a destination (spec 10_state.md R21). -/

namespace Sys2Proof

/-- Naming the destination an instruction already has leaves the instruction as it is. -/
theorem Instr.withDest_of_dest {i : Instr} {rd : RegIdx} (h : i.dest? = some rd) : i.withDest rd = i := by
  cases i with
  | beq | bne | blt | bge | bltu | bgeu | sb | sh | sw => cases h
  | _ => cases h; rfl

namespace Machine

variable (s : State)

/-- With the old registers put back nothing is left of a register write. -/
theorem State.writeReg_setPc_restore_regs (r : RegIdx) (v npc : Word) :
    { (s.writeReg r v).setPc npc with regs := s.regs } = s.setPc npc := by
  unfold State.writeReg
  split <;> rfl

/-- How an instruction with a destination depends on which register that is: not at all but for the final
register write. For every `d` it leaves the one state `u`, whose registers are those before, with the one value
`v` written to `d` and the one next pc; or for every `d` it takes the one fault. -/
abbrev DestOnlyWritten (i : Instr) : Prop :=
  (∃ (u : State) (v npc : Word), u.regs = s.regs ∧ ∀ d, exec (i.withDest d) s = .next ((u.writeReg d v).setPc npc))
  ∨ ∃ info, ∀ d, exec (i.withDest d) s = .next (s.enterFault info)

/-- R55: a load makes the same bus read whatever its destination. -/
theorem destOnlyWritten_of_load {i : Instr} {n : Width} {e : LoadExt} {rs1 : RegIdx} {imm : Word}
    (he : ∀ d, exec (i.withDest d) s = loadFrom n e d rs1 imm s) : DestOnlyWritten s i := by
  cases hm : memRead .load (effectiveAddress s rs1 imm) n s with
  | ok r =>
    obtain ⟨v, u⟩ := r
    have hu : u.regs = s.regs := by rw [(memRead_frame s hm).1]
    refine .inl ⟨u, e.apply v, u.pc + 4#32, hu, fun d => ?_⟩
    rw [he, ← State.writeReg_advance]
    simp only [loadFrom, hm]
  | error info =>
    refine .inr ⟨info, fun d => ?_⟩
    rw [he]
    simp only [loadFrom, hm]

/-- R22: only the final register write of an instruction depends on its destination. -/
theorem exec_destOnlyWritten {i : Instr} {rd : RegIdx} (h : i.dest? = some rd) : DestOnlyWritten s i := by
  cases i with
  | lb _ rs1 imm => exact destOnlyWritten_of_load s (e := .sext8) fun _ => rfl
  | lh _ rs1 imm => exact destOnlyWritten_of_load s (e := .sext16) fun _ => rfl
  | lw _ rs1 imm => exact destOnlyWritten_of_load s (e := .copy) fun _ => rfl
  | lbu _ rs1 imm => exact destOnlyWritten_of_load s (e := .zext8) fun _ => rfl
  | lhu _ rs1 imm => exact destOnlyWritten_of_load s (e := .zext16) fun _ => rfl
  | jal | jalr => exact .inl ⟨s, _, _, rfl, fun _ => rfl⟩
  | beq | bne | blt | bge | bltu | bgeu | sb | sh | sw => cases h
  | _ => exact .inl ⟨s, _, _, rfl, fun d => congrArg _ (State.writeReg_advance s d _)⟩

/-- With `x0` as its destination an instruction leaves what it leaves with its own, the registers as before. -/
theorem exec_withDest_zero {i : Instr} {t : State} {rd : RegIdx} (hd : i.dest? = some rd)
    (h : exec i s = .next t) : exec (i.withDest 0#5) s = .next { t with regs := s.regs } := by
  rw [← Instr.withDest_of_dest hd] at h
  rcases exec_destOnlyWritten s hd with ⟨u, v, npc, hu, e⟩ | ⟨info, e⟩
  · rw [e] at h ⊢
    cases h
    rw [← hu, State.writeReg_setPc_restore_regs, State.writeReg_zero]
  · rw [e] at h ⊢
    cases h
    rfl

/-- Settles O59: reads and writes of `x0` by the register rules, the rest of the instruction because only its
final register write depends on the destination. -/
theorem registerZeroReadsZeroAndDiscardsWrites : Obligations.RegisterZeroReadsZeroAndDiscardsWrites :=
  ⟨State.readReg_zero, State.writeReg_zero, fun _ s _ _ hd h => exec_withDest_zero s hd h⟩

end Machine

end Sys2Proof
end

section
/-! PROOF. The shifts (spec 15_datapath.md R43). -/

namespace Sys2Proof.Machine

variable (a b : Word)

/-- `b & 0x1F` is the remainder by 32. -/
theorem shiftAmount_eq_mod : shiftAmount b = b.toNat % 32 :=
  (BitVec.toNat_and _ _).trans (Nat.and_two_pow_sub_one_eq_mod b.toNat 5)

theorem alu_sll_toNat : (alu .sll a b).toNat = a.toNat * 2 ^ (b.toNat % 32) % 2 ^ 32 := by
  rw [alu, shiftAmount_eq_mod, BitVec.toNat_shiftLeft, Nat.shiftLeft_eq]

theorem alu_srl_toNat : (alu .srl a b).toNat = a.toNat / 2 ^ (b.toNat % 32) := by
  rw [alu, shiftAmount_eq_mod, BitVec.toNat_ushiftRight, Nat.shiftRight_eq_div_pow]

/-- The divisor is positive, so that floor division is Lean's `/` here. -/
theorem alu_sra_toInt : (alu .sra a b).toInt = Int.fdiv a.toInt (2 ^ (b.toNat % 32)) := by
  have hpos : (0 : Int) ≤ 2 ^ (b.toNat % 32) := by positivity
  rw [alu, shiftAmount_eq_mod, BitVec.toInt_sshiftRight, Int.shiftRight_eq_div_pow, Int.fdiv_eq_ediv_of_nonneg _ hpos]
  norm_cast

theorem alu_shift_zero (h : b.toNat % 32 = 0) : alu .sll a b = a ∧ alu .srl a b = a ∧ alu .sra a b = a := by
  simp [alu, shiftAmount_eq_mod, h]

/-- Settles O55: the three shifts read as arithmetic, and the shift by 0. -/
theorem shiftsAreExact : Obligations.ShiftsAreExact :=
  fun a b => ⟨alu_sll_toNat a b, alu_srl_toNat a b, alu_sra_toInt a b, alu_shift_zero a b⟩

end Sys2Proof.Machine
end

section
/-! PROOF. The branch comparator and the next pc (spec 15_datapath.md R46, R49, R50). -/

namespace Sys2Proof.Machine

variable (s : State)

/-- The comparator computes the table of R46. -/
theorem branchTest_iff (c : Cond) (a b : Word) : branchTest c a b = true ↔ cmpReading c a b := by
  cases c with
  | eq => simp [branchTest, BitVec.toNat_inj]
  | ne => simp [branchTest, BitVec.toNat_inj]
  | lt => simp [branchTest, BitVec.slt_iff_toInt_lt]
  | ge => simp [branchTest, BitVec.slt_eq_decide]
  | ltu => simp [branchTest, BitVec.ult_iff_lt, BitVec.lt_def]
  | geu => simp [branchTest, BitVec.ult_eq_decide]

/-- R191 to R196: the six branches are `branchOn` at their conditions. -/
theorem exec_of_branchOf? {i : Instr} {c : Cond} {rs1 rs2 : RegIdx} {imm : Word}
    (h : branchOf? i = some (c, rs1, rs2, imm)) : exec i s = branchOn c rs1 rs2 imm s := by
  cases i with
  | beq | bne | blt | bge | bltu | bgeu => cases h; rfl
  | _ => cases h

/-- R190: a branch whose comparison holds moves the pc to `pc + imm`. -/
theorem exec_branch_taken {i : Instr} {c : Cond} {rs1 rs2 : RegIdx} {imm : Word}
    (h : branchOf? i = some (c, rs1, rs2, imm)) (hc : cmpReading c (s.readReg rs1) (s.readReg rs2)) :
    exec i s = .next (s.setPc (s.pc + imm)) := by
  rw [exec_of_branchOf? s h, branchOn_cases, if_pos ((branchTest_iff _ _ _).mpr hc)]

/-- R190: a branch whose comparison fails moves the pc to `pc + 4`. -/
theorem exec_branch_not_taken {i : Instr} {c : Cond} {rs1 rs2 : RegIdx} {imm : Word}
    (h : branchOf? i = some (c, rs1, rs2, imm)) (hc : ¬ cmpReading c (s.readReg rs1) (s.readReg rs2)) :
    exec i s = .next (s.setPc (s.pc + 4#32)) := by
  rw [exec_of_branchOf? s h, branchOn_cases, if_neg (mt (branchTest_iff _ _ _).mp hc)]

/-- Settles O46: a branch only moves the pc, to the place its comparison selects. -/
theorem branchesCompareAndGo : Obligations.BranchesCompareAndGo := by
  intro i c rs1 rs2 imm s h
  refine ⟨fun hc => ⟨_, exec_branch_taken s h hc, ?_⟩, fun hc => ⟨_, exec_branch_not_taken s h hc, ?_⟩⟩
  · rw [← BitVec.add_def]
    exact movesPcOnly_setPc s _
  · rw [show s.pc.toNat + 4 = s.pc.toNat + (4#32).toNat from rfl, ← BitVec.add_def]
    exact movesPcOnly_setPc s _

/-- What every instruction does to the sequencer's state: it takes a fault; or it leaves the hart state alone and,
when it is no transfer, goes on at `pc + 4` (R49), when it is one, leaves the halt flag alone. -/
theorem exec_sequencing {s t : State} {i : Instr} (h : exec i s = .next t) :
    (∃ info, t = s.enterFault info)
    ∨ (t.hartState = s.hartState ∧ (isTransfer i = false → t.pc = s.pc + 4#32)
        ∧ (isTransfer i = true → t.haltFlag = s.haltFlag)) := by
  rcases exec_cases s i with
    ⟨_, _, _, _, -, -, hpc, -, -, e⟩ | ⟨_, -, -, hi, e⟩ | ⟨_, _, _, _, u, -, -, hi, hw, e⟩ | ⟨info, -, e⟩ <;>
    rw [e] at h <;> cases h
  · exact .inr ⟨by simp, hpc, fun _ => by simp⟩
  · exact .inr ⟨rfl, by simp [hi], fun _ => rfl⟩
  · obtain ⟨-, hpc, hstate, -, -⟩ := memWrite_frame s hw
    exact .inr ⟨hstate, fun _ => by rw [State.advance_pc, hpc], by simp [hi]⟩
  · exact .inl ⟨info, rfl⟩

/-- Settles O48: the transfers by their meanings, every other instruction and the faults by what an instruction
can do to the sequencer's state. -/
theorem nextPcSelection : Obligations.NextPcSelection := by
  intro i s t hs h
  rcases exec_sequencing h with ⟨info, rfl⟩ | ⟨hstate, hpc, -⟩
  · exact ⟨fun _ => rfl, fun hn => absurd rfl hn⟩
  · refine ⟨fun hf => absurd (hstate.symm.trans hf) hs, fun _ => ⟨?_, ?_, ?_, hpc⟩⟩
    · rintro rd imm rfl
      cases h
      rfl
    · rintro rd rs1 imm rfl
      cases h
      rfl
    · intro c rs1 rs2 imm hb
      refine ⟨fun hc => ?_, fun hc => ?_⟩
      · cases (exec_branch_taken s hb hc).symm.trans h
        rfl
      · cases (exec_branch_not_taken s hb hc).symm.trans h
        rfl

end Sys2Proof.Machine
end

section
/-! PROOF. The halt poll (spec 15_datapath.md R56). -/

namespace Sys2Proof.Machine

theorem State.with_hartState_eq {s : State} {x : HartState} (h : s.hartState = x) : { s with hartState := x } = s := by
  subst h
  rfl

/-- After the poll in a running hart the hart is `Halted` exactly if the flag is set, else still running; nothing
but the hart state has changed. -/
theorem State.pollHalt_of_running {s : State} (h : s.hartState = .running) :
    s.pollHalt.hartState ≠ .faulted ∧ (s.pollHalt.hartState = .halted ↔ s.pollHalt.haltFlag = true)
      ∧ s = { s.pollHalt with hartState := .running } := by
  rcases s.pollHalt_cases with ⟨-, hf, e⟩ | ⟨hn, e⟩
  · rw [e]
    exact ⟨by simp, by simp [hf], (State.with_hartState_eq h).symm⟩
  · rw [e]
    exact ⟨by simp [h], by simpa [h] using hn, (State.with_hartState_eq h).symm⟩

/-- Everything a step of a running hart can do, in two cases: it takes a fault, having changed nothing; or it
executes an instruction, which leaves the hart running, and polls. -/
theorem step_running_faults_or_polls {s : State} (h : s.hartState = .running) :
    (∃ info, step s = .next (s.enterFault info))
    ∨ (∃ raw f i u, fetch s = .ok (raw, f) ∧ decode raw = .ok i ∧ exec i f = .next u ∧ u.hartState = .running
        ∧ step s = .next u.pollHalt) := by
  rcases step_running_cases s h with
    ⟨_, -, e⟩ | ⟨_, _, _, -, -, e⟩ | ⟨_, _, _, _, -, -, -, e⟩ | hpoll
  · exact .inl ⟨_, e⟩
  · exact .inl ⟨_, e⟩
  · exact .inl ⟨_, e⟩
  · exact .inr hpoll

/-- Only an instruction that goes on at `pc + 4` sets the halt flag. -/
theorem exec_pc_of_sets_haltFlag {s t : State} {i : Instr} (h : exec i s = .next t)
    (hs : s.haltFlag = false) (ht : t.haltFlag = true) : t.pc = s.pc + 4#32 := by
  rcases exec_sequencing h with ⟨info, rfl⟩ | ⟨-, hpc, hflag⟩
  · exact absurd (hs.symm.trans ht) Bool.false_ne_true
  · refine hpc (Bool.eq_false_iff.mpr fun hi => ?_)
    exact absurd (hs.symm.trans ((hflag hi).symm.trans ht)) Bool.false_ne_true

/-- Settles O17: a step that faults leaves the flag alone; any other ends in the poll of the state its instruction
left. -/
theorem haltPollEndsTheStep : Obligations.HaltPollEndsTheStep := by
  intro s t hs h
  rcases step_running_faults_or_polls hs with ⟨info, e⟩ | ⟨raw, f, i, u, hf, hd, hx, hu, e⟩ <;>
    cases e.symm.trans h
  · exact ⟨fun hn => absurd rfl hn, fun h0 h1 => absurd (h0.symm.trans h1) Bool.false_ne_true, fun _ => rfl⟩
  · obtain ⟨hne, hhalted, hrest⟩ := State.pollHalt_of_running hu
    have hframe : f = { s with locals := f.locals } := (fetch_frame s hf).1
    have hflag : f.haltFlag = s.haltFlag := by rw [hframe]
    have hpc : f.pc = s.pc := by rw [hframe]
    refine ⟨fun _ => ⟨hhalted, raw, f, i, u, hf, hd, hx, hu, u.pollHalt_haltFlag.symm, hrest⟩,
      fun h0 h1 => ⟨hhalted.mpr h1, ?_⟩, fun hft => absurd hft hne⟩
    rw [State.pollHalt_haltFlag] at h1
    rw [State.pollHalt_pc, exec_pc_of_sets_haltFlag hx (hflag.trans h0) h1, hpc]

end Sys2Proof.Machine
end

section
/-! PROOF. Reads and writes of the memory regions (spec 20_memory.md R82, R83). -/

namespace Sys2Proof.Machine

variable (s : State) (a : Nat) (n : Width)

/-- R82: the bytes a region read puts side by side are the digits of the number it reads. -/
theorem State.regionRead_toNat : (s.regionRead a n).toNat
    = ((List.range n.bytes).map fun i => (s.readByte (a + i)).toNat * 2 ^ (8 * i)).sum := by
  cases n with
  | byte =>
    have h : (s.regionRead a .byte).toNat = (s.readByte a).toNat * 2 ^ 0 := place_toNat _ (by omega)
    simp [h, Width.bytes]
  | half =>
    have h : (s.regionRead a .half).toNat = _ := halfOfBytes_toNat (s.readByte a) (s.readByte (a + 1))
    simp [h, Width.bytes, List.range_succ, Nat.mul_comm]
  | word => simp [State.regionRead_word, wordOfBytes_toNat, Width.bytes, List.range_succ, Nat.mul_comm, Nat.add_assoc]

/-- Settles O32: the bus answers the region's read, which is the sum of the bytes. -/
theorem regionReadIsTheSumOfItsBytes : Obligations.RegionReadIsTheSumOfItsBytes :=
  fun access a n s hv hr ha => ⟨_, memRead_memory s access hv hr ha, s.regionRead_toNat a.toNat n⟩

/-- Settles O33: the bus answers the region's write, whose bytes and frame the region laws give. -/
theorem regionWriteChangesExactlyItsBytes : Obligations.RegionWriteChangesExactlyItsBytes := by
  intro a n v s hv hm hr ha
  refine ⟨_, memWrite_memory s v hv hr ha, fun i hi => ?_, fun b hb => ?_, ?_, ?_⟩
  · rw [s.readByte_regionWrite_inside hm a.toNat n v hi, byteOf_toNat]
  · exact s.readByte_regionWrite_outside a.toNat n v hb
  · exact s.regionWrite_eq a.toNat n v
  · exact s.regionWrite_wf hm a.toNat n v

end Sys2Proof.Machine
end

section
/-! PROOF. The halt flag and SimControl (spec 21_peripherals.md R122 to R125). -/

namespace Sys2Proof.Machine

variable (s : State)

/-! ### The halt flag is sticky -/

/-- No bus write clears the halt flag, whatever target it reaches. -/
theorem memWrite_keeps_haltFlag_set {t : State} {a : Word} {n : Width} {v : Word} (h : memWrite a n v s = .ok t)
    (hs : s.haltFlag = true) : t.haltFlag = true := by
  rcases memWrite_ok_cases s h with ⟨_, -, -, -, rfl⟩ | ⟨p, _, r, -, -, -, -, rfl⟩
  · rw [State.regionWrite_haltFlag, hs]
  · rw [State.periphWrite_haltFlag, hs, Bool.true_or]

/-- No step clears the halt flag: a terminal state is left as it is, and of the effects of a running hart only a
bus write can touch the flag. -/
theorem step_keeps_haltFlag_set {s t : State} (h : step s = .next t) (hs : s.haltFlag = true) :
    t.haltFlag = true := by
  by_cases hr : s.hartState = .running
  · obtain ⟨u, rfl, hu⟩ := step_running_elim (Q := fun u => u.haltFlag = true) hr h
      (hfault := fun _ => hs)
      (hreg := fun _ _ _ _ _ => by simpa using hs)
      (hpc := fun _ _ _ => hs)
      (hmem := fun _ _ _ _ _ _ hw => (State.advance_haltFlag _).trans (memWrite_keeps_haltFlag_set _ hw hs))
    rw [State.pollHalt_haltFlag, hu]
  · cases (step_terminal s hr).symm.trans h
    exact hs

/-- A step of a running hart after which the flag is set does not leave the hart running: the poll has seen it. -/
theorem step_not_running_of_haltFlag {s t : State} (h : step s = .next t) (hs : s.hartState = .running)
    (ht : t.haltFlag = true) : t.hartState ≠ .running := by
  intro hr
  obtain ⟨hpoll, -, -⟩ := haltPollEndsTheStep s t hs h
  obtain ⟨hhalted, -⟩ := hpoll (by simp [hr])
  exact absurd (hr.symm.trans (hhalted.mpr ht)) (by decide)

/-- A step that sets the flag was taken by a running hart, and its poll ends it in `Halted`. -/
theorem step_halted_of_sets_haltFlag {s t : State} (h : step s = .next t) (hs : s.haltFlag = false)
    (ht : t.haltFlag = true) : t.hartState = .halted := by
  by_cases hr : s.hartState = .running
  · obtain ⟨-, hset, -⟩ := haltPollEndsTheStep s t hr h
    exact (hset hs ht).1
  · cases (step_terminal s hr).symm.trans h
    exact absurd (hs.symm.trans ht) Bool.false_ne_true

/-- Settles O40: no effect of a step clears the flag, and the poll ends every step that finds or makes it set. -/
theorem haltFlagIsSticky : Obligations.HaltFlagIsSticky :=
  fun _ _ h => ⟨step_keeps_haltFlag_set h, step_not_running_of_haltFlag h, step_halted_of_sets_haltFlag h⟩

/-! ### A store to CONTROL -/

/-- R124: the predicate of SimControl's trigger reads bit 0 of the new value and nothing else. -/
theorem triggerFires_simControlTrigger (new old : Word) :
    triggerFires simControlTrigger new old = new.getLsbD 0 := by
  have hbit : new &&& 1#32 = (BitVec.ofBool (new.getLsbD 0)).setWidth 32 :=
    BitVec.and_one_eq_setWidth_ofBool_getLsbD
  simp only [triggerFires, simControlTrigger, WordFn.eval, hbit]
  cases new.getLsbD 0 <;> rfl

/-- The state after a 32-bit write of `v` to the `CONTROL` of the SimControl port at `base` (R124): `v` is stored,
and bit 0 of `v` set sets the halt flag. -/
def State.writeControl (base : Nat) (v : Word) : State :=
  { s.writeStorage base v with haltFlag := s.haltFlag || v.getLsbD 0 }

/-- R115, R123: `CONTROL` stores the written word as it is. -/
theorem State.periphNew_simControl {r : PeriphReg} (hr : r ∈ simControl) (base : Nat) (v : Word) :
    s.periphNew base r v = v := by
  obtain rfl := List.mem_singleton.mp hr
  simp only [State.periphNew, WordFn.eval, Width.trunc_word]

/-- R124: what the register write and the one trigger of `CONTROL` do together. -/
theorem State.periphWrite_simControl {r : PeriphReg} (hr : r ∈ simControl) (base : Nat) (v : Word) :
    s.periphWrite base r v = s.writeControl base v := by
  have hnew := s.periphNew_simControl hr base v
  obtain rfl := List.mem_singleton.mp hr
  simp only [State.periphWrite, hnew, List.foldl_cons, List.foldl_nil, State.fireTrigger,
    triggerFires_simControlTrigger, State.writeControl]
  cases v.getLsbD 0
  · rw [Bool.or_false]
    rfl
  · rw [Bool.or_true]
    rfl

/-- R122: a word written at the base of a SimControl port reaches `CONTROL`. -/
theorem memWrite_simControl {a : Word} {p : Port} (v : Word) (hv : Config.Valid s.cfg) (hp : p ∈ s.cfg.ports)
    (ht : p.target = .peripheral simControl) (ha : a.toNat = p.base) (h : p.base % 4 = 0) :
    memWrite a .word v s = .ok (s.writeControl p.base v) := by
  have hw := memWrite_periph s v hv hp ht (List.mem_singleton.mpr rfl) ha (ha ▸ h)
  rwa [s.periphWrite_simControl (List.mem_singleton.mpr rfl)] at hw

/-- R124, R210: SW to `CONTROL` writes it and advances. -/
theorem exec_sw_simControl {p : Port} {rs1 rs2 : RegIdx} {imm : Word} (hv : Config.Valid s.cfg)
    (hp : p ∈ s.cfg.ports) (ht : p.target = .peripheral simControl) (ha : (s.readReg rs1 + imm).toNat = p.base)
    (h : p.base % 4 = 0) : exec (.sw rs1 rs2 imm) s = .next (s.writeControl p.base (s.readReg rs2)).advance := by
  have hx : exec (.sw rs1 rs2 imm) s = storeTo .word rs1 rs2 imm s := rfl
  rw [hx, storeTo, effectiveAddress, memWrite_simControl s _ hv hp ht ha h]

/-- Settles O37: the store is the write of `CONTROL`, of which the register laws give what it leaves where. -/
theorem controlWriteSetsTheHaltFlag : Obligations.ControlWriteSetsTheHaltFlag := by
  intro s p rs1 rs2 imm hv hc hp ht ha h
  obtain ⟨-, hstorage, -, -⟩ := hc
  refine ⟨_, exec_sw_simControl s hv hp ht ha h, fun _ => rfl, rfl, fun _ => rfl, ⟨rfl, rfl, rfl⟩,
    s.readStorage_writeStorage_same hstorage p.base _, fun _ hne => s.readStorage_writeStorage_ne _ hne,
    fun _ => rfl, fun hbit => ?_, fun hbit => ?_⟩
  · rw [State.advance_haltFlag, State.writeControl, hbit, Bool.or_true]
  · rw [State.advance_haltFlag, State.writeControl, hbit, Bool.or_false]

end Sys2Proof.Machine
end

section
/-! PROOF. The operands of a decoded instruction (spec 30_encoding.md R141, R154, R155). -/

namespace Sys2Proof

variable (w : Word)

/-- The immediate of each format, read from a word (R149 to R153); R and I-shift words carry none (R163). -/
def immOf : Format → Word
  | .i => immI w
  | .s => immS w
  | .b => immB w
  | .u => immU w
  | .j => immJ w
  | .r | .iShift => 0#32

/-- Every operand that the instruction names is the one in the word's field for it (R141, R149 to R154). -/
structure Instr.OperandsFrom (i : Instr) : Prop where
  dest : i.dest? = i.dest?.map fun _ => rdOf w
  src1 : i.src1? = i.src1?.map fun _ => rs1Of w
  src2 : i.src2? = i.src2?.map fun _ => rs2Of w
  shamt : i.shamt? = i.shamt?.map fun _ => shamtOf w
  imm : i.imm? = i.imm?.map fun _ => immOf w i.format

variable {w} {i : Instr}

theorem operandsFrom_of_decodeJalr (h : decodeJalr w = .ok i) : i.OperandsFrom w := by
  unfold decodeJalr at h
  split at h <;> cases h
  exact ⟨rfl, rfl, rfl, rfl, rfl⟩

theorem operandsFrom_of_decodeBranch (h : decodeBranch w = .ok i) : i.OperandsFrom w := by
  unfold decodeBranch at h
  split at h <;> cases h <;> exact ⟨rfl, rfl, rfl, rfl, rfl⟩

theorem operandsFrom_of_decodeLoad (h : decodeLoad w = .ok i) : i.OperandsFrom w := by
  unfold decodeLoad at h
  split at h <;> cases h <;> exact ⟨rfl, rfl, rfl, rfl, rfl⟩

theorem operandsFrom_of_decodeStore (h : decodeStore w = .ok i) : i.OperandsFrom w := by
  unfold decodeStore at h
  split at h <;> cases h <;> exact ⟨rfl, rfl, rfl, rfl, rfl⟩

theorem operandsFrom_of_decodeOpImm (h : decodeOpImm w = .ok i) : i.OperandsFrom w := by
  unfold decodeOpImm at h
  repeat' split at h
  all_goals cases h
  all_goals exact ⟨rfl, rfl, rfl, rfl, rfl⟩

theorem operandsFrom_of_decodeOp (h : decodeOp w = .ok i) : i.OperandsFrom w := by
  unfold decodeOp at h
  repeat' split at h
  all_goals cases h
  all_goals exact ⟨rfl, rfl, rfl, rfl, rfl⟩

/-- R155: the decoder takes each operand of the instruction from its field, whatever the opcode. -/
theorem operandsFrom_of_decode (h : decode w = .ok i) : i.OperandsFrom w := by
  rcases decode_ok_cases h with ⟨-, rfl⟩ | ⟨-, rfl⟩ | ⟨-, rfl⟩ | ⟨-, h⟩ | ⟨-, h⟩ | ⟨-, h⟩ | ⟨-, h⟩ | ⟨-, h⟩ | ⟨-, h⟩
  · exact ⟨rfl, rfl, rfl, rfl, rfl⟩
  · exact ⟨rfl, rfl, rfl, rfl, rfl⟩
  · exact ⟨rfl, rfl, rfl, rfl, rfl⟩
  · exact operandsFrom_of_decodeJalr h
  · exact operandsFrom_of_decodeBranch h
  · exact operandsFrom_of_decodeLoad h
  · exact operandsFrom_of_decodeStore h
  · exact operandsFrom_of_decodeOpImm h
  · exact operandsFrom_of_decodeOp h

/-- Where an optional operand is named, it is its field. -/
theorem eq_field_of_named {α : Type} {o : Option α} {field r : α} (h : o = o.map fun _ => field)
    (hr : o = some r) : r = field := by
  subst hr
  exact Option.some.inj h

/-- Settles O8: each operand is its field, and each field is its bits as a number. -/
theorem decodedRegisterFields : Obligations.DecodedRegisterFields := by
  intro w i h
  obtain ⟨hdest, hsrc1, hsrc2, hshamt, -⟩ := operandsFrom_of_decode h
  refine ⟨fun r hr => ?_, fun r hr => ?_, fun r hr => ?_, fun n hn => ?_⟩
  · rw [eq_field_of_named hdest hr]
    exact rdOf_toNat w
  · rw [eq_field_of_named hsrc1 hr]
    exact rs1Of_toNat w
  · rw [eq_field_of_named hsrc2 hr]
    exact rs2Of_toNat w
  · rw [eq_field_of_named hshamt hn]
    exact shamtOf_toNat w

end Sys2Proof
end

section
/-! PROOF. The immediates as numbers (spec 30_encoding.md R149 to R153). -/

namespace Sys2Proof

/-- R9: the sign extension of `n + 1` bits is the number of the lower `n`, less `2 ^ n` when the top bit is set
(the witness `-1`: `2 ^ (n + 1)` is taken away once). -/
theorem sext_toInt_of_sign {n m : Nat} (sign : Bool) (hn : n + 1 ≤ 32) (hm : m < 2 ^ n) :
    (sext (n + 1) (BitVec.ofNat 32 (sign.toNat * 2 ^ n + m))).toInt = (m : Int) - if sign then 2 ^ n else 0 := by
  have hpow : 2 ^ (n + 1) = 2 * 2 ^ n := pow_succ' 2 n
  have hle : 2 ^ (n + 1) ≤ 2 ^ 32 := Nat.pow_le_pow_right (by omega) hn
  have hcast : ((2 ^ n : Nat) : Int) = 2 ^ n := by push_cast; rfl
  rw [sext_toInt _ hn, BitVec.toNat_ofNat, Int.bmod_eq_iff (by positivity), hpow]
  cases sign with
  | false =>
    rw [Nat.mod_eq_of_lt (by simp; omega)]
    simp
    omega
  | true =>
    rw [Nat.mod_eq_of_lt (by simp; omega)]
    exact ⟨by simp, by simp; omega, -1, by push_cast; simp; ring⟩

/-- The field of `b + 1` bits at `a` is its top bit and its lower `b` bits. -/
theorem field_eq_top_add (x a b : Nat) :
    x / 2 ^ a % 2 ^ (b + 1) = x / 2 ^ (a + b) % 2 * 2 ^ b + x / 2 ^ a % 2 ^ b := by
  rw [Nat.mod_pow_succ, div_two_pow_add, Nat.add_comm, Nat.mul_comm]

/-- Bit 31 of a word as a number: the sign bit of every signed immediate. -/
theorem toNat_getLsbD_31 (w : Word) : (w.getLsbD 31).toNat = w.toNat / 2 ^ 31 % 2 := Nat.toNat_testBit ..

/-- A signed immediate of `n + 1` bits whose top bit is bit 31 of the word. -/
theorem sext_toInt_of_bit31 {n m x : Nat} (w : Word) (hn : n + 1 ≤ 32) (hm : m < 2 ^ n)
    (hx : x = w.toNat / 2 ^ 31 % 2 * 2 ^ n + m) :
    (sext (n + 1) (BitVec.ofNat 32 x)).toInt = (m : Int) - if w.getLsbD 31 then 2 ^ n else 0 := by
  rw [hx, ← toNat_getLsbD_31]
  exact sext_toInt_of_sign _ hn hm

/-- R149: the I-format immediate as a number. -/
theorem immI_toInt (w : Word) :
    (immI w).toInt = (w.toNat / 2 ^ 20 % 2 ^ 11 : Nat) - (if w.getLsbD 31 then 2048 else 0) := by
  rw [immI_eq]
  exact sext_toInt_of_bit31 w (by omega) (by omega) (field_eq_top_add _ 20 11)

/-- R150: the S-format immediate as a number. -/
theorem immS_toInt (w : Word) : (immS w).toInt
    = (w.toNat / 2 ^ 25 % 2 ^ 6 * 32 + w.toNat / 2 ^ 7 % 2 ^ 5 : Nat) - (if w.getLsbD 31 then 2048 else 0) := by
  have htop := field_eq_top_add w.toNat 25 6
  rw [immS_eq]
  exact sext_toInt_of_bit31 w (by omega) (by omega) (by omega)

/-- R151: the B-format immediate as a number. -/
theorem immB_toInt (w : Word) : (immB w).toInt
    = (w.toNat / 2 ^ 7 % 2 * 2048 + w.toNat / 2 ^ 25 % 2 ^ 6 * 32 + w.toNat / 2 ^ 8 % 2 ^ 4 * 2 : Nat)
      - (if w.getLsbD 31 then 4096 else 0) := by
  rw [immB_eq]
  exact sext_toInt_of_bit31 w (by omega) (by omega) (by omega)

/-- R153: the J-format immediate as a number. -/
theorem immJ_toInt (w : Word) : (immJ w).toInt
    = (w.toNat / 2 ^ 12 % 2 ^ 8 * 4096 + w.toNat / 2 ^ 20 % 2 * 2048 + w.toNat / 2 ^ 21 % 2 ^ 10 * 2 : Nat)
      - (if w.getLsbD 31 then 1048576 else 0) := by
  rw [immJ_eq]
  exact sext_toInt_of_bit31 w (by omega) (by omega) (by omega)

/-- R152: the U-format immediate is the word with its low twelve bits cleared. -/
theorem immU_eq_and (w : Word) : immU w = w &&& 0xFFFFF000#32 :=
  calc immU w = w >>> 12 <<< 12 := by
        have := w.isLt
        apply BitVec.eq_of_toNat_eq
        rw [immU_toNat, BitVec.toNat_shiftLeft, BitVec.toNat_ushiftRight, Nat.shiftLeft_eq, Nat.shiftRight_eq_div_pow]
        omega
    _ = w &&& BitVec.allOnes 32 <<< 12 := BitVec.shiftLeft_ushiftRight
    _ = w &&& 0xFFFFF000#32 := rfl

/-- Settles O7: the immediate is that of the instruction's format, read as a number. -/
theorem decodedImmediates : Obligations.DecodedImmediates := by
  intro w i imm h himm
  obtain ⟨-, -, -, -, hformat⟩ := operandsFrom_of_decode h
  rw [eq_field_of_named hformat himm]
  refine ⟨fun hf => ?_, fun hf => ?_, fun hf => ?_, fun hf => ?_, fun hf => ?_⟩ <;> rw [hf]
  · exact immI_toInt w
  · exact immS_toInt w
  · exact immB_toInt w
  · exact immU_eq_and w
  · exact immJ_toInt w

end Sys2Proof
end

section
/-! PROOF. The upper seven bits of the immediate shifts (spec 30_encoding.md R161). -/

namespace Sys2Proof

/-- Opcode `0010011` is OP-IMM (R158). -/
theorem decode_eq_decodeOpImm {w : Word} (h : opcodeOf w = 0b0010011#7) : decode w = decodeOpImm w := by
  simp only [decode, h]

theorem decodeOpImm_funct3_001 {w : Word} (h : funct3Of w = 0b001#3) : decodeOpImm w
    = if funct7Of w = 0b0000000#7 then .ok (.slli (rdOf w) (rs1Of w) (shamtOf w)) else .error .shiftFunct7 := by
  simp only [decodeOpImm, h]

theorem decodeOpImm_funct3_101 {w : Word} (h : funct3Of w = 0b101#3) : decodeOpImm w
    = if funct7Of w = 0b0000000#7 then .ok (.srli (rdOf w) (rs1Of w) (shamtOf w))
      else if funct7Of w = 0b0100000#7 then .ok (.srai (rdOf w) (rs1Of w) (shamtOf w))
      else .error .shiftFunct7 := by
  simp [decodeOpImm, h]

/-- Settles O5: with the opcode and funct3 given, the decoder looks at funct7 alone. -/
theorem immediateShiftsNeedTheirFunct7 : Obligations.ImmediateShiftsNeedTheirFunct7 := by
  intro w hop
  have hdec : decode w = decodeOpImm w := decode_eq_decodeOpImm hop
  refine ⟨fun h3 => ?_, fun h3 => ?_⟩
  · rw [hdec, decodeOpImm_funct3_001 h3]
    exact ⟨fun h7 => if_pos h7, fun h7 => if_neg h7⟩
  · rw [hdec, decodeOpImm_funct3_101 h3]
    refine ⟨fun h7 => if_pos h7, fun h7 => ?_, fun h0 h32 => (if_neg h0).trans (if_neg h32)⟩
    have h0 : funct7Of w ≠ 0b0000000#7 := ne_of_eq_of_ne h7 (by decide)
    exact (if_neg h0).trans (if_pos h7)

end Sys2Proof
end

section
/-! PROOF. LUI and AUIPC (spec 40_upper_immediate.md R170, R171). -/

namespace Sys2Proof

variable {w : Word}

/-- R170: every word with opcode `0110111` is LUI. -/
theorem decode_eq_lui (h : w &&& 0x7F#32 = 0x37#32) : decode w = .ok (.lui (rdOf w) (immU w)) := by
  have hop : opcodeOf w = 0b0110111#7 := (and_opcodeMask_iff w _).mp h
  simp only [decode, hop]

/-- R171: every word with opcode `0010111` is AUIPC. -/
theorem decode_eq_auipc (h : w &&& 0x7F#32 = 0x17#32) : decode w = .ok (.auipc (rdOf w) (immU w)) := by
  have hop : opcodeOf w = 0b0010111#7 := (and_opcodeMask_iff w _).mp h
  simp only [decode, hop]

namespace Machine

variable (s : State) (rd : RegIdx) (imm : Word)

theorem exec_lui : exec (.lui rd imm) s = .next (s.writeReg rd imm).advance := rfl

theorem exec_auipc : exec (.auipc rd imm) s = .next (s.writeReg rd (s.pc + imm)).advance := rfl

/-- Settles O43: the opcode decides both decodings, `immU` is the masked word, and each instruction is one register
write and an advance of the pc. -/
theorem upperImmediateInstructions : Obligations.UpperImmediateInstructions := by
  refine ⟨fun w h => ?_, fun w h => ?_, fun s rd imm =>
    ⟨⟨_, exec_lui s rd imm, writesOnly_writeReg_advance s rd imm⟩, ⟨_, exec_auipc s rd imm, ?_⟩⟩⟩
  · rw [decode_eq_lui h, immU_eq_and]
    rfl
  · rw [decode_eq_auipc h, immU_eq_and]
    rfl
  · rw [← BitVec.add_def]
    exact writesOnly_writeReg_advance s rd (s.pc + imm)

end Machine

end Sys2Proof
end

section
/-! PROOF. The configuration (spec 10_state.md R33) and the registers after reset (70_reset_and_hazards.md R301). -/

namespace Sys2Proof.Machine

/-- R307: reset takes the configuration as it is given. -/
@[simp] theorem State.resetWith_cfg (c : Config) : (State.resetWith c).cfg = c := rfl

/-- R33: no step changes the configuration. A terminal state is left as it is, and of the effects of a running hart
only a bus write is not a plain update of some other field; the write's frame has the configuration in it. -/
theorem step_keeps_cfg {s t : State} (h : step s = .next t) : t.cfg = s.cfg := by
  by_cases hr : s.hartState = .running
  · obtain ⟨u, rfl, hu⟩ := step_running_elim (Q := fun u => u.cfg = s.cfg) hr h
      (hfault := fun info => s.enterFault_cfg info)
      (hreg := fun rd v _ l _ => State.writeReg_cfg { s with locals := l } rd v)
      (hpc := fun _ _ _ => rfl)
      (hmem := fun _ _ _ _ _ _ hw => by
        obtain ⟨-, -, -, -, hcfg⟩ := memWrite_frame _ hw
        rw [State.advance_cfg, hcfg])
    rw [State.pollHalt_cfg, hu]
  · cases (step_terminal s hr).symm.trans h
    rfl

/-- Settles O22: reset stores its configuration, and every step keeps the one it finds. -/
theorem configurationIsFixed : Obligations.ConfigurationIsFixed :=
  ⟨State.resetWith_cfg, fun _ _ h => step_keeps_cfg h⟩

/-- Settles O26: `x0` reads 0 in every state, and the slot of any other register is one of the zeros that reset puts
there. -/
theorem resetRegistersAreZero : Obligations.ResetRegistersAreZero := by
  intro c r
  by_cases hr : r = 0#5
  · rw [hr, State.readReg_zero]
  · have hregs : (State.resetWith c).regs = Vector.replicate 32 0#32 := rfl
    simp only [State.readReg, if_neg hr, hregs, Vector.getElem_replicate]

end Sys2Proof.Machine
end

section
/-! PROOF. The round trip between words and instructions (spec 30_encoding.md R155, R163). -/

namespace Sys2Proof

variable {w : Word} {i : Instr}

/-- R155: the decoder finds in an encoded word the opcode, funct3 and funct7 that select the instruction's case, and
its operands in their fields; the immediates are the ones that have to fit. -/
theorem decode_encode (h : i.wellFormed = true) : decode (encode i) = .ok i := by
  cases i with
  | lui rd imm | auipc rd imm => simp [encode, decode, immU_encU _ _ _ h]
  | jal rd imm => simp [encode, decode, immJ_encJ _ _ _ h]
  | jalr rd rs1 imm => simp [encode, decode, decodeJalr, immI_encI _ _ _ _ _ h]
  | beq rs1 rs2 imm | bne rs1 rs2 imm | blt rs1 rs2 imm | bge rs1 rs2 imm | bltu rs1 rs2 imm | bgeu rs1 rs2 imm =>
    simp [encode, decode, decodeBranch, immB_encB _ _ _ _ _ h]
  | lb rd rs1 imm | lh rd rs1 imm | lw rd rs1 imm | lbu rd rs1 imm | lhu rd rs1 imm =>
    simp [encode, decode, decodeLoad, immI_encI _ _ _ _ _ h]
  | sb rs1 rs2 imm | sh rs1 rs2 imm | sw rs1 rs2 imm =>
    simp [encode, decode, decodeStore, immS_encS _ _ _ _ _ h]
  | addi rd rs1 imm | slti rd rs1 imm | sltiu rd rs1 imm | xori rd rs1 imm | ori rd rs1 imm | andi rd rs1 imm =>
    simp [encode, decode, decodeOpImm, immI_encI _ _ _ _ _ h]
  | slli | srli | srai => simp [encode, decode, decodeOpImm]
  | add | sub | sll | slt | sltu | xor | srl | sra | or | and => simp [encode, decode, decodeOp]

/-- Settles O1: by format, from what the encoder puts in each field. -/
theorem decodeOfEncode : Obligations.DecodeOfEncode :=
  fun _ h => decode_encode h

/-- The instruction is well-formed and the word is the one that encodes it. -/
abbrev Instr.Encodes (i : Instr) (w : Word) : Prop := encode i = w ∧ i.wellFormed = true

theorem encodes_of_decodeJalr (hop : opcodeOf w = 0b1100111#7) (h : decodeJalr w = .ok i) : i.Encodes w := by
  have hw := encI_fields w
  unfold decodeJalr at h
  split at h <;> cases h
  rename_i h3
  rw [hop, h3] at hw
  exact ⟨hw, immI_fits w⟩

theorem encodes_of_decodeBranch (hop : opcodeOf w = 0b1100011#7) (h : decodeBranch w = .ok i) : i.Encodes w := by
  have hw := encB_fields w
  unfold decodeBranch at h
  split at h <;> cases h
  all_goals
    rename_i h3
    rw [hop, h3] at hw
    exact ⟨hw, immB_fits w⟩

theorem encodes_of_decodeLoad (hop : opcodeOf w = 0b0000011#7) (h : decodeLoad w = .ok i) : i.Encodes w := by
  have hw := encI_fields w
  unfold decodeLoad at h
  split at h <;> cases h
  all_goals
    rename_i h3
    rw [hop, h3] at hw
    exact ⟨hw, immI_fits w⟩

theorem encodes_of_decodeStore (hop : opcodeOf w = 0b0100011#7) (h : decodeStore w = .ok i) : i.Encodes w := by
  have hw := encS_fields w
  unfold decodeStore at h
  split at h <;> cases h
  all_goals
    rename_i h3
    rw [hop, h3] at hw
    exact ⟨hw, immS_fits w⟩

/-- The eight values of a funct3 field. -/
theorem funct3_cases : ∀ f : BitVec 3, f = 0b000#3 ∨ f = 0b001#3 ∨ f = 0b010#3 ∨ f = 0b011#3 ∨ f = 0b100#3
    ∨ f = 0b101#3 ∨ f = 0b110#3 ∨ f = 0b111#3 := by decide

theorem encodes_of_decodeOpImm (hop : opcodeOf w = 0b0010011#7) (h : decodeOpImm w = .ok i) : i.Encodes w := by
  have hR : encR (funct7Of w) (funct3Of w) (opcodeOf w) (rdOf w) (rs1Of w) (shamtOf w) = w := encR_fields w
  have hI := encI_fields w
  rw [hop] at hR hI
  rcases funct3_cases (funct3Of w) with h3 | h3 | h3 | h3 | h3 | h3 | h3 | h3 <;> rw [h3] at hR hI
  case inr.inl =>
    rw [decodeOpImm_funct3_001 h3] at h
    split at h <;> cases h
    rename_i h7
    rw [h7] at hR
    exact ⟨hR, rfl⟩
  case inr.inr.inr.inr.inr.inl =>
    rw [decodeOpImm_funct3_101 h3] at h
    split at h
    · rename_i h7
      cases h
      rw [h7] at hR
      exact ⟨hR, rfl⟩
    · split at h <;> cases h
      rename_i h7
      rw [h7] at hR
      exact ⟨hR, rfl⟩
  all_goals
    simp only [decodeOpImm, h3] at h
    cases h
    exact ⟨hI, immI_fits w⟩

theorem encodes_of_decodeOp (hop : opcodeOf w = 0b0110011#7) (h : decodeOp w = .ok i) : i.Encodes w := by
  have hw := encR_fields w
  rw [hop] at hw
  unfold decodeOp at h
  split at h
  · rename_i h7
    rcases funct3_cases (funct3Of w) with h3 | h3 | h3 | h3 | h3 | h3 | h3 | h3
    all_goals
      rw [h3, h7] at hw
      simp only [h3] at h
      cases h
      exact ⟨hw, rfl⟩
  · split at h
    · rename_i h7
      split at h <;> cases h
      all_goals
        rename_i h3
        rw [h3, h7] at hw
        exact ⟨hw, rfl⟩
    · cases h

/-- R155: a word is the encoding of its fields in the format its opcode selects, and the decoder takes the operands
from those fields. -/
theorem encodes_of_decode (h : decode w = .ok i) : i.Encodes w := by
  rcases decode_ok_cases h with ⟨hop, rfl⟩ | ⟨hop, rfl⟩ | ⟨hop, rfl⟩ | ⟨hop, h⟩ | ⟨hop, h⟩ | ⟨hop, h⟩ | ⟨hop, h⟩
    | ⟨hop, h⟩ | ⟨hop, h⟩
  · exact ⟨by rw [encode, ← hop, encU_fields], immU_fits w⟩
  · exact ⟨by rw [encode, ← hop, encU_fields], immU_fits w⟩
  · exact ⟨by rw [encode, ← hop, encJ_fields], immJ_fits w⟩
  · exact encodes_of_decodeJalr hop h
  · exact encodes_of_decodeBranch hop h
  · exact encodes_of_decodeLoad hop h
  · exact encodes_of_decodeStore hop h
  · exact encodes_of_decodeOpImm hop h
  · exact encodes_of_decodeOp hop h

/-- Settles O2: opcode by opcode, from the word being the encoding of its fields. -/
theorem encodeOfDecode : Obligations.EncodeOfDecode :=
  fun _ _ h => encodes_of_decode h

end Sys2Proof
end

section
/-! PROOF. What every step keeps (spec 10_state.md R21, R25 to R32; 60_exceptions.md R281). -/

namespace Sys2Proof.Machine

/-- Settles O14: a step that does not take a fault ends in the halt poll of a running hart, which never ends in
`Faulted`; one that does is fault entry from the state the step began in. -/
theorem faultingStepChangesNothing : Obligations.FaultingStepChangesNothing := by
  intro s t hs h ht
  rcases step_running_faults_or_polls hs with ⟨info, e⟩ | ⟨_, _, _, u, -, -, -, hu, e⟩ <;> cases e.symm.trans h
  · exact ⟨info, faultsWith_enterFault s info⟩
  · exact absurd ht (State.pollHalt_of_running hu).1

/-- What holds of a state, of every effect of a step from it, and is kept by the halt poll, a step keeps. -/
theorem step_keeps {Q : State → Prop} {s t : State} (h : step s = .next t) (hs : Q s)
    (hpoll : ∀ u, Q u → Q u.pollHalt) (hfault : ∀ info, Q (s.enterFault info))
    (hreg : ∀ rd v npc l, (Cells.wf s.locals → Cells.wf l) →
      Q ((State.writeReg { s with locals := l } rd v).setPc npc))
    (hpc : ∀ npc l, (Cells.wf s.locals → Cells.wf l) → Q (State.setPc { s with locals := l } npc))
    (hmem : ∀ a n v l u, (Cells.wf s.locals → Cells.wf l) → memWrite a n v { s with locals := l } = .ok u →
      Q u.advance) : Q t := by
  by_cases hr : s.hartState = .running
  · obtain ⟨u, rfl, hu⟩ := step_running_elim hr h hfault hreg hpc hmem
    exact hpoll u hu
  · cases (step_terminal s hr).symm.trans h
    exact hs

/-! ### Canonical form -/

/-- A bus write keeps the canonical form, whatever target it reaches. -/
theorem memWrite_canonical {s t : State} {a : Word} {n : Width} {v : Word} (h : memWrite a n v s = .ok t)
    (hs : s.Canonical) : t.Canonical := by
  obtain ⟨hmem, hstorage, hlocals, hzero⟩ := hs
  rcases memWrite_ok_cases s h with ⟨_, -, -, -, rfl⟩ | ⟨p, _, r, -, -, -, -, rfl⟩
  · exact ⟨s.regionWrite_wf hmem _ _ _, by simpa using hstorage, by simpa using hlocals, by simpa using hzero⟩
  · refine ⟨by simpa using hmem, ?_, s.periphWrite_locals_wf hlocals _ _ _, by simpa using hzero⟩
    rw [State.periphWrite_storage]
    exact Cells.wf_set hstorage _ _

/-- Settles O19: a register write leaves the slot of `x0` alone, and every write of the sparse parts keeps their
form. -/
theorem stepKeepsCanonicalForm : Obligations.StepKeepsCanonicalForm := by
  intro s t hs h
  obtain ⟨hmem, hstorage, hlocals, hzero⟩ := hs
  refine step_keeps (Q := State.Canonical) h ⟨hmem, hstorage, hlocals, hzero⟩ (fun u hu => ?_) (fun info => ?_)
    (fun rd v npc l hl => ?_) (fun npc l hl => ?_) (fun a n v l u hl hw => ?_)
  · simpa [State.Canonical] using hu
  · exact ⟨hmem, hstorage, hlocals, hzero⟩
  · exact ⟨by simpa using hmem, by simpa using hstorage, by simpa using hl hlocals, by simpa using hzero⟩
  · exact ⟨hmem, hstorage, hl hlocals, hzero⟩
  · exact memWrite_canonical (t := u) hw ⟨hmem, hstorage, hl hlocals, hzero⟩

/-! ### The sequencer -/

/-- An instruction that leaves the hart running has latched no fault record. -/
theorem exec_faultRecord_of_running {s t : State} {i : Instr} (h : exec i s = .next t)
    (ht : t.hartState = .running) : t.faultRecord = s.faultRecord := by
  rcases exec_cases s i with
    ⟨_, _, _, _, -, -, -, -, -, e⟩ | ⟨_, -, -, -, e⟩ | ⟨_, _, _, _, u, -, -, -, hw, e⟩ | ⟨_, -, e⟩ <;>
    cases e.symm.trans h
  · simp
  · simp
  · obtain ⟨-, -, -, hrecord, -⟩ := memWrite_frame s hw
    exact hrecord
  · cases ht

/-- Settles O20: a running hart that agrees has no flag and no record. Fault entry writes the record and the hart
state together; every other effect leaves the record empty and the hart running, and the poll then makes the hart
state follow the flag. -/
theorem stepKeepsSequencerAgreement : Obligations.StepKeepsSequencerAgreement := by
  intro s t hs h
  by_cases hr : s.hartState = .running
  · obtain ⟨hflag, hrecord, -⟩ := hs
    rcases step_running_faults_or_polls hr with ⟨info, e⟩ | ⟨_, f, _, u, hf, -, hx, hu, e⟩ <;> cases e.symm.trans h
    · have hclear : s.haltFlag ≠ true := fun hset => by simp [hflag.mp hset] at hr
      exact ⟨by simpa using hclear, by simp, by simp⟩
    · obtain ⟨hne, hhalted, -⟩ := State.pollHalt_of_running hu
      have hframe : f = { s with locals := f.locals } := (fetch_frame s hf).1
      have hempty : s.faultRecord = none := by simpa [hr] using hrecord
      have hnone : u.pollHalt.faultRecord = none := by
        rw [State.pollHalt_faultRecord, exec_faultRecord_of_running hx hu, hframe, hempty]
      refine ⟨hhalted.symm, ?_, ?_⟩ <;> rw [hnone]
      · simpa using hne
      · simp
  · cases (step_terminal s hr).symm.trans h
    exact hs

/-! ### Contents -/

/-- A bus write makes no byte outside the memory regions and no storage outside the peripheral registers: it reached
a register, or bytes, of the port that its address selected. -/
theorem memWrite_contained {s t : State} {a : Word} {n : Width} {v : Word} (h : memWrite a n v s = .ok t)
    (hs : s.Contained) : t.Contained := by
  obtain ⟨hmem, hstorage⟩ := hs
  rcases memWrite_ok_cases s h with ⟨p, -, hl, ht, rfl⟩ | ⟨p, regs, r, -, hl, ht, hf, rfl⟩ <;>
    obtain ⟨hp, h1, h2⟩ := Config.lookup_some hl
  · refine ⟨fun c hc => ?_, fun c hc => ?_⟩
    · rw [State.regionWrite_cfg]
      rcases s.mem_regionWrite hc with hin | hold
      · refine List.any_eq_true.mpr ⟨p, hp, ?_⟩
        have hc : p.base ≤ c.1 ∧ c.1 < p.base + p.size := by omega
        simpa [ht] using hc
      · exact hmem c hold
    · rw [State.regionWrite_cfg]
      rw [State.regionWrite_storage] at hc
      exact hstorage c hc
  · refine ⟨fun c hc => ?_, fun c hc => ?_⟩
    · rw [State.periphWrite_cfg]
      rw [State.periphWrite_mem] at hc
      exact hmem c hc
    · rw [State.periphWrite_cfg]
      rw [State.periphWrite_storage] at hc
      rcases Cells.mem_set hc with ⟨rfl, -⟩ | hold
      · exact ⟨p, hp, regs, ht, r, (findReg_some hf).1, rfl, Width.trunc_trunc _ _⟩
      · exact hstorage c hold

/-- Containment is about memory, storage and configuration only. -/
theorem State.Contained.congr {s t : State} (hs : s.Contained) (hmem : t.mem = s.mem)
    (hstorage : t.storage = s.storage) (hcfg : t.cfg = s.cfg) : t.Contained := by
  unfold State.Contained
  rw [hmem, hstorage, hcfg]
  exact hs

/-- Settles O21: only a bus write makes contents, and it makes them where its port has them. -/
theorem stepKeepsContentsContained : Obligations.StepKeepsContentsContained := by
  intro s t hs h
  refine step_keeps (Q := State.Contained) h hs (fun u hu => ?_) (fun info => ?_) (fun rd v npc l _ => ?_)
    (fun npc l _ => ?_) (fun a n v l u _ hw => ?_)
  · exact hu.congr (by simp) (by simp) (by simp)
  · exact hs
  · exact hs.congr (by simp) (by simp) (by simp)
  · exact hs
  · exact memWrite_contained (t := u) hw hs

/-! ### The frame of memory -/

/-- Settles O53: of all effects only a bus write touches memory, and one that reaches a memory region changes no byte
outside the access. -/
theorem onlyTheStoredBytesChange : Obligations.OnlyTheStoredBytesChange := by
  intro i s t a h hout
  rcases exec_cases s i with
    ⟨_, _, _, _, -, -, -, -, -, e⟩ | ⟨_, -, -, -, e⟩ | ⟨n, rs1, rs2, imm, u, -, hi, -, hw, e⟩ | ⟨_, -, e⟩ <;>
    cases e.symm.trans h
  · simp
  · simp
  · rw [State.readByte_advance]
    rcases memWrite_ok_cases s hw with ⟨_, -, -, -, rfl⟩ | ⟨p, _, r, -, -, -, -, rfl⟩
    · exact s.readByte_regionWrite_outside _ n _ (hout n rs1 rs2 imm hi)
    · simp [State.readByte]
  · simp

/-! ### The halt flag in a default system -/

/-- A bus write that sets the halt flag reached a peripheral register, one of whose triggers did it. -/
theorem memWrite_sets_haltFlag {s t : State} {a : Word} {n : Width} {v : Word} (h : memWrite a n v s = .ok t)
    (hs : s.haltFlag = false) (ht : t.haltFlag = true) :
    ∃ p regs r, Config.lookup s.cfg a.toNat n = some p ∧ p.target = .peripheral regs
      ∧ findReg regs (a.toNat - p.base) n = some r ∧ t = s.periphWrite p.base r v := by
  rcases memWrite_ok_cases s h with ⟨_, -, -, -, rfl⟩ | ⟨p, regs, r, -, hl, hp, hf, e⟩
  · rw [State.regionWrite_haltFlag, hs] at ht
    cases ht
  · exact ⟨p, regs, r, hl, hp, hf, e⟩

/-- R90: the one peripheral of a default system is SimControl. -/
theorem peripheral_of_defaultConfig {q : Params} {p : Port} {regs : List PeriphReg}
    (hp : p ∈ (defaultConfig q).ports) (ht : p.target = .peripheral regs) :
    p.base = q.simctrlBase ∧ regs = simControl := by
  simp only [defaultConfig, defaultPorts, List.mem_cons, List.not_mem_nil, or_false] at hp
  rcases hp with rfl | rfl | rfl <;> cases ht
  exact ⟨rfl, rfl⟩

/-- R113: in a default system no read has a side effect. -/
theorem memRead_defaultConfig {q : Params} {s t : State} {access : Access} {a : Word} {n : Width} {v : Word}
    (hc : s.cfg = defaultConfig q) (h : memRead access a n s = .ok (v, t)) : t = s := by
  rcases memRead_cases s access a n with ⟨-, e⟩ | ⟨-, e⟩ | ⟨_, -, -, -, e⟩ | ⟨p, regs, r, -, hl, ht, hf, e⟩ <;>
    cases e.symm.trans h
  · rfl
  · obtain ⟨hp, -, -⟩ := Config.lookup_some hl
    obtain ⟨-, rfl⟩ := peripheral_of_defaultConfig (hc ▸ hp) ht
    obtain ⟨hr, -, -⟩ := findReg_some hf
    obtain rfl := List.mem_singleton.mp hr
    exact s.afterRead_of_none _ rfl

theorem fetch_defaultConfig {q : Params} {s t : State} {raw : Word} (hc : s.cfg = defaultConfig q)
    (h : fetch s = .ok (raw, t)) : t = s := by
  unfold fetch at h
  split at h
  · exact memRead_defaultConfig hc h
  · cases h

/-- R122 to R124: in a default system a bus write that sets the halt flag is a word write of a value with bit 0 set
to `CONTROL`. -/
theorem memWrite_sets_haltFlag_defaultConfig {q : Params} {s t : State} {a : Word} {n : Width} {v : Word}
    (hc : s.cfg = defaultConfig q) (h : memWrite a n v s = .ok t) (hs : s.haltFlag = false)
    (ht : t.haltFlag = true) : n = .word ∧ a.toNat = q.simctrlBase ∧ v.getLsbD 0 = true := by
  obtain ⟨p, regs, r, hl, hp, hf, rfl⟩ := memWrite_sets_haltFlag h hs ht
  obtain ⟨hmem, hle, -⟩ := Config.lookup_some hl
  obtain ⟨hbase, rfl⟩ := peripheral_of_defaultConfig (hc ▸ hmem) hp
  obtain ⟨hr, hoff, hwidth⟩ := findReg_some hf
  rw [s.periphWrite_simControl hr, State.writeControl, hs, Bool.false_or] at ht
  obtain rfl := List.mem_singleton.mp hr
  have hzero : a.toNat - p.base = 0 := hoff.symm
  exact ⟨hwidth.symm, by omega, ht⟩

/-- An instruction that sets the halt flag is a store whose bus write set it. -/
theorem exec_sets_haltFlag {s t : State} {i : Instr} (h : exec i s = .next t) (hs : s.haltFlag = false)
    (ht : t.haltFlag = true) : ∃ n rs1 rs2 imm u, storeOf? i = some (n, rs1, rs2, imm)
      ∧ memWrite (effectiveAddress s rs1 imm) n (s.readReg rs2) s = .ok u ∧ u.haltFlag = true := by
  rcases exec_cases s i with
    ⟨_, _, _, _, -, -, -, -, -, e⟩ | ⟨_, -, -, -, e⟩ | ⟨n, rs1, rs2, imm, u, -, hi, -, hw, e⟩ | ⟨_, -, e⟩ <;>
    cases e.symm.trans h
  · simp [hs] at ht
  · simp [hs] at ht
  · exact ⟨n, rs1, rs2, imm, u, hi, hw, ht⟩
  · simp [hs] at ht

/-- R213: the one store of width 4 is SW. -/
theorem eq_sw_of_storeOf? {i : Instr} {rs1 rs2 : RegIdx} {imm : Word}
    (h : storeOf? i = some (.word, rs1, rs2, imm)) : i = .sw rs1 rs2 imm := by
  cases i with
  | sw => cases h; rfl
  | _ => cases h

/-- Settles O39: the step fetched without effect and executed a store whose bus write set the flag. -/
theorem onlyControlStoreSetsTheHaltFlag : Obligations.OnlyControlStoreSetsTheHaltFlag := by
  intro q s t hc _ h hs ht
  by_cases hr : s.hartState = .running
  · rcases step_running_faults_or_polls hr with ⟨info, e⟩ | ⟨raw, f, i, u, hf, hd, hx, -, e⟩ <;>
      cases e.symm.trans h
    · exact absurd (hs.symm.trans ht) Bool.false_ne_true
    · obtain rfl := fetch_defaultConfig hc hf
      rw [State.pollHalt_haltFlag] at ht
      obtain ⟨n, rs1, rs2, imm, u, hi, hw, hu⟩ := exec_sets_haltFlag hx hs ht
      obtain ⟨rfl, ha, hbit⟩ := memWrite_sets_haltFlag_defaultConfig hc hw hs hu
      obtain rfl := eq_sw_of_storeOf? hi
      exact ⟨raw, rs1, rs2, imm, hf, hd, ha, hbit⟩
  · cases (step_terminal s hr).symm.trans h
    exact absurd (hs.symm.trans ht) Bool.false_ne_true

end Sys2Proof.Machine
end

section
/-! PROOF. No register is touched implicitly (spec 10_state.md R22). -/

namespace Sys2Proof.Machine

/-- An instruction writes no register but the one it names. -/
theorem exec_keeps_other_registers {s t : State} {i : Instr} {r : RegIdx} (h : exec i s = .next t)
    (hr : i.dest? ≠ some r) : t.readReg r = s.readReg r := by
  rcases exec_cases s i with
    ⟨rd, _, _, _, hd, -, -, -, -, e⟩ | ⟨_, -, -, -, e⟩ | ⟨_, _, _, _, u, -, -, -, hw, e⟩ | ⟨_, -, e⟩ <;>
    cases e.symm.trans h
  · have hne : r ≠ rd := fun heq => hr (heq ▸ hd)
    rw [State.readReg_setPc, State.readReg_writeReg_ne _ _ hne, State.readReg_locals]
  · simp
  · obtain ⟨hregs, -⟩ := memWrite_frame s hw
    rw [State.readReg_advance, State.readReg_congr hregs]
  · simp

variable (s : State) (rg : Vector Word 32)

/-- The instruction does the same from `s` and from `s` with the registers `rg`. Either it writes one value to its
destination, from states that differ in the registers at most; or what it leaves differs in the registers at most, and
it has no destination or took a fault. -/
abbrev AlikeUpToRegs (i : Instr) : Prop :=
  (∃ rd v npc u, i.dest? = some rd ∧ exec i s = .next ((State.writeReg u rd v).setPc npc)
      ∧ exec i { s with regs := rg } = .next ((State.writeReg { u with regs := rg } rd v).setPc npc))
  ∨ ∃ t, (i.dest? = none ∨ t.hartState = .faulted) ∧ exec i s = .next t
      ∧ exec i { s with regs := rg } = .next { t with regs := rg }

/-- An instruction that writes a register and advances, the value being the same from either state. -/
theorem alikeUpToRegs_of_retire {i : Instr} {rd : RegIdx} {f : State → Word} (hd : i.dest? = some rd)
    (he : ∀ m, exec i m = .next (m.writeReg rd (f m)).advance) (hf : f s = f { s with regs := rg }) :
    AlikeUpToRegs s rg i := by
  refine .inl ⟨rd, f s, s.pc + 4#32, s, hd, ?_, ?_⟩
  · rw [he, State.writeReg_advance]
  · rw [he, State.writeReg_advance, hf]

theorem alikeUpToRegs_of_load {i : Instr} {n : Width} {e : LoadExt} {rd rs1 : RegIdx} {imm : Word}
    (hd : i.dest? = some rd) (he : ∀ m, exec i m = loadFrom n e rd rs1 imm m)
    (h1 : s.readReg rs1 = State.readReg { s with regs := rg } rs1) : AlikeUpToRegs s rg i := by
  have hread := memRead_regs s .load (effectiveAddress s rs1 imm) n rg
  have hea : effectiveAddress { s with regs := rg } rs1 imm = effectiveAddress s rs1 imm := by
    rw [effectiveAddress, ← h1, effectiveAddress]
  cases hm : memRead .load (effectiveAddress s rs1 imm) n s with
  | ok r =>
    obtain ⟨v, u⟩ := r
    rw [hm] at hread
    refine .inl ⟨rd, e.apply v, u.pc + 4#32, u, hd, ?_, ?_⟩
    · rw [he, ← State.writeReg_advance, loadFrom, hm]
    · rw [he, loadFrom, hea, hread]
      exact congrArg _ (State.writeReg_advance _ _ _)
  | error info =>
    rw [hm] at hread
    refine .inr ⟨s.enterFault info, .inr rfl, ?_, ?_⟩
    · rw [he, loadFrom, hm]
    · rw [he, loadFrom, hea, hread]
      rfl

theorem alikeUpToRegs_of_store {i : Instr} {n : Width} {rs1 rs2 : RegIdx} {imm : Word} (hd : i.dest? = none)
    (he : ∀ m, exec i m = storeTo n rs1 rs2 imm m)
    (h1 : s.readReg rs1 = State.readReg { s with regs := rg } rs1)
    (h2 : s.readReg rs2 = State.readReg { s with regs := rg } rs2) : AlikeUpToRegs s rg i := by
  have hwrite := memWrite_regs s (effectiveAddress s rs1 imm) n (s.readReg rs2) rg
  have hea : effectiveAddress { s with regs := rg } rs1 imm = effectiveAddress s rs1 imm := by
    rw [effectiveAddress, ← h1, effectiveAddress]
  cases hm : memWrite (effectiveAddress s rs1 imm) n (s.readReg rs2) s with
  | ok u =>
    rw [hm] at hwrite
    refine .inr ⟨u.advance, .inl hd, ?_, ?_⟩
    · rw [he, storeTo, hm]
    · rw [he, storeTo, hea, ← h2, hwrite]
      rfl
  | error info =>
    rw [hm] at hwrite
    refine .inr ⟨s.enterFault info, .inl hd, ?_, ?_⟩
    · rw [he, storeTo, hm]
    · rw [he, storeTo, hea, ← h2, hwrite]
      rfl

theorem alikeUpToRegs_of_branch {i : Instr} {c : Cond} {rs1 rs2 : RegIdx} {imm : Word} (hd : i.dest? = none)
    (hb : branchOf? i = some (c, rs1, rs2, imm))
    (h1 : s.readReg rs1 = State.readReg { s with regs := rg } rs1)
    (h2 : s.readReg rs2 = State.readReg { s with regs := rg } rs2) : AlikeUpToRegs s rg i := by
  refine .inr ⟨_, .inl hd, (exec_of_branchOf? s hb).trans (branchOn_cases s c rs1 rs2 imm), ?_⟩
  rw [exec_of_branchOf? _ hb, branchOn_cases, ← h1, ← h2]
  rfl

/-- R22: an instruction reads no register but those its source fields name. -/
theorem exec_alikeUpToRegs (i : Instr)
    (h : ∀ r, i.src1? = some r ∨ i.src2? = some r → s.readReg r = State.readReg { s with regs := rg } r) :
    AlikeUpToRegs s rg i := by
  cases i with
  | lui | auipc => exact alikeUpToRegs_of_retire s rg rfl (fun _ => rfl) rfl
  | jal rd imm => exact .inl ⟨rd, _, _, s, rfl, rfl, rfl⟩
  | jalr rd rs1 imm =>
    refine .inl ⟨rd, linkValue s, jalrTarget s rs1 imm, s, rfl, rfl, ?_⟩
    rw [jalrTarget, h rs1 (.inl rfl)]
    rfl
  | beq | bne | blt | bge | bltu | bgeu =>
    exact alikeUpToRegs_of_branch s rg rfl rfl (h _ (.inl rfl)) (h _ (.inr rfl))
  | lb => exact alikeUpToRegs_of_load s rg (e := .sext8) rfl (fun _ => rfl) (h _ (.inl rfl))
  | lh => exact alikeUpToRegs_of_load s rg (e := .sext16) rfl (fun _ => rfl) (h _ (.inl rfl))
  | lw => exact alikeUpToRegs_of_load s rg (e := .copy) rfl (fun _ => rfl) (h _ (.inl rfl))
  | lbu => exact alikeUpToRegs_of_load s rg (e := .zext8) rfl (fun _ => rfl) (h _ (.inl rfl))
  | lhu => exact alikeUpToRegs_of_load s rg (e := .zext16) rfl (fun _ => rfl) (h _ (.inl rfl))
  | sb | sh | sw => exact alikeUpToRegs_of_store s rg rfl (fun _ => rfl) (h _ (.inl rfl)) (h _ (.inr rfl))
  | add _ rs1 rs2 | sub _ rs1 rs2 | sll _ rs1 rs2 | slt _ rs1 rs2 | sltu _ rs1 rs2 | xor _ rs1 rs2 | srl _ rs1 rs2
  | sra _ rs1 rs2 | or _ rs1 rs2 | and _ rs1 rs2 =>
    refine alikeUpToRegs_of_retire s rg rfl (fun _ => rfl) ?_
    rw [h rs1 (.inl rfl), h rs2 (.inr rfl)]
  | addi _ rs1 | slti _ rs1 | sltiu _ rs1 | xori _ rs1 | ori _ rs1 | andi _ rs1 | slli _ rs1 | srli _ rs1
  | srai _ rs1 =>
    refine alikeUpToRegs_of_retire s rg rfl (fun _ => rfl) ?_
    rw [h rs1 (.inl rfl)]

/-- With other registers put in, a register write leaves a state that differs in the registers at most. -/
theorem State.writeReg_setPc_regs (rd : RegIdx) (v npc : Word) :
    (State.writeReg { s with regs := rg } rd v).setPc npc
      = { (s.writeReg rd v).setPc npc with regs := (State.writeReg { s with regs := rg } rd v).regs } := by
  unfold State.writeReg
  split <;> rfl

/-- Settles O60: an instruction changes no register but its destination, and from states that agree on its sources it
does the same. -/
theorem onlyTheNamedRegistersAreTouched : Obligations.OnlyTheNamedRegistersAreTouched := by
  refine ⟨fun i s t r h hr => exec_keeps_other_registers h hr, fun i s1 s2 t1 t2 hs hsrc h1 h2 => ?_⟩
  rw [hs] at hsrc h2
  rcases exec_alikeUpToRegs s1 s2.regs i hsrc with ⟨rd, v, npc, u, hd, e1, e2⟩ | ⟨t, hnone, e1, e2⟩ <;>
    cases e1.symm.trans h1 <;> cases e2.symm.trans h2
  · refine ⟨State.writeReg_setPc_regs u s2.regs rd v npc, fun rd' hd' _ _ => ?_⟩
    obtain rfl := Option.some.inj (hd.symm.trans hd')
    simp only [State.readReg_setPc, State.readReg_writeReg_same]
  · refine ⟨rfl, fun rd hd _ hrun => ?_⟩
    rcases hnone with hno | hfault
    · cases hno.symm.trans hd
    · cases hfault.symm.trans hrun

end Sys2Proof.Machine
end

section
/-! PROOF. The legal and the illegal words (spec 30_encoding.md R156 to R162). -/

namespace Sys2Proof

variable {w : Word}

/-! ### Words without an instruction -/

/-- R160 to R162 as a condition on the numbers in a word's opcode, funct3 and funct7 fields: no instruction. -/
abbrev IllegalFields (op f3 f7 : Nat) : Prop :=
  op ∉ [0x37, 0x17, 0x6F, 0x67, 0x63, 0x03, 0x23, 0x13, 0x33]
  ∨ (op = 0x67 ∧ f3 ≠ 0)
  ∨ (op = 0x63 ∧ f3 ∈ [2, 3])
  ∨ (op = 0x03 ∧ f3 ∈ [3, 6, 7])
  ∨ (op = 0x23 ∧ f3 ∈ [3, 4, 5, 6, 7])
  ∨ (op = 0x13 ∧ f3 = 1 ∧ f7 ≠ 0)
  ∨ (op = 0x13 ∧ f3 = 5 ∧ f7 ≠ 0 ∧ f7 ≠ 0x20)
  ∨ (op = 0x33 ∧ f7 ≠ 0 ∧ ¬ (f7 = 0x20 ∧ f3 ∈ [0, 5]))

theorem decodeJalr_error_iff (w : Word) :
    (∃ why, decodeJalr w = .error why) ↔ (funct3Of w).toNat ≠ 0 := by
  rcases funct3_cases (funct3Of w) with h | h | h | h | h | h | h | h <;> simp [decodeJalr, h]

theorem decodeBranch_error_iff (w : Word) :
    (∃ why, decodeBranch w = .error why) ↔ (funct3Of w).toNat ∈ [2, 3] := by
  rcases funct3_cases (funct3Of w) with h | h | h | h | h | h | h | h <;> simp [decodeBranch, h]

theorem decodeLoad_error_iff (w : Word) :
    (∃ why, decodeLoad w = .error why) ↔ (funct3Of w).toNat ∈ [3, 6, 7] := by
  rcases funct3_cases (funct3Of w) with h | h | h | h | h | h | h | h <;> simp [decodeLoad, h]

theorem decodeStore_error_iff (w : Word) :
    (∃ why, decodeStore w = .error why) ↔ (funct3Of w).toNat ∈ [3, 4, 5, 6, 7] := by
  rcases funct3_cases (funct3Of w) with h | h | h | h | h | h | h | h <;> simp [decodeStore, h]

theorem decodeOpImm_error_iff (w : Word) : (∃ why, decodeOpImm w = .error why)
    ↔ ((funct3Of w).toNat = 1 ∧ (funct7Of w).toNat ≠ 0)
      ∨ ((funct3Of w).toNat = 5 ∧ (funct7Of w).toNat ≠ 0 ∧ (funct7Of w).toNat ≠ 0x20) := by
  have h0 : (funct7Of w).toNat = 0 ↔ funct7Of w = 0b0000000#7 := BitVec.toNat_inj (y := 0b0000000#7)
  have h32 : (funct7Of w).toNat = 0x20 ↔ funct7Of w = 0b0100000#7 := BitVec.toNat_inj (y := 0b0100000#7)
  rw [ne_eq, ne_eq, h0, h32]
  rcases funct3_cases (funct3Of w) with h | h | h | h | h | h | h | h
  case inr.inl =>
    rw [decodeOpImm_funct3_001 h]
    split <;> simp [*]
  case inr.inr.inr.inr.inr.inl =>
    rw [decodeOpImm_funct3_101 h]
    repeat' split
    all_goals simp [*]
  all_goals simp [decodeOpImm, h]

theorem decodeOp_error_iff (w : Word) : (∃ why, decodeOp w = .error why)
    ↔ (funct7Of w).toNat ≠ 0 ∧ ¬ ((funct7Of w).toNat = 0x20 ∧ (funct3Of w).toNat ∈ [0, 5]) := by
  have h0 : (funct7Of w).toNat = 0 ↔ funct7Of w = 0b0000000#7 := BitVec.toNat_inj (y := 0b0000000#7)
  have h32 : (funct7Of w).toNat = 0x20 ↔ funct7Of w = 0b0100000#7 := BitVec.toNat_inj (y := 0b0100000#7)
  rw [ne_eq, h0, h32]
  unfold decodeOp
  split
  · rename_i h7
    rcases funct3_cases (funct3Of w) with h | h | h | h | h | h | h | h <;> simp [h, h7]
  · split
    · rcases funct3_cases (funct3Of w) with h | h | h | h | h | h | h | h <;> simp [*]
    · simp [*]

/-- R157: an unknown opcode decides by itself; under a known one the opcode's own decoder does. -/
theorem decode_error_iff (w : Word) : (∃ why, decode w = .error why)
    ↔ IllegalFields (opcodeOf w).toNat (funct3Of w).toNat (funct7Of w).toNat := by
  unfold decode
  split
  case h_1 h | h_2 h | h_3 h => simp [IllegalFields, h]
  case h_4 h => simpa [IllegalFields, h] using decodeJalr_error_iff w
  case h_5 h => simpa [IllegalFields, h] using decodeBranch_error_iff w
  case h_6 h => simpa [IllegalFields, h] using decodeLoad_error_iff w
  case h_7 h => simpa [IllegalFields, h] using decodeStore_error_iff w
  case h_8 h => simpa [IllegalFields, h] using decodeOpImm_error_iff w
  case h_9 h => simpa [IllegalFields, h] using decodeOp_error_iff w
  case h_10 h1 h2 h3 h4 h5 h6 h7 h8 h9 =>
    refine iff_of_true ⟨_, rfl⟩ (.inl fun hmem => ?_)
    simp only [List.mem_cons, List.not_mem_nil, or_false] at hmem
    rcases hmem with h | h | h | h | h | h | h | h | h
    exacts [h1 (BitVec.eq_of_toNat_eq h), h2 (BitVec.eq_of_toNat_eq h), h3 (BitVec.eq_of_toNat_eq h),
      h4 (BitVec.eq_of_toNat_eq h), h5 (BitVec.eq_of_toNat_eq h), h6 (BitVec.eq_of_toNat_eq h),
      h7 (BitVec.eq_of_toNat_eq h), h8 (BitVec.eq_of_toNat_eq h), h9 (BitVec.eq_of_toNat_eq h)]

/-- Settles O4: the fields as numbers. -/
theorem illegalWordsAreExactly : Obligations.IllegalWordsAreExactly := by
  intro w
  have h7 : w.toNat / 33554432 = (funct7Of w).toNat := by
    rw [funct7Of_toNat]
    omega
  simp only [h7]
  rw [decode_error_iff, opcodeOf_toNat, funct3Of_toNat]
  exact Iff.rfl

/-- A word whose fields are not illegal decodes to an instruction. -/
theorem decode_ok_of_fields (h : ¬ IllegalFields (opcodeOf w).toNat (funct3Of w).toNat (funct7Of w).toNat) :
    ∃ i, decode w = .ok i := by
  cases hd : decode w with
  | ok i => exact ⟨i, rfl⟩
  | error why => exact absurd ((decode_error_iff w).mp ⟨why, hd⟩) h

/-! ### The opcode table -/

/-- R158: the table has a row for every instruction. -/
theorem encoding_statement : ∀ i : Instr, Laws.Encoding.Statement i
  | .lui .. => Laws.Encoding.lui ..
  | .auipc .. => Laws.Encoding.auipc ..
  | .jal .. => Laws.Encoding.jal ..
  | .jalr .. => Laws.Encoding.jalr ..
  | .beq .. => Laws.Encoding.beq ..
  | .bne .. => Laws.Encoding.bne ..
  | .blt .. => Laws.Encoding.blt ..
  | .bge .. => Laws.Encoding.bge ..
  | .bltu .. => Laws.Encoding.bltu ..
  | .bgeu .. => Laws.Encoding.bgeu ..
  | .lb .. => Laws.Encoding.lb ..
  | .lh .. => Laws.Encoding.lh ..
  | .lw .. => Laws.Encoding.lw ..
  | .lbu .. => Laws.Encoding.lbu ..
  | .lhu .. => Laws.Encoding.lhu ..
  | .sb .. => Laws.Encoding.sb ..
  | .sh .. => Laws.Encoding.sh ..
  | .sw .. => Laws.Encoding.sw ..
  | .addi .. => Laws.Encoding.addi ..
  | .slti .. => Laws.Encoding.slti ..
  | .sltiu .. => Laws.Encoding.sltiu ..
  | .xori .. => Laws.Encoding.xori ..
  | .ori .. => Laws.Encoding.ori ..
  | .andi .. => Laws.Encoding.andi ..
  | .slli .. => Laws.Encoding.slli ..
  | .srli .. => Laws.Encoding.srli ..
  | .srai .. => Laws.Encoding.srai ..
  | .add .. => Laws.Encoding.add ..
  | .sub .. => Laws.Encoding.sub ..
  | .sll .. => Laws.Encoding.sll ..
  | .slt .. => Laws.Encoding.slt ..
  | .sltu .. => Laws.Encoding.sltu ..
  | .xor .. => Laws.Encoding.xor ..
  | .srl .. => Laws.Encoding.srl ..
  | .sra .. => Laws.Encoding.sra ..
  | .or .. => Laws.Encoding.or ..
  | .and .. => Laws.Encoding.and ..

/-- The row of a legal word: that of its instruction, whose encoding the word is. -/
theorem row_of_decode {i : Instr} (h : decode w = .ok i) :
    ∃ r ∈ opcodeTable, r.mnemonic = i.mnemonic ∧ r.format = i.format ∧ r.selects w = true := by
  obtain ⟨rfl, -⟩ := encodes_of_decode h
  exact encoding_statement i

/-- No two rows of the table agree on the bits that both fix. -/
theorem opcodeTable_disjoint : opcodeTable.Pairwise fun r q => r.fixed &&& q.mask ≠ q.fixed &&& r.mask := by
  decide

/-- A word that two rows select has the bits of each, so on those that both fix the rows agree. -/
theorem fixed_agree_of_selects {r q : OpcodeRow} (hr : r.selects w = true) (hq : q.selects w = true) :
    r.fixed &&& q.mask = q.fixed &&& r.mask := by
  simp only [OpcodeRow.selects, decide_eq_true_eq] at hr hq
  rw [← hr, ← hq, BitVec.and_assoc, BitVec.and_assoc, BitVec.and_comm r.mask]

theorem row_unique {r q : OpcodeRow} (hr : r ∈ opcodeTable) (hq : q ∈ opcodeTable) (hrw : r.selects w = true)
    (hqw : q.selects w = true) : r = q := by
  rcases Machine.eq_or_of_pairwise opcodeTable_disjoint hr hq with h | h | h
  · exact h
  · exact absurd (fixed_agree_of_selects hrw hqw) h
  · exact absurd (fixed_agree_of_selects hqw hrw) h

/-- A selected word has the row's bits in each field, where the row fixes them. -/
theorem fields_of_selects {r : OpcodeRow} (h : r.selects w = true) :
    opcodeOf w &&& opcodeOf r.mask = opcodeOf r.fixed ∧ funct3Of w &&& funct3Of r.mask = funct3Of r.fixed
      ∧ funct7Of w &&& funct7Of r.mask = funct7Of r.fixed := by
  simp only [OpcodeRow.selects, decide_eq_true_eq] at h
  simp only [← h, opcodeOf, funct3Of, funct7Of, BitVec.extractLsb'_and, true_and]

/-- R160: LUI, AUIPC and JAL have neither funct3 nor funct7. -/
theorem not_illegalFields_of_opcode {op : Nat} (h : op ∈ [0x37, 0x17, 0x6F]) (f3 f7 : Nat) :
    ¬ IllegalFields op f3 f7 := by
  simp only [List.mem_cons, List.not_mem_nil, or_false] at h
  rcases h with rfl | rfl | rfl <;> simp [IllegalFields]

/-- R161, R162: only OP and the immediate shifts have a funct7. -/
abbrev NoFunct7 (op f3 : Nat) : Prop := op ≠ 0x33 ∧ (op = 0x13 → f3 ≠ 1 ∧ f3 ≠ 5)

theorem illegalFields_iff_of_noFunct7 {op f3 : Nat} (h : NoFunct7 op f3) (f7 f7' : Nat) :
    IllegalFields op f3 f7 ↔ IllegalFields op f3 f7' := by
  obtain ⟨hop, himm⟩ := h
  by_cases h13 : op = 0x13
  · simp [IllegalFields, h13, himm h13]
  · simp [IllegalFields, h13, hop]

/-- R158: each row fixes the opcode, the opcode and funct3, or these and funct7. -/
theorem opcodeTable_masks :
    ∀ r ∈ opcodeTable, r.mask = 0x0000007F#32 ∨ r.mask = 0x0000707F#32 ∨ r.mask = 0xFE00707F#32 := by
  decide

/-- A row that does not fix funct3 is that of an opcode without one. -/
theorem opcodeTable_of_opcodeMask :
    ∀ r ∈ opcodeTable, r.mask = 0x0000007F#32 → (opcodeOf r.fixed).toNat ∈ [0x37, 0x17, 0x6F] := by
  decide

/-- A row that does not fix funct7 is that of an instruction without one. -/
theorem opcodeTable_of_funct3Mask : ∀ r ∈ opcodeTable, r.mask = 0x0000707F#32 →
    NoFunct7 (opcodeOf r.fixed).toNat (funct3Of r.fixed).toNat := by
  decide

/-- The bits a row fixes are legal, with every other bit 0. -/
theorem opcodeTable_fixed_legal : ∀ r ∈ opcodeTable,
    ¬ IllegalFields (opcodeOf r.fixed).toNat (funct3Of r.fixed).toNat (funct7Of r.fixed).toNat := by
  decide

/-- No word that a row selects is illegal: it has the row's bits where they decide. -/
theorem legal_of_selects {r : OpcodeRow} (hr : r ∈ opcodeTable) (h : r.selects w = true) :
    ¬ IllegalFields (opcodeOf w).toNat (funct3Of w).toNat (funct7Of w).toNat := by
  have hfixed := opcodeTable_fixed_legal r hr
  obtain ⟨hop, h3, h7⟩ := fields_of_selects h
  rcases opcodeTable_masks r hr with hm | hm | hm <;> rw [hm] at hop h3 h7 <;>
    have hop : opcodeOf w = opcodeOf r.fixed := BitVec.and_allOnes.symm.trans hop
  · rw [hop]
    exact not_illegalFields_of_opcode (opcodeTable_of_opcodeMask r hr hm) _ _
  · have h3 : funct3Of w = funct3Of r.fixed := BitVec.and_allOnes.symm.trans h3
    rw [hop, h3, illegalFields_iff_of_noFunct7 (opcodeTable_of_funct3Mask r hr hm)]
    exact hfixed
  · have h3 : funct3Of w = funct3Of r.fixed := BitVec.and_allOnes.symm.trans h3
    have h7 : funct7Of w = funct7Of r.fixed := BitVec.and_allOnes.symm.trans h7
    rw [hop, h3, h7]
    exact hfixed

/-- Settles O3: a legal word is the encoding of its instruction, which that instruction's row selects; a selected word
is legal; and no two rows select one word. -/
theorem decoderFollowsOpcodeTable : Obligations.DecoderFollowsOpcodeTable := by
  intro w
  refine ⟨fun i h => ?_, fun r hr hw => ?_, fun r hr q hq hrw hqw => row_unique hr hq hrw hqw⟩
  · obtain ⟨r, hr, hname, -, hw⟩ := row_of_decode h
    exact ⟨r, hr, hw, hname⟩
  · obtain ⟨i, hi⟩ := decode_ok_of_fields (legal_of_selects hr hw)
    obtain ⟨q, hq, hname, hformat, hqw⟩ := row_of_decode hi
    obtain rfl := row_unique hr hq hw hqw
    exact ⟨i, hi, hname.symm, hformat.symm⟩

/-! ### Words of one opcode, and words written out -/

/-- Opcode `0110011` is OP (R158). -/
theorem decode_eq_decodeOp (h : opcodeOf w = 0b0110011#7) : decode w = decodeOp w := by
  simp only [decode, h]

/-- R162: funct7 `0000000` is legal with every funct3. -/
theorem decodeOp_funct7_zero (h7 : funct7Of w = 0b0000000#7) : ∃ i, decodeOp w = .ok i := by
  rcases funct3_cases (funct3Of w) with h3 | h3 | h3 | h3 | h3 | h3 | h3 | h3 <;> simp [decodeOp, h7, h3]

/-- R162: funct7 `0100000` is SUB or SRA, by funct3, or illegal. -/
theorem decodeOp_funct7_alt (h7 : funct7Of w = 0b0100000#7) : decodeOp w
    = if funct3Of w = 0b000#3 then .ok (.sub (rdOf w) (rs1Of w) (rs2Of w))
      else if funct3Of w = 0b101#3 then .ok (.sra (rdOf w) (rs1Of w) (rs2Of w))
      else .error .opFunct7 := by
  rcases funct3_cases (funct3Of w) with h3 | h3 | h3 | h3 | h3 | h3 | h3 | h3 <;> simp [decodeOp, h7, h3]

/-- Settles O6: under OP the decoder looks at funct7, then at funct3. -/
theorem registerWordsNeedTheirFunct7 : Obligations.RegisterWordsNeedTheirFunct7 := by
  intro w hop
  rw [decode_eq_decodeOp hop]
  refine ⟨fun h7 => decodeOp_funct7_zero h7, fun h7 h3 => ?_, fun h7 h3 => ?_, fun h7 h3 h3' => ?_, fun h0 h32 => ?_⟩
  · exact (decodeOp_funct7_alt h7).trans (if_pos h3)
  · have hne : funct3Of w ≠ 0b000#3 := ne_of_eq_of_ne h3 (by decide)
    exact (decodeOp_funct7_alt h7).trans ((if_neg hne).trans (if_pos h3))
  · exact (decodeOp_funct7_alt h7).trans ((if_neg h3).trans (if_neg h3'))
  · exact (if_neg h0).trans (if_neg h32)

/-- Settles O9: the decoder evaluated at each word. -/
theorem decodesTheSpecsWords : Obligations.DecodesTheSpecsWords :=
  ⟨rfl, rfl, rfl, rfl, rfl, rfl, rfl, rfl, rfl, rfl⟩

end Sys2Proof
end

section
/-! PROOF. Fetch, decode and the end of a step (spec 15_datapath.md R40, R41, R51, R57; 60_exceptions.md). -/

namespace Sys2Proof.Machine

/-- R56: the halt poll as one condition. -/
theorem State.pollHalt_eq_ite (s : State) :
    s.pollHalt = if s.hartState = .running ∧ s.haltFlag = true then { s with hartState := .halted } else s := by
  rcases s.pollHalt_cases with ⟨hr, hf, e⟩ | ⟨hn, e⟩
  · rw [e, if_pos ⟨hr, hf⟩]
  · rw [e, if_neg hn]

/-- Settles O10: the step of a hart ready to fetch, with the poll written out. -/
theorem stepRunsDecodedInstruction : Obligations.StepRunsDecodedInstruction := by
  intro s t i h hd hx
  rw [step_of_ready h hd hx, State.pollHalt_eq_ite]

/-! ### Faults of the fetch and decode stages -/

/-- R41: the pc is tested before any bus access. -/
theorem fetch_misaligned {s : State} (h : s.pc.toNat % 4 ≠ 0) : fetch s = .error .misalignedFetch :=
  if_neg (mt (aligned_iff s.pc .word).mp h)

theorem fetch_unmapped {s : State} (h : s.pc.toNat % 4 = 0) (hu : Unmapped s s.pc.toNat .word) :
    fetch s = .error (.unmappedAccess s.pc .word .fetch) := by
  rw [fetch, if_pos ((aligned_iff s.pc .word).mpr h), memRead_unmapped s .fetch h hu]

/-- A running hart whose fetch raises takes the fault. -/
theorem step_of_fetch_error {s : State} {info : FaultInfo} (hs : s.hartState = .running)
    (h : fetch s = .error info) : step s = .next (s.enterFault info) := by
  rcases step_running_cases s hs with
    ⟨_, hf, e⟩ | ⟨_, _, _, hf, -, -⟩ | ⟨_, _, _, _, hf, -, -, -⟩ | ⟨_, _, _, _, hf, -, -, -, -⟩ <;>
    cases hf.symm.trans h
  exact e

/-- A hart ready to fetch whose word is illegal takes the fault, with the word in its record. -/
theorem step_of_ready_illegal {s : State} {why : IllegalReason} (h : ReadyToFetch s)
    (hd : decode (wordAtPc s) = .error why) : step s = .next (s.enterFault (.illegalInstruction (wordAtPc s))) := by
  have hfetch := fetch_of_ready h
  rcases step_running_cases s h.1 with
    ⟨_, hf, -⟩ | ⟨_, _, _, hf, -, e⟩ | ⟨_, _, _, _, hf, hd', -, -⟩ | ⟨_, _, _, _, hf, hd', -, -, -⟩ <;>
    cases hf.symm.trans hfetch
  · exact e
  · cases hd'.symm.trans hd
  · cases hd'.symm.trans hd

/-- Settles O11: a fetch from a memory region reads the word at the pc, whose number is the sum of its bytes. -/
theorem fetchReadsLittleEndianWord : Obligations.FetchReadsLittleEndianWord :=
  fun _ => ⟨fun h => ⟨_, fetch_of_ready h, wordOfBytes_toNat ..⟩, fun h => fetch_misaligned h⟩

/-- Settles O12: the fetch raises the first two; a word that no row selects does not decode. -/
theorem fetchAndDecodeFaults : Obligations.FetchAndDecodeFaults := by
  intro s hs
  refine ⟨fun h => ?_, fun h hu => ?_, fun h hrow => ?_⟩
  · exact ⟨_, step_of_fetch_error hs (fetch_misaligned h), faultsWith_enterFault s _⟩
  · exact ⟨_, step_of_fetch_error hs (fetch_unmapped h hu), faultsWith_enterFault s _⟩
  · cases hd : decode (wordAtPc s) with
    | ok i =>
      obtain ⟨r, hr, -, -, hw⟩ := row_of_decode hd
      exact absurd (hrow r hr) (by simp [hw])
    | error why => exact ⟨_, step_of_ready_illegal h hd, faultsWith_enterFault s _⟩

/-- Settles O13: neither opcode is one of the nine. -/
theorem fenceAndSystemWordsFault : Obligations.FenceAndSystemWordsFault := by
  intro s h hop
  have hmem : (opcodeOf (wordAtPc s)).toNat ∉ [0x37, 0x17, 0x6F, 0x67, 0x63, 0x03, 0x23, 0x13, 0x33] := by
    rcases hop with hop | hop
    · rw [(and_opcodeMask_iff _ 0x0F#7).mp hop]
      decide
    · rw [(and_opcodeMask_iff _ 0x73#7).mp hop]
      decide
  obtain ⟨why, hd⟩ := (decode_error_iff _).mpr (.inl hmem)
  exact ⟨_, step_of_ready_illegal h hd, faultsWith_enterFault s _⟩

/-! ### Runs -/

/-- Settles O15: by induction on the number of steps, each of which gives the state back. -/
theorem terminalStatesAreStable : Obligations.TerminalStatesAreStable := by
  intro s k hs
  induction k with
  | zero => rfl
  | succ k ih => rw [core_run_succ (step_terminal s hs), ih]

/-- Settles O16: by induction on the number of steps, each of which answers a next state. -/
theorem everyStepAnswersNext : Obligations.EveryStepAnswersNext := by
  refine ⟨fun i s => exec_next s i, fun s k => ?_⟩
  induction k generalizing s with
  | zero => exact ⟨s, rfl⟩
  | succ k ih =>
    obtain ⟨u, hu⟩ := step_next s
    obtain ⟨t, ht⟩ := ih u
    exact ⟨t, (core_run_succ hu k).trans ht⟩

/-- In a terminal state `run` stops at once. -/
theorem run_terminal {s : State} (h : s.hartState ≠ .running) (k : Nat) : run k s = .next s := by
  cases k with
  | zero => rfl
  | succ k =>
    unfold run
    split
    · rfl
    · rfl
    · exact absurd ‹s.hartState = .running› h

theorem run_succ_running {s t : State} (hs : s.hartState = .running) (h : step s = .next t) (k : Nat) :
    run (k + 1) s = run k t := by
  simp only [run, hs, h]

/-- Settles O18: by induction on the bound. A running hart takes the same step; in a terminal state `run` stops and the
machine stands still. -/
theorem runIsRepeatedStep : Obligations.RunIsRepeatedStep := by
  intro k
  induction k with
  | zero => exact fun _ => rfl
  | succ k ih =>
    intro s
    by_cases hs : s.hartState = .running
    · obtain ⟨t, ht⟩ := step_next s
      rw [run_succ_running hs ht, core_run_succ ht, ih]
    · exact (run_terminal hs _).trans (terminalStatesAreStable s _ hs).symm

/-! ### A misaligned target -/

/-- R24: adding 4 keeps a pc aligned, also where it wraps. -/
theorem toNat_add_four_mod (a : Word) : (a + 4#32).toNat % 4 = a.toNat % 4 := by
  rw [BitVec.toNat_add, BitVec.toNat_ofNat]
  omega

theorem State.pollHalt_eq_self_of_running {s : State} (h : s.pollHalt.hartState = .running) : s.pollHalt = s := by
  rcases s.pollHalt_cases with ⟨-, -, e⟩ | ⟨-, e⟩
  · rw [e] at h
    cases h
  · exact e

/-- Settles O47: an instruction that is no transfer goes on at `pc + 4`, which is aligned where the pc was; and the
next fetch tests the pc. -/
theorem misalignedTargetFaultsOneStepLater : Obligations.MisalignedTargetFaultsOneStepLater := by
  intro s t hs ha h ht hmis
  refine ⟨?_, _, step_of_fetch_error ht (fetch_misaligned hmis), faultsWith_enterFault t _⟩
  rcases step_running_faults_or_polls hs with ⟨_, e⟩ | ⟨raw, f, i, u, hf, hd, hx, hu, e⟩ <;> cases e.symm.trans h
  · cases ht
  · rw [State.pollHalt_eq_self_of_running ht] at hmis ⊢
    refine ⟨raw, f, i, hf, hd, ?_, hx⟩
    by_contra hi
    rcases exec_sequencing hx with ⟨_, rfl⟩ | ⟨-, hpc, -⟩
    · cases hu
    · have hfpc : f.pc = s.pc := by rw [(fetch_frame s hf).1]
      rw [hpc (by simpa using hi), hfpc, toNat_add_four_mod] at hmis
      exact hmis ha

end Sys2Proof.Machine
end

section
/-! PROOF. Setup and reset (spec 20_memory.md R71, R72; 60_exceptions.md R275; 70_reset_and_hazards.md). -/

namespace Sys2Proof.Machine

/-! ### Attaching ports -/

/-- R71: two ports of positive size overlap exactly if they share a byte. -/
theorem portsOverlap_iff_share {p q : Port} (hp : 0 < p.size) (hq : 0 < q.size) : portsOverlap p q = true
    ↔ ∃ a, p.base ≤ a ∧ a < p.base + p.size ∧ q.base ≤ a ∧ a < q.base + q.size := by
  rw [portsOverlap_iff]
  refine ⟨fun h => ⟨max p.base q.base, by omega⟩, ?_⟩
  rintro ⟨a, h1, h2, h3, h4⟩
  omega

/-- Settles O25: the three answers of `attach`, each with its condition on the bytes. -/
theorem attachRefusesBadPorts : Obligations.AttachRefusesBadPorts := by
  intro ports p
  have hsize := portSizeOk_iff p
  rcases attach_cases ports p with ⟨hbad, e⟩ | ⟨hok, ⟨q, hq, hover⟩, e⟩ | ⟨hok, hfree, e⟩
  · rw [hbad] at hsize
    exact ⟨fun _ => e, fun h1 h2 => absurd (hsize.mpr ⟨h1, h2⟩) Bool.false_ne_true⟩
  · obtain ⟨hpos, hend⟩ := hsize.mp hok
    refine ⟨fun h => by omega, fun _ _ => ⟨fun _ => e, fun hnone => ?_⟩⟩
    obtain ⟨hqpos, hno⟩ := hnone q hq
    exact absurd ((portsOverlap_iff_share hpos hqpos).mp hover) hno
  · obtain ⟨hpos, hend⟩ := hsize.mp hok
    refine ⟨fun h => by omega, fun _ _ => ⟨?_, fun _ => ⟨_, e, fun q => mem_insertPort⟩⟩⟩
    rintro ⟨q, hq, a, hshare⟩
    have hqpos : 0 < q.size := by omega
    exact absurd ((portsOverlap_iff_share hpos hqpos).mpr ⟨a, hshare⟩) (by simp [hfree q hq])

/-! ### The reset state -/

theorem resetWith_canonical (c : Config) : (State.resetWith c).Canonical :=
  ⟨Memory.wf_overlay _ Cells.wf_nil, Cells.wf_nil, Cells.wf_nil, by simp [State.resetWith]⟩

theorem resetWith_sequencerAgrees (c : Config) : (State.resetWith c).SequencerAgrees :=
  ⟨by simp [State.resetWith], by simp [State.resetWith], by simp [State.resetWith]⟩

/-- R306: where every image byte lies in a memory region, so does every byte after reset; there is no storage. -/
theorem resetWith_contained {c : Config} (h : imageOk c.ports c.initImage = true) :
    (State.resetWith c).Contained := by
  refine ⟨fun b hb => ?_, fun b hb => absurd hb List.not_mem_nil⟩
  rcases Memory.mem_overlay hb with ⟨e, he, hbe⟩ | hnil
  · rw [hbe]
    exact List.all_eq_true.mp h e he
  · exact absurd hnil List.not_mem_nil

/-- Settles O23: the reset state meets the invariants whatever the configuration, and that of the reference system is
valid. -/
theorem resetMeetsTheInvariants : Obligations.ResetMeetsTheInvariants :=
  ⟨resetWith_canonical _, resetWith_sequencerAgrees _, resetWith_contained rfl, by decide⟩

/-- Settles O24: what setup has checked of the ports and the image, and the reset state of the checked
configuration. -/
theorem builtSystemsMeetTheInvariants : Obligations.BuiltSystemsMeetTheInvariants := by
  intro c s h
  obtain ⟨ports, hattach, hmaps, himage, rfl⟩ := powerOn_next h
  obtain ⟨hdisjoint, hsizes, hmem⟩ := attachAll_ok hattach List.Pairwise.nil (fun p hp => absurd hp List.not_mem_nil)
  refine ⟨⟨hdisjoint, fun p hp => ⟨hsizes p hp, List.all_eq_true.mp hmaps p hp⟩⟩, resetWith_canonical _,
    resetWith_sequencerAgrees _, resetWith_contained himage, rfl, fun p => ?_, rfl, rfl⟩
  simpa using hmem p

/-- Settles O27: the fields of the reset state; with no storage every register of a peripheral holds 0, `CONTROL`
included. -/
theorem resetSequencerAndDevices : Obligations.ResetSequencerAndDevices := by
  intro c a
  refine ⟨rfl, rfl, rfl, rfl, rfl, ?_⟩
  unfold State.control
  split <;> rfl

/-- Settles O28: bytes the image does not name are the zeros under it; of the entries for one address the last is
written over the others. -/
theorem resetMemoryIsTheImageOverZeros : Obligations.ResetMemoryIsTheImageOverZeros := by
  intro c a
  refine ⟨fun h => Memory.get_overlay_of_not_listed c.initImage [] h, fun before after b himage hlast => ?_⟩
  have hsplit : Memory.overlay c.initImage [] = Memory.overlay after (Cells.set (Memory.overlay before []) a b) := by
    rw [himage, Memory.overlay, List.foldl_append, List.foldl_cons]
    rfl
  have hread : (State.resetWith c).readByte a = Cells.get (Memory.overlay c.initImage []) a := rfl
  rw [hread, hsplit, Memory.get_overlay_of_not_listed after _ hlast]
  exact Cells.get_set_same (Memory.wf_overlay before Cells.wf_nil) a b

/-- R33: no number of steps changes the configuration. -/
theorem core_run_keeps_cfg {k : Nat} {s t : State} (h : Host.Core.run Sys2Proof.core k s = .next t) :
    t.cfg = s.cfg := by
  induction k generalizing s with
  | zero =>
    cases h
    rfl
  | succ k ih =>
    obtain ⟨u, hu⟩ := step_next s
    rw [ih ((core_run_succ hu k).symm.trans h), step_keeps_cfg hu]

/-- Settles O29: reset depends on the configuration only, which no step changes. -/
theorem resetAgainGivesTheResetState : Obligations.ResetAgainGivesTheResetState :=
  fun c _ _ h => congrArg State.resetWith (core_run_keeps_cfg (s := State.resetWith c) h)

end Sys2Proof.Machine
end

section
/-! PROOF. Port lookup and the bus (spec 20_memory.md R73 to R83; 21_peripherals.md R112 to R118). -/

namespace Sys2Proof.Machine

/-- Settles O30: an access has at least one byte, which lies in one port at most. -/
theorem portLookupIsUnique : Obligations.PortLookupIsUnique := by
  intro c a n hv
  have hn := n.bytes_pos
  refine ⟨fun p q hp hq hp1 hp2 hq1 hq2 => ?_, fun p => ⟨Config.lookup_some, fun ⟨hp, h1, h2⟩ => ?_⟩, ?_⟩
  · exact hv.eq_of_contains hp hq (a := a) (by omega) (by omega)
  · exact Config.lookup_eq hv hp h1 h2
  · rw [Config.lookup, List.find?_eq_none]
    refine forall₂_congr fun p _ => ?_
    rw [portContains_iff]
    omega

/-- Settles O31: each check by the law of the bus for it. -/
theorem busChecksInOrder : Obligations.BusChecksInOrder := by
  intro access a n v s
  refine ⟨fun h => ?_, fun h hu => ?_, fun p hp regs hv h ht h1 h2 hr => ?_⟩
  · exact ⟨memRead_misaligned s access h, memWrite_misaligned s v h⟩
  · exact ⟨memRead_unmapped s access h hu, memWrite_unmapped s v h hu⟩
  · exact bus_no_register s access v hv hp ht h h1 h2 hr

/-- The low `k` bytes of a number are its digits to base 256. -/
theorem sum_bytes_eq_mod (x k : Nat) :
    ((List.range k).map fun i => x / 2 ^ (8 * i) % 256 * 2 ^ (8 * i)).sum = x % 2 ^ (8 * k) := by
  induction k with
  | zero => simp [Nat.mod_one]
  | succ k ih =>
    have hpow : 2 ^ (8 * (k + 1)) = 2 ^ (8 * k) * 256 := by rw [Nat.mul_succ, Nat.pow_add]
    rw [List.range_succ, List.map_append, List.sum_append, ih, hpow, Nat.mod_mul, List.map_singleton,
      List.sum_singleton, Nat.mul_comm (2 ^ (8 * k))]

/-- R82, R83: reading back a region write gives the bytes it carried. -/
theorem State.regionRead_regionWrite_toNat (s : State) (hm : Memory.wf s.mem) (a : Nat) (n : Width) (v : Word) :
    ((s.regionWrite a n v).regionRead a n).toNat = v.toNat % 2 ^ (8 * n.bytes) := by
  have hbyte : ∀ i < n.bytes, ((s.regionWrite a n v).readByte (a + i)).toNat = v.toNat / 2 ^ (8 * i) % 256 :=
    fun i hi => by rw [s.readByte_regionWrite_inside hm a n v hi, byteOf_toNat]
  rw [State.regionRead_toNat, ← sum_bytes_eq_mod]
  exact congrArg List.sum (List.map_congr_left fun i hi => by rw [hbyte i (List.mem_range.mp hi)])

/-- Settles O34: a write that succeeded was aligned, so it and the read reached the region. -/
theorem readReturnsTheLastWrite : Obligations.ReadReturnsTheLastWrite := by
  intro access a n v s t hv hm hr hw
  have ha : a.toNat % n.bytes = 0 := by
    by_contra h
    cases (memWrite_misaligned s v h).symm.trans hw
  cases (memWrite_memory s v hv hr ha).symm.trans hw
  refine ⟨_, memRead_memory _ access ?_ ?_ ha, s.regionRead_regionWrite_toNat hm a.toNat n v⟩
  · rwa [State.regionWrite_cfg]
  · rwa [InRegion, State.regionWrite_cfg]

/-- Settles O35: the matching register's handler and effect, read off the bus law. -/
theorem peripheralReadGoesThroughItsHandler : Obligations.PeripheralReadGoesThroughItsHandler := by
  intro access a s p regs r hv hp ht hr ha halign
  rw [ha]
  refine ⟨_, _, memRead_periph s access hv hp ht hr ha halign, Width.trunc_toNat _ _, s.afterRead_of_none _,
    fun f hc hf => ?_, fun b hb => s.readLocal_afterRead_ne _ _ hb, s.afterRead_frame _ _⟩
  obtain ⟨-, -, hlocals, -⟩ := hc
  exact s.readLocal_afterRead_same hlocals _ hf

/-- R120: what one trigger, on a snapshot, makes of its peripheral's local state. -/
def triggerLocal (new old l : Word) (g : Trigger) : Word :=
  match g.callback with
  | .setHaltFlag => l
  | .setLocal f => if WordFn.eval new old 0#32 g.predicate = 0#32 then l else WordFn.eval new old l f

theorem triggerFires_iff (g : Trigger) (new old : Word) :
    triggerFires g new old = true ↔ WordFn.eval new old 0#32 g.predicate ≠ 0#32 := decide_eq_true_iff

theorem State.readLocal_fireTrigger (s : State) (hl : Cells.wf s.locals) (base : Nat) (new old : Word) (g : Trigger) :
    (State.fireTrigger base new old s g).readLocal base = triggerLocal new old (s.readLocal base) g := by
  unfold State.fireTrigger State.runCallback triggerLocal
  split <;> rename_i hfires <;> rw [triggerFires_iff] at hfires
  · cases g.callback with
    | setHaltFlag => rfl
    | setLocal f => simp only [if_neg hfires, s.readLocal_writeLocal_same hl]
  · cases g.callback with
    | setHaltFlag => rfl
    | setLocal f => simp only [if_pos (not_not.mp hfires)]

theorem State.fireTrigger_locals_wf (s : State) (hl : Cells.wf s.locals) (base : Nat) (new old : Word) (g : Trigger) :
    Cells.wf (State.fireTrigger base new old s g).locals := by
  rcases s.fireTrigger_locals base new old g with h | ⟨w, h⟩ <;> rw [h]
  · exact hl
  · exact Cells.wf_set hl base w

/-- R117: the triggers act on the local state one after the other, in registration order. -/
theorem State.readLocal_foldl_fireTrigger (s : State) (hl : Cells.wf s.locals) (base : Nat) (new old : Word)
    (gs : List Trigger) : (gs.foldl (State.fireTrigger base new old) s).readLocal base
      = gs.foldl (triggerLocal new old) (s.readLocal base) := by
  induction gs generalizing s with
  | nil => rfl
  | cons g rest ih =>
    rw [List.foldl_cons, List.foldl_cons, ih _ (s.fireTrigger_locals_wf hl base new old g),
      s.readLocal_fireTrigger hl]

/-- Settles O36: the bus law gives the register write, of which each part is a law of its own. -/
theorem peripheralWriteThenTriggers : Obligations.PeripheralWriteThenTriggers := by
  intro a v s p regs r hv hc hp ht hr ha halign
  obtain ⟨-, hstorage, hlocals, -⟩ := hc
  rw [ha]
  have hkeep := s.periphWrite_storage p.base r v
  refine ⟨_, memWrite_periph s v hv hp ht hr ha halign, ?_, fun b hb => ?_, ?_, ?_,
    fun b hb => s.readLocal_periphWrite_ne _ _ _ hb, by simp, by simp, by simp, by simp, by simp, by simp⟩
  · rw [State.readStorage, hkeep, Cells.get_set_same hstorage]
    rfl
  · rw [State.readStorage, hkeep, Cells.get_set_ne _ _ hb]
    rfl
  · rw [State.periphWrite_haltFlag, Bool.or_eq_true, List.any_eq_true]
    refine or_congr_right (exists_congr fun g => and_congr_right fun _ => ?_)
    rw [Bool.and_eq_true, decide_eq_true_eq, triggerFires_iff, and_comm]
    rfl
  · exact State.readLocal_foldl_fireTrigger (s.writeStorage _ _) hlocals _ _ _ _

end Sys2Proof.Machine
end

section
/-! PROOF. The ALU instructions and the jumps (spec 15_datapath.md R43 to R45; 41_jumps.md; 45_alu_immediate.md;
46_alu_register.md). -/

namespace Sys2Proof.Machine

variable (s : State) (rd : RegIdx)

/-! ### The ALU -/

theorem boolWord_eq_ite (p : Prop) [Decidable p] : boolWord (decide p) = if p then 1#32 else 0#32 := by
  simp [boolWord]

/-- R44: the ALU computes the table of arithmetic on the two readings of a word. -/
theorem alu_eq_aluReading (op : AluOp) (a b : Word) : alu op a b = aluReading op a b := by
  cases op with
  | add => exact BitVec.add_def a b
  | sub =>
    simp only [alu, aluReading, Int.sub_eq_add_neg, BitVec.ofInt_add, BitVec.ofInt_neg, BitVec.ofInt_natCast,
      BitVec.ofNat_toNat, BitVec.setWidth_eq, BitVec.sub_eq_add_neg]
  | sll => exact BitVec.eq_of_toNat_eq (by rw [alu_sll_toNat, aluReading, BitVec.toNat_ofNat])
  | slt => rw [alu, BitVec.slt_eq_decide, boolWord_eq_ite, aluReading]
  | sltu => rw [alu, BitVec.ult_eq_decide, boolWord_eq_ite, aluReading]
  | xor => simp only [alu, aluReading, BitVec.ofNat_xor, BitVec.ofNat_toNat, BitVec.setWidth_eq]
  | srl => rw [aluReading, ← alu_srl_toNat, BitVec.ofNat_toNat, BitVec.setWidth_eq]
  | sra =>
    have hpow : ((2 : Int) ^ (b.toNat % 32)) = ((2 ^ (b.toNat % 32) : Nat) : Int) := by push_cast; rfl
    rw [aluReading, alu, shiftAmount_eq_mod, hpow, ← Int.shiftRight_eq_div_pow]
    rfl
  | or => simp only [alu, aluReading, BitVec.ofNat_or, BitVec.ofNat_toNat, BitVec.setWidth_eq]
  | and => simp only [alu, aluReading, BitVec.ofNat_and, BitVec.ofNat_toNat, BitVec.setWidth_eq]

/-- R240: what each register-register instruction does. -/
theorem exec_aluReg {i : Instr} {op : AluOp} {rs1 rs2 : RegIdx} (h : exec i s = aluReg op rd rs1 rs2 s) :
    ∃ t, exec i s = .next t
      ∧ WritesOnly s t rd (aluReading op (s.readReg rs1) (s.readReg rs2)) (s.pc + 4#32) := by
  rw [← alu_eq_aluReading]
  exact ⟨_, h, writesOnly_writeReg_advance s rd _⟩

/-- R220: what each register-immediate instruction does. -/
theorem exec_aluImm {i : Instr} {op : AluOp} {rs1 : RegIdx} {b : Word} (h : exec i s = aluImm op rd rs1 b s) :
    ∃ t, exec i s = .next t ∧ WritesOnly s t rd (aluReading op (s.readReg rs1) b) (s.pc + 4#32) := by
  rw [← alu_eq_aluReading]
  exact ⟨_, h, writesOnly_writeReg_advance s rd _⟩

/-- Settles O56: each is `aluReg` at its operation. -/
theorem registerAluInstructions : Obligations.RegisterAluInstructions :=
  fun s rd _ _ => ⟨exec_aluReg s rd rfl, exec_aluReg s rd rfl, exec_aluReg s rd rfl, exec_aluReg s rd rfl,
    exec_aluReg s rd rfl, exec_aluReg s rd rfl, exec_aluReg s rd rfl, exec_aluReg s rd rfl, exec_aluReg s rd rfl,
    exec_aluReg s rd rfl⟩

/-- Settles O57: each is `aluImm` at its operation and the immediate. -/
theorem immediateAluInstructions : Obligations.ImmediateAluInstructions :=
  fun s rd _ _ => ⟨exec_aluImm s rd rfl, exec_aluImm s rd rfl, exec_aluImm s rd rfl, exec_aluImm s rd rfl,
    exec_aluImm s rd rfl, exec_aluImm s rd rfl⟩

/-- R44: an immediate shift amount counts whole. -/
theorem shamtWord_toNat_mod (shamt : BitVec 5) : (shamtWord shamt).toNat % 32 = shamt.toNat := by
  have := shamt.isLt
  rw [shamtWord, BitVec.toNat_setWidth]
  omega

/-- Settles O58: each is `aluImm` at its shift, by the shift amount as a word. -/
theorem immediateShiftInstructions : Obligations.ImmediateShiftInstructions := by
  intro s rd rs1 shamt
  have hsll := exec_aluImm s rd (i := .slli rd rs1 shamt) rfl
  have hsrl := exec_aluImm s rd (i := .srli rd rs1 shamt) rfl
  have hsra := exec_aluImm s rd (i := .srai rd rs1 shamt) rfl
  simp only [aluReading, shamtWord_toNat_mod] at hsll hsrl hsra
  exact ⟨hsll, hsrl, hsra⟩

/-! ### JAL and JALR -/

theorem linkValue_eq_ofNat : linkValue s = BitVec.ofNat 32 (s.pc.toNat + 4) := BitVec.add_def _ _

/-- Settles O44: the jump is one register write and one move of the pc. -/
theorem jalLinksAndJumps : Obligations.JalLinksAndJumps := by
  intro s rd imm
  rw [← linkValue_eq_ofNat, ← BitVec.add_def]
  exact ⟨_, rfl, writesOnly_writeReg_setPc s rd (linkValue s) (s.pc + imm)⟩

/-- R50: the mask of JALR clears bit 0 and nothing else. -/
theorem and_clearBit0_toNat (a : Word) : (a &&& 0xFFFFFFFE#32).toNat = a.toNat / 2 * 2 := by
  have hlt := a.isLt
  have hshift : a >>> 1 <<< 1 = a &&& 0xFFFFFFFE#32 := BitVec.shiftLeft_ushiftRight
  rw [← hshift, BitVec.toNat_shiftLeft, BitVec.toNat_ushiftRight, Nat.shiftLeft_eq, Nat.shiftRight_eq_div_pow]
  omega

/-- Settles O45: the target and the link value are computed from the state before either write. -/
theorem jalrLinksAndJumps : Obligations.JalrLinksAndJumps := by
  intro s rd rs1 imm
  rw [← linkValue_eq_ofNat]
  refine ⟨_, jalrTarget s rs1 imm, rfl, writesOnly_writeReg_setPc s rd (linkValue s) _, ?_⟩
  rw [jalrTarget, and_clearBit0_toNat, BitVec.toNat_add]

end Sys2Proof.Machine
end

section
/-! PROOF. Loads and stores (spec 15_datapath.md R52, R53; 43_loads.md; 44_stores.md). -/

namespace Sys2Proof.Machine

variable (s : State)

/-! ### What a load and a store do with the bus's answer -/

/-- R201 to R205: the five loads are `loadFrom` at their widths. -/
theorem exec_of_loadOf? {i : Instr} {n : Width} {rd rs1 : RegIdx} {imm : Word}
    (h : loadOf? i = some (n, rd, rs1, imm)) : ∃ e, exec i s = loadFrom n e rd rs1 imm s := by
  cases i with
  | lb => cases h; exact ⟨.sext8, rfl⟩
  | lh => cases h; exact ⟨.sext16, rfl⟩
  | lw => cases h; exact ⟨.copy, rfl⟩
  | lbu => cases h; exact ⟨.zext8, rfl⟩
  | lhu => cases h; exact ⟨.zext16, rfl⟩
  | _ => cases h

/-- R211 to R213: the three stores are `storeTo` at their widths. -/
theorem exec_of_storeOf? {i : Instr} {n : Width} {rs1 rs2 : RegIdx} {imm : Word}
    (h : storeOf? i = some (n, rs1, rs2, imm)) : exec i s = storeTo n rs1 rs2 imm s := by
  cases i with
  | sb | sh | sw => cases h; rfl
  | _ => cases h

/-- R200: a load whose bus read succeeds writes the extended word and advances, from what the read left. -/
theorem loadFrom_ok {n : Width} {rd rs1 : RegIdx} {imm v : Word} {m : State} (e : LoadExt)
    (h : memRead .load (effectiveAddress s rs1 imm) n s = .ok (v, m)) :
    ∃ u, loadFrom n e rd rs1 imm s = .next u ∧ WritesOnly m u rd (e.apply v) (s.pc + 4#32) := by
  have hpc : m.pc = s.pc := by rw [(memRead_frame s h).1]
  rw [loadFrom, h, ← hpc]
  exact ⟨_, rfl, writesOnly_writeReg_advance m rd _⟩

/-- R283: a load whose bus read raises takes the fault. -/
theorem exec_load_faults {i : Instr} {n : Width} {rd rs1 : RegIdx} {imm : Word} {info : FaultInfo}
    (hi : loadOf? i = some (n, rd, rs1, imm)) (h : memRead .load (effectiveAddress s rs1 imm) n s = .error info) :
    ∃ t, exec i s = .next t ∧ FaultsWith s t info := by
  obtain ⟨e, he⟩ := exec_of_loadOf? s hi
  rw [he, loadFrom, h]
  exact ⟨_, rfl, faultsWith_enterFault s info⟩

/-- R210: a store whose bus write succeeds advances, from what the write left. -/
theorem storeTo_ok {n : Width} {rs1 rs2 : RegIdx} {imm : Word} {t : State}
    (h : memWrite (effectiveAddress s rs1 imm) n (s.readReg rs2) s = .ok t) :
    storeTo n rs1 rs2 imm s = .next t.advance := by
  rw [storeTo, h]

/-- R283: a store whose bus write raises takes the fault. -/
theorem exec_store_faults {i : Instr} {n : Width} {rs1 rs2 : RegIdx} {imm : Word} {info : FaultInfo}
    (hi : storeOf? i = some (n, rs1, rs2, imm))
    (h : memWrite (effectiveAddress s rs1 imm) n (s.readReg rs2) s = .error info) :
    ∃ t, exec i s = .next t ∧ FaultsWith s t info := by
  rw [exec_of_storeOf? s hi, storeTo, h]
  exact ⟨_, rfl, faultsWith_enterFault s info⟩

/-- Settles O51: the bus raises, and the load or store takes its fault. -/
theorem loadAndStoreFaults : Obligations.LoadAndStoreFaults := by
  intro s i n base reg imm ea
  refine ⟨fun hi => ⟨fun h => ?_, fun h hu => ?_⟩, fun hi => ⟨fun h => ?_, fun h hu => ?_⟩⟩
  · exact exec_load_faults s hi (memRead_misaligned s .load h)
  · exact exec_load_faults s hi (memRead_unmapped s .load h hu)
  · exact exec_store_faults s hi (memWrite_misaligned s _ h)
  · exact exec_store_faults s hi (memWrite_unmapped s _ h hu)

/-! ### The extensions as numbers -/

/-- R53: sign extension reads the low bits as a signed number. -/
theorem sext_eq_ofInt {n : Nat} (v : Word) (h : n ≤ 32) : sext n v = BitVec.ofInt 32 (v.extractLsb' 0 n).toInt := by
  rw [sext, BitVec.setWidth_eq_extractLsb' h]
  rfl

/-- R53: zero extension reads the low bits as an unsigned number. -/
theorem zext_eq_ofNat (n : Nat) (v : Word) : zext n v = BitVec.ofNat 32 (v.toNat % 2 ^ n) := by
  apply BitVec.eq_of_toNat_eq
  rw [zext, BitVec.toNat_setWidth, BitVec.toNat_setWidth, BitVec.toNat_ofNat]

/-- Settles O52: a load extends what the bus answered, in the state the bus left; a store writes the low bytes, which
are all the bus takes of the register, and advances. -/
theorem widthAndExtensionByMnemonic : Obligations.WidthAndExtensionByMnemonic := by
  intro s m t rd rs1 rs2 imm v ea
  have hea : ea = effectiveAddress s rs1 imm := (BitVec.add_def _ _).symm
  have hstore {n : Width} (h : memWrite ea n (s.readReg rs2) s = .ok t) :
      ∃ u, storeTo n rs1 rs2 imm s = .next u ∧ u = { t with pc := s.pc + 4#32 } := by
    obtain ⟨-, hpc, -⟩ := memWrite_frame s h
    exact ⟨_, storeTo_ok s (hea ▸ h), by rw [State.advance, hpc, State.setPc]⟩
  rw [hea]
  refine ⟨fun n h => (memRead_frame s h).1, fun h => ⟨?_, ?_⟩, fun h => ⟨?_, ?_⟩, fun h => loadFrom_ok s .copy h,
    fun h => ?_, fun h => ?_, fun h => hstore (hea ▸ h)⟩
  · rw [← sext_eq_ofInt v (by omega)]
    exact loadFrom_ok s .sext8 h
  · have hz : zext 8 v = BitVec.ofNat 32 (v.toNat % 256) := zext_eq_ofNat 8 v
    rw [← hz]
    exact loadFrom_ok s .zext8 h
  · rw [← sext_eq_ofInt v (by omega)]
    exact loadFrom_ok s .sext16 h
  · have hz : zext 16 v = BitVec.ofNat 32 (v.toNat % 65536) := zext_eq_ofNat 16 v
    rw [← hz]
    exact loadFrom_ok s .zext16 h
  · have hw := memWrite_trunc s ea .byte (s.readReg rs2)
    exact hstore (hw.symm.trans (hea ▸ h))
  · have hw := memWrite_trunc s ea .half (s.readReg rs2)
    exact hstore (hw.symm.trans (hea ▸ h))

/-! ### Memory regions -/

/-- R81, R53: what LB and LBU make of the byte they read. -/
theorem sext_place_byte (b : Byte) : sext 8 (place b 0) = BitVec.ofInt 32 b.toInt := by
  have hlow : (place b 0).setWidth 8 = b := by
    apply BitVec.eq_of_toNat_eq
    rw [BitVec.toNat_setWidth, place_toNat b (by omega)]
    omega
  rw [sext, hlow]
  rfl

theorem zext_place_byte (b : Byte) : zext 8 (place b 0) = BitVec.ofNat 32 b.toNat := by
  rw [zext_eq_ofNat, place_toNat b (by omega)]
  congr 1
  omega

/-- R82, R53: what LH and LHU make of the two bytes they read. -/
theorem sext_half (b0 b1 : Byte) :
    sext 16 (place b1 8 ||| place b0 0) = BitVec.ofInt 32 (b0.toNat + 256 * b1.toInt) := by
  have hnat := halfOfBytes_toNat b0 b1
  generalize place b1 8 ||| place b0 0 = v at hnat
  have h0 := b0.isLt
  have h1 := b1.isLt
  have hint : (v.setWidth 16).toInt = b0.toNat + 256 * b1.toInt := by
    rw [BitVec.toInt_eq_toNat_cond, BitVec.toInt_eq_toNat_cond, BitVec.toNat_setWidth, hnat]
    split <;> split <;> omega
  rw [sext, BitVec.signExtend, hint]

theorem zext_half (b0 b1 : Byte) :
    zext 16 (place b1 8 ||| place b0 0) = BitVec.ofNat 32 (b0.toNat + 256 * b1.toNat) := by
  have h0 := b0.isLt
  have h1 := b1.isLt
  rw [zext_eq_ofNat, halfOfBytes_toNat, Nat.mod_eq_of_lt (by omega)]

/-- R87: what LW makes of the four bytes it reads. -/
theorem wordOfBytes_eq_ofNat (b0 b1 b2 b3 : Byte) : wordOfBytes b0 b1 b2 b3
    = BitVec.ofNat 32 (b0.toNat + 256 * b1.toNat + 65536 * b2.toNat + 16777216 * b3.toNat) := by
  rw [← wordOfBytes_toNat, BitVec.ofNat_toNat, BitVec.setWidth_eq]

/-- Settles O49: the bus answers the region's read, whose bytes the mnemonic extends. -/
theorem loadsFromMemoryRegions : Obligations.LoadsFromMemoryRegions := by
  intro s rd rs1 imm hv ea b
  have hload {n : Width} (e : LoadExt) (hr : InRegion s ea n) (ha : ea % n.bytes = 0) :=
    loadFrom_ok s (rd := rd) (rs1 := rs1) (imm := imm) e (memRead_memory s .load hv hr ha)
  refine ⟨fun hr => ⟨?_, ?_⟩, fun hr ha => ⟨?_, ?_⟩, fun hr ha => ?_⟩
  · rw [← sext_place_byte]
    exact hload .sext8 hr (Nat.mod_one _)
  · rw [← zext_place_byte]
    exact hload .zext8 hr (Nat.mod_one _)
  · rw [← sext_half]
    exact hload .sext16 hr ha
  · rw [← zext_half]
    exact hload .zext16 hr ha
  · rw [← wordOfBytes_eq_ofNat]
    exact hload .copy hr ha

/-- Settles O50: the bus makes the region's write, whose bytes and frame the region laws give. -/
theorem storesToMemoryRegions : Obligations.StoresToMemoryRegions := by
  intro i n rs1 rs2 imm s hi hv hc ea hr ha
  obtain ⟨hmem, -, -, -⟩ := hc
  have hw := memWrite_memory s (s.readReg rs2) hv hr ha
  refine ⟨_, (exec_of_storeOf? s hi).trans (storeTo_ok s hw), fun k hk => ?_, fun a hout => ?_, fun r => ?_, by simp,
    ⟨fun a => ?_, fun a => ?_, by simp⟩, by simp, by simp, by simp⟩
  · rw [State.readByte_advance, s.readByte_regionWrite_inside hmem _ n _ hk, byteOf_toNat]
  · rw [State.readByte_advance, s.readByte_regionWrite_outside _ n _ hout]
  · rw [State.readReg_advance, State.readReg_congr (s.regionWrite_regs _ _ _)]
  · simp [State.readStorage]
  · simp [State.readLocal]

/-- R82, R83: a word written to a region reads back whole. -/
theorem State.regionRead_regionWrite_word (hm : Memory.wf s.mem) (a : Nat) (v : Word) :
    (s.regionWrite a .word v).regionRead a .word = v := by
  apply BitVec.eq_of_toNat_eq
  rw [s.regionRead_regionWrite_toNat hm]
  exact Nat.mod_eq_of_lt v.isLt

theorem State.pollHalt_of_flag_clear {s : State} (h : s.haltFlag = false) : s.pollHalt = s := by
  rw [State.pollHalt_eq_ite, if_neg (by simp [h])]

/-- Settles O54: the store puts the word's bytes at the next pc, in a hart that stays ready to fetch; its next step
fetches what they make together, the word. -/
theorem storedInstructionRunsNext : Obligations.StoredInstructionRunsNext := by
  intro s rs1 rs2 imm i h hc hflag hd ha hr hi
  obtain ⟨hrun, hv, halign, -⟩ := id h
  obtain ⟨hmem, -, -, -⟩ := hc
  have halign' : (s.pc + 4#32).toNat % 4 = 0 := by rw [toNat_add_four_mod, halign]
  have hw := memWrite_memory s (s.readReg rs2) hv hr halign'
  have hread := s.regionRead_regionWrite_word hmem (s.pc + 4#32).toNat (s.readReg rs2)
  generalize ht : s.regionWrite (s.pc + 4#32).toNat .word (s.readReg rs2) = t at hw hread
  obtain ⟨hregs, hpc, hstate, -, hcfg⟩ := memWrite_frame s hw
  have hflag' : t.advance.haltFlag = false := by simp [← ht, hflag]
  have hpc' : t.advance.pc = s.pc + 4#32 := by rw [State.advance_pc, hpc]
  have hready : ReadyToFetch t.advance := by
    refine ⟨hstate.trans hrun, ?_, ?_, ?_⟩
    · rwa [State.advance_cfg, hcfg]
    · rwa [hpc']
    · rwa [InRegion, hpc', State.advance_cfg, hcfg]
  have hword : wordAtPc t.advance = s.readReg rs2 := by
    rw [wordAtPc, hpc']
    exact hread
  have hstep := step_of_ready h hd (storeTo_ok s (rs1 := rs1) (imm := imm) (ha ▸ hw))
  rw [State.pollHalt_of_flag_clear hflag'] at hstep
  exact ⟨t.advance, hstep, hready.1, hpc', State.readReg_congr hregs,
    fun u hu => step_of_ready hready (hword ▸ hi) hu⟩

end Sys2Proof.Machine
end

section
/-! PROOF. Accesses to `CONTROL` (spec 21_peripherals.md R126, R127, R129). -/

namespace Sys2Proof.Machine

variable (s : State)

/-- Settles O38: the store is the write of `CONTROL`, which sets the flag that the poll of the same step examines. -/
theorem controlStoreHaltsInItsOwnStep : Obligations.ControlStoreHaltsInItsOwnStep := by
  intro s p rs1 rs2 imm h hc hp ht ha halign hd hbit
  obtain ⟨hrun, hv, -, -⟩ := id h
  obtain ⟨-, hstorage, -, -⟩ := hc
  have hx := exec_sw_simControl s (rs2 := rs2) hv hp ht ha halign
  have hstep := step_of_ready h hd hx
  have hhalted : (s.writeControl p.base (s.readReg rs2)).advance.pollHalt.hartState = .halted := by
    have hflag : (s.writeControl p.base (s.readReg rs2)).advance.haltFlag = true := by
      rw [State.advance_haltFlag, State.writeControl, hbit, Bool.or_true]
    rw [State.pollHalt_eq_ite, if_pos ⟨hrun, hflag⟩]
  refine ⟨_, hstep, hhalted, ?_, fun r => ?_, fun a => ?_, ?_, fun k => terminalStatesAreStable _ k (by simp [hhalted])⟩
  · rw [State.pollHalt_pc]
    rfl
  · rw [State.readReg_pollHalt]
    rfl
  · rw [State.readByte_pollHalt]
    rfl
  · rw [State.readStorage_pollHalt]
    exact s.readStorage_writeStorage_same hstorage p.base _

/-- R126: a word read at the base of a SimControl port is the storage of `CONTROL`, and changes nothing. -/
theorem memRead_simControl {access : Access} {a : Word} {p : Port} (hv : Config.Valid s.cfg) (hp : p ∈ s.cfg.ports)
    (ht : p.target = .peripheral simControl) (ha : a.toNat = p.base) (h : p.base % 4 = 0) :
    memRead access a .word s = .ok (s.readStorage p.base, s) := by
  have hm := memRead_periph s access hv hp ht (List.mem_singleton.mpr rfl) ha (ha ▸ h)
  rw [s.afterRead_of_none _ rfl, State.periphRead, Width.trunc_word] at hm
  exact hm

/-- Settles O41: the store writes the storage that the load reads. -/
theorem controlReadsBackTheLastWrite : Obligations.ControlReadsBackTheLastWrite := by
  intro s p rd rs1 rs2 imm hv hc hp ht ha halign
  obtain ⟨-, hstorage, -, -⟩ := hc
  have hpc : s.pc + 8#32 = (s.writeControl p.base (s.readReg rs2)).advance.pc + 4#32 :=
    (BitVec.add_assoc s.pc 4#32 4#32).symm
  have hstored : (s.writeControl p.base (s.readReg rs2)).advance.readStorage p.base = s.readReg rs2 :=
    s.readStorage_writeStorage_same hstorage p.base _
  have hread := memRead_simControl (s.writeControl p.base (s.readReg rs2)).advance (access := .load) hv hp ht ha halign
  rw [hstored] at hread
  rw [hpc]
  obtain ⟨u, hu, hwrites⟩ := loadFrom_ok (rd := rd) (s.writeControl p.base (s.readReg rs2)).advance .copy hread
  exact ⟨_, u, exec_sw_simControl s hv hp ht ha halign, hu, hwrites⟩

/-- R112, R127: in the SimControl window no access but that of a word matches a register. -/
theorem bus_narrow_simControl (access : Access) {a : Word} {n : Width} {p : Port} (v : Word)
    (hv : Config.Valid s.cfg) (hp : p ∈ s.cfg.ports) (ht : p.target = .peripheral simControl) (hn : n ≠ .word)
    (h1 : p.base ≤ a.toNat) (h2 : a.toNat + n.bytes ≤ p.base + p.size) :
    let info := fun access => if a.toNat % n.bytes = 0 then FaultInfo.unmappedAccess a n access
      else .misalignedAccess a n access
    memRead access a n s = .error (info access) ∧ memWrite a n v s = .error (info .store) := by
  by_cases h : a.toNat % n.bytes = 0
  · simp only [if_pos h]
    refine bus_no_register s access v hv hp ht h h1 h2 fun r hr => ?_
    obtain rfl := List.mem_singleton.mp hr
    rintro ⟨-, hw⟩
    exact hn hw.symm
  · simp only [if_neg h]
    exact ⟨memRead_misaligned s access h, memWrite_misaligned s v h⟩

/-- Settles O42: the bus raises, and the load or store takes its fault. -/
theorem narrowControlAccessesFault : Obligations.NarrowControlAccessesFault := by
  intro s p i n base reg imm hv hp ht _ hn ea h1 h2
  obtain ⟨hread, hwrite⟩ := bus_narrow_simControl s .load (s.readReg reg) hv hp ht hn h1 h2
  exact ⟨fun hi => exec_load_faults s hi hread, fun hi => exec_store_faults s hi hwrite⟩

end Sys2Proof.Machine
end
